-- ==== Sys2Proof/Word.lean ====
section
/-! DEFINITION. The words of the N5110 graphics core (spec/00_scope.md R7, R8). -/

namespace Sys2Proof

/-- A byte: 8 bits, unsigned, bit 7 the most significant (R7). -/
abbrev Byte := BitVec 8

/-- A 16-bit word: the command pointer (`PC_BITS` of R5) and the font base operand (R5). -/
abbrev Word := BitVec 16

end Sys2Proof
end

