-- ==== Sys2Proof/Syntax.lean ====
section
/-! DEFINITION. The commands of the core: one constructor for each row of spec/opcode_table.json, in the
table's order, its operands in the order of spec/30_encoding.md R82. -/

namespace Sys2Proof

/-- A command with its operand bytes. Operands are whole bytes (R81, R84). A Boolean operand is kept as the byte
it stands in, so that a reserved bit that is set (R88) is visible to `Instr.wellFormed` and to the command's
meaning, which raises OperandRange for it. -/
inductive Instr where
  /-- 0x10 CLEAR (R111). -/
  | clear
  /-- 0x11 SETPIX x, y, on (R112). -/
  | setpix (x y on : Byte)
  /-- 0x12 GETPIX x, y (R113). -/
  | getpix (x y : Byte)
  /-- 0x13 GETBYTE row, x (R114). -/
  | getbyte (row x : Byte)
  /-- 0x14 SETBYTE row, x, value (R115). -/
  | setbyte (row x value : Byte)
  /-- 0x20 HLINE x, y, length (R131). -/
  | hline (x y length : Byte)
  /-- 0x21 VLINE x, y, length (R132). -/
  | vline (x y length : Byte)
  /-- 0x22 LINE x1, y1, x2, y2 (R133). -/
  | line (x1 y1 x2 y2 : Byte)
  /-- 0x23 RECT x1, y1, x2, y2 (R136). -/
  | rect (x1 y1 x2 y2 : Byte)
  /-- 0x30 PRINTCH c (R160). -/
  | printch (c : Byte)
  /-- 0x31 PRINTSTR x, row, fbase, str (R158). -/
  | printstr (x row : Byte) (fbase : Word) (str : List Byte)
  /-- 0x32 PRINTSTRB x, row, fbase, str (R159). -/
  | printstrb (x row : Byte) (fbase : Word) (str : List Byte)
  /-- 0x40 INIT (R183). -/
  | init
  /-- 0x41 SETDINV flag (R184). -/
  | setdinv (flag : Byte)
  /-- 0x42 SETTINV flag (R185). -/
  | settinv (flag : Byte)
  /-- 0x43 GOTO x, row (R186). -/
  | goto (x row : Byte)
  /-- 0x44 REFRESH (R187). -/
  | refresh
  /-- 0x45 REFRESHR xmin, ymin, xmax, ymax (R188). -/
  | refreshr (xmin ymin xmax ymax : Byte)
deriving DecidableEq, Repr

end Sys2Proof
end

