-- ==== Sys2Proof/WellFormed.lean ====
section
/-! DEFINITION. Which terms of `Instr` are commands that spec/30_encoding.md can write down without a
reserved bit: the string fits its length byte (R81, R85) and Boolean bytes have bits 7:1 clear (R84, R88). -/

namespace Sys2Proof

/-- Bits 7:1 of a Boolean operand byte are 0 (R88). -/
def boolByteOk (v : Byte) : Bool := v.toNat < 2

/-- The string's length fits the length byte `n` (R81, R85). -/
def stringFits (str : List Byte) : Bool := str.length < 256

/-- What the encoding can hold: only the string length can fail it (R81). -/
def Instr.encodable : Instr → Bool
  | .printstr _ _ _ str => stringFits str
  | .printstrb _ _ _ str => stringFits str
  | .clear | .setpix _ _ _ | .getpix _ _ | .getbyte _ _ | .setbyte _ _ _ => true
  | .hline _ _ _ | .vline _ _ _ | .line _ _ _ _ | .rect _ _ _ _ | .printch _ => true
  | .init | .setdinv _ | .settinv _ | .goto _ _ | .refresh | .refreshr _ _ _ _ => true

/-- A command with an encoding and no reserved operand bit set (R81, R85, R88). Operand values that a command
answers with a fault (a band index of 9) are well formed: the command's own rule decides them (R88). -/
def Instr.wellFormed : Instr → Bool
  | .setpix _ _ on => boolByteOk on
  | .setdinv flag => boolByteOk flag
  | .settinv flag => boolByteOk flag
  | .printstr _ _ _ str => stringFits str
  | .printstrb _ _ _ str => stringFits str
  | .clear | .getpix _ _ | .getbyte _ _ | .setbyte _ _ _ => true
  | .hline _ _ _ | .vline _ _ _ | .line _ _ _ _ | .rect _ _ _ _ | .printch _ => true
  | .init | .goto _ _ | .refresh | .refreshr _ _ _ _ => true

end Sys2Proof
end

