-- ==== Sys2Proof/Decode.lean ====
section
/-! DEFINITION. The encoding of the commands (spec/30_encoding.md R81 to R88): the decoder, total on any list of
bytes and rejecting by name, and the encoder, both written from the tables of R81 to R83. -/

namespace Sys2Proof

/-- Why the bytes at the command pointer are no command (R80). -/
inductive DecodeError where
  /-- Byte 0 is none of the 18 opcodes (R86). -/
  | illegalOpcode
  /-- The stream ends before the command's last byte (R87). -/
  | truncated
deriving DecidableEq, Repr

/-- Format F0: no operand byte (R81). -/
def decodeF0 (mk : Instr) (_operands : List Byte) : Except DecodeError Instr := .ok mk

/-- Format F1: operand byte `a` (R81). -/
def decodeF1 (mk : Byte → Instr) : List Byte → Except DecodeError Instr
  | a :: _ => .ok (mk a)
  | _ => .error .truncated

/-- Format F2: operand bytes `a`, `b` (R81). -/
def decodeF2 (mk : Byte → Byte → Instr) : List Byte → Except DecodeError Instr
  | a :: b :: _ => .ok (mk a b)
  | _ => .error .truncated

/-- Format F3: operand bytes `a`, `b`, `c` (R81). -/
def decodeF3 (mk : Byte → Byte → Byte → Instr) : List Byte → Except DecodeError Instr
  | a :: b :: c :: _ => .ok (mk a b c)
  | _ => .error .truncated

/-- Format F4: operand bytes `a`, `b`, `c`, `d` (R81). -/
def decodeF4 (mk : Byte → Byte → Byte → Byte → Instr) : List Byte → Except DecodeError Instr
  | a :: b :: c :: d :: _ => .ok (mk a b c d)
  | _ => .error .truncated

/-- The 16-bit operand `p = p_lo + 256 * p_hi` (R81, R84). -/
def wordOfBytes (lo hi : Byte) : Word := hi ++ lo

/-- Format FS: `a`, `b`, `p_lo`, `p_hi`, the length byte `n`, then exactly `n` string bytes. The six fixed bytes are
checked first, so the length byte is never read beyond the stream (R80, R81, R85, R87). -/
def decodeFS (mk : Byte → Byte → Word → List Byte → Instr) : List Byte → Except DecodeError Instr
  | a :: b :: lo :: hi :: n :: s =>
    if s.length < n.toNat then .error .truncated else .ok (mk a b (wordOfBytes lo hi) (s.take n.toNat))
  | _ => .error .truncated

/-- A row of the opcode map: the format of the operand bytes and the command they make (R82). -/
inductive Layout where
  | f0 (mk : Instr)
  | f1 (mk : Byte → Instr)
  | f2 (mk : Byte → Byte → Instr)
  | f3 (mk : Byte → Byte → Byte → Instr)
  | f4 (mk : Byte → Byte → Byte → Byte → Instr)
  | fs (mk : Byte → Byte → Word → List Byte → Instr)

/-- The operand bytes of a row, read in its format. -/
def decodeLayout : Layout → List Byte → Except DecodeError Instr
  | .f0 mk => decodeF0 mk
  | .f1 mk => decodeF1 mk
  | .f2 mk => decodeF2 mk
  | .f3 mk => decodeF3 mk
  | .f4 mk => decodeF4 mk
  | .fs mk => decodeFS mk

/-- The opcode map (R82, R83). -/
def opcodeTable : List (Byte × Layout) :=
  [(0x10, .f0 .clear), (0x11, .f3 .setpix), (0x12, .f2 .getpix), (0x13, .f2 .getbyte), (0x14, .f3 .setbyte),
   (0x20, .f3 .hline), (0x21, .f3 .vline), (0x22, .f4 .line), (0x23, .f4 .rect),
   (0x30, .f1 .printch), (0x31, .fs .printstr), (0x32, .fs .printstrb),
   (0x40, .f0 .init), (0x41, .f1 .setdinv), (0x42, .f1 .settinv), (0x43, .f2 .goto), (0x44, .f0 .refresh),
   (0x45, .f4 .refreshr)]

/-- A match on all 8 bits of byte 0 (R83), then the row's operand bytes. -/
def decodeOpcode (op : Byte) (operands : List Byte) : Except DecodeError Instr :=
  match opcodeTable.lookup op with
  | some row => decodeLayout row operands
  | none => .error .illegalOpcode

/-- The command at the head of a list of bytes, the opcode at the lowest address (R55, R80). The list may go on
after the command. An empty list is truncated: the command step never decodes one (R80; log entry 11). -/
def decode : List Byte → Except DecodeError Instr
  | [] => .error .truncated
  | op :: operands => decodeOpcode op operands

/-- The command's opcode byte (R83). -/
def Instr.opcode : Instr → Byte
  | .clear => 0x10
  | .setpix _ _ _ => 0x11
  | .getpix _ _ => 0x12
  | .getbyte _ _ => 0x13
  | .setbyte _ _ _ => 0x14
  | .hline _ _ _ => 0x20
  | .vline _ _ _ => 0x21
  | .line _ _ _ _ => 0x22
  | .rect _ _ _ _ => 0x23
  | .printch _ => 0x30
  | .printstr _ _ _ _ => 0x31
  | .printstrb _ _ _ _ => 0x32
  | .init => 0x40
  | .setdinv _ => 0x41
  | .settinv _ => 0x42
  | .goto _ _ => 0x43
  | .refresh => 0x44
  | .refreshr _ _ _ _ => 0x45

/-- The operand bytes of format FS (R81): the base low byte first, the length, then the string. -/
def encodeFS (x row : Byte) (fbase : Word) (str : List Byte) : List Byte :=
  [x, row, fbase.extractLsb' 0 8, fbase.extractLsb' 8 8, BitVec.ofNat 8 str.length] ++ str

/-- The operand bytes after the opcode (R81, R82). -/
def Instr.operandBytes : Instr → List Byte
  | .clear => []
  | .setpix x y on => [x, y, on]
  | .getpix x y => [x, y]
  | .getbyte row x => [row, x]
  | .setbyte row x value => [row, x, value]
  | .hline x y length => [x, y, length]
  | .vline x y length => [x, y, length]
  | .line x1 y1 x2 y2 => [x1, y1, x2, y2]
  | .rect x1 y1 x2 y2 => [x1, y1, x2, y2]
  | .printch c => [c]
  | .printstr x row fbase str => encodeFS x row fbase str
  | .printstrb x row fbase str => encodeFS x row fbase str
  | .init => []
  | .setdinv flag => [flag]
  | .settinv flag => [flag]
  | .goto x row => [x, row]
  | .refresh => []
  | .refreshr xmin ymin xmax ymax => [xmin, ymin, xmax, ymax]

/-- The bytes of a command (R81). -/
def encode (i : Instr) : List Byte := i.opcode :: i.operandBytes

/-- The command's length `L` in bytes (R81). -/
def Instr.size : Instr → Nat
  | .clear | .init | .refresh => 1
  | .printch _ | .setdinv _ | .settinv _ => 2
  | .getpix _ _ | .getbyte _ _ | .goto _ _ => 3
  | .setpix _ _ _ | .setbyte _ _ _ | .hline _ _ _ | .vline _ _ _ => 4
  | .line _ _ _ _ | .rect _ _ _ _ | .refreshr _ _ _ _ => 5
  | .printstr _ _ _ str => 6 + str.length
  | .printstrb _ _ _ str => 6 + str.length

/-- `HOME` expands to `GOTO 0, 0` (R92). -/
def Instr.home : Instr := .goto 0 0

/-- `PSET x, y` expands to `SETPIX x, y, 1` (R92). -/
def Instr.pset (x y : Byte) : Instr := .setpix x y 1

/-- `PCLR x, y` expands to `SETPIX x, y, 0` (R92). -/
def Instr.pclr (x y : Byte) : Instr := .setpix x y 0

/-- The longest command is 6 + 255 = 261 bytes (R81). -/
def longestCommand : Nat := 261

/-- The bytes of a table word: byte `k` is bits `8k+7 .. 8k` of `w`, every bit from `nbits` up being 0, as many
bytes as the longest command has. -/
def tableWordBytes (nbits w : Nat) : List Byte :=
  (List.range longestCommand).map fun k => BitVec.ofNat 8 (w % 2 ^ nbits / 2 ^ (8 * k))

/-- The command the decoder reads from an instruction whose bits are `w`, numbered as spec/opcode_table.json
numbers them. -/
def decodeTableWord (nbits w : Nat) : Option Instr :=
  match decode (tableWordBytes nbits w) with
  | .ok i => some i
  | .error _ => none

end Sys2Proof
end

