-- ==== Sys2Proof/Config.lean ====
section
/-! DEFINITION. What is fixed for a run and what the spec leaves free: the open parameters of
spec/00_scope.md R6 and the arbitrary bytes of the PixelBuffer after hardware reset
(spec/70_reset_and_hazards.md R230). The fixed parameters of R5 stand as numerals in the rules that use them, as
they do in the spec's own pseudocode. -/

namespace Sys2Proof

/-- The byte that FB address `addr` holds after the hardware reset number `draw` and until something writes it:
"unspecified: every byte holds an arbitrary value", to be modelled "as a free input of the run (a draw), never as
zero" (R230, U9). It has no body, so nothing in Lean can say what it is. Log entries 1 and 2. -/
opaque Config.powerOnByte (draw addr : Nat) : Byte

/-- The configuration the host fixes before a run (R6): the FONT space, the default font's base and the command
stream. `FONT_SIZE` and `CMD_LEN` are the lengths of the two lists. No step writes it (R32, R63). -/
structure RunConfig where
  /-- `FONT[0 .. FONT_SIZE-1]` in address order (R53). -/
  font : List Byte
  /-- `DEFAULT_FONT_BASE` (R6). -/
  defaultFontBase : Word
  /-- `CMD[0 .. CMD_LEN-1]` in address order (R54). -/
  cmd : List Byte
deriving DecidableEq, Repr

/-- The types of the two sizes in R6: `FONT_SIZE` is 0 to 65536 and `CMD_LEN` is 0 to 65535. What R6 asks of the
default font is `RunConfig.wf`. -/
def RunConfig.sizesOk (c : RunConfig) : Bool := c.font.length ≤ 65536 && c.cmd.length ≤ 65535

/-- What the transport will do with the events it is offered (R6, R59). The core has no timeout and time is not
modelled, so all that matters is how many more events it will ever accept (log entry 4). -/
inductive Transport where
  /-- Every event offered is eventually accepted: the assumption `TRANSPORT_READY` (R59). -/
  | ready
  /-- It accepts this many more events and then never accepts another (R59, R238). -/
  | accepts (events : Nat)
deriving DecidableEq, Repr

end Sys2Proof
end

