-- ==== Sys2Proof/Machine/State.lean ====
section
/-! DEFINITION. The machine's state (spec/10_state.md R20 to R34), the state after hardware reset
(spec/70_reset_and_hazards.md R230), and the reasons a step can end in something other than a next state. -/

namespace Sys2Proof.Machine

/-- The written bytes of the FB space: (address, byte) cells, addresses strictly rising. An unlisted address is one
that nothing has written since hardware reset (log entry 1). `Memory.wf` states the form. -/
abbrev Memory := List Host.Cell

/-- The PixelBuffer `fb[0 .. 503]` (R22). A byte nothing has written since hardware reset holds the arbitrary byte
`Config.powerOnByte draw a` (R230). -/
structure PixelBuffer where
  /-- The bytes written since hardware reset. -/
  mem : Memory
  /-- The model's own field: which draw of arbitrary bytes the unwritten addresses hold (log entry 2). -/
  draw : Nat
deriving DecidableEq, Repr

/-- One transport event (R58): `Rst`, `Tx(b, C)` or `Tx(b, D)`. -/
inductive WireEvent where
  /-- `Rst`: the transport's `reset()`. -/
  | rst
  /-- `Tx(b, C)`: `transmit(b, isCommand = true)`. -/
  | command (b : Byte)
  /-- `Tx(b, D)`: `transmit(b, isCommand = false)`. -/
  | data (b : Byte)
deriving DecidableEq, Repr

/-- The four fault causes of spec/60_exceptions.md R201. A command that raises one goes on to a next state, the
faulted state (R202). -/
inductive FaultCause where
  /-- Byte 0 is not an opcode (R86). -/
  | illegalOpcode
  /-- The stream ends before the command's last byte (R87). -/
  | truncatedCommand
  /-- A reserved operand bit is 1, or an operand is out of its rule's range (R88). -/
  | operandRange
  /-- The font table does not fit the FONT space (R151). -/
  | fontBounds
deriving DecidableEq, Repr

/-- Everything the spec gives the machine: the command pointer, the PixelBuffer, SR0 to SR7, the wire trace
(R21 to R31), and what the environment fixes for the run (R6, R32, R59). -/
structure State where
  /-- The command pointer (R21). -/
  pc : Word
  /-- The PixelBuffer (R22). -/
  fb : PixelBuffer
  /-- SR0 MODE: bit 0 `DI`, bit 1 `TI`, bits 7:2 hardwired 0 (R24, R25). -/
  mode : Byte
  /-- SR1 STATUS: bit 0 `FAILED`, bit 1 `FAULT`, bits 7:2 hardwired 0 (R24, R26). -/
  status : Byte
  /-- SR2 CUR_X (R27). -/
  curX : Byte
  /-- SR3 CUR_ROW (R27). -/
  curRow : Byte
  /-- SR4 RES (R29). -/
  res : Byte
  /-- SR5 FCAUSE (R30). -/
  fcause : Byte
  /-- SR6 FPC_LO (R30). -/
  fpcLo : Byte
  /-- SR7 FPC_HI (R30). -/
  fpcHi : Byte
  /-- WIRE: every transport event since hardware reset, oldest first (R31). -/
  wire : List WireEvent
  /-- The event on offer where the core is stuck: a command is waiting for the transport to accept it and the transport
  never does (R59, R204). `none` in every other state (log entry 5). -/
  waiting : Option WireEvent
  /-- The configuration of the run: CMD, FONT, DEFAULT_FONT_BASE (R6). No step writes it (R32). -/
  cfg : RunConfig
  /-- Transport readiness (R6, R59). -/
  transport : Transport
deriving DecidableEq, Repr

/-- Why `step` answers no next state: no step is enabled in this state. Each is the spec's own; none discards an
effect the spec gives. -/
inductive Fault where
  /-- Raised by `step` where `FAULT = 1`: "the core executes nothing" (R203). Safe (log entry 6). -/
  | halted
  /-- Raised by `step` where the command stream is exhausted, `pc = CMD_LEN`: the run is over (R12, R80). A `pc`
  above `CMD_LEN`, which no run reaches, enables no step either (R80). Safe (log entry 6). -/
  | streamExhausted
  /-- Raised by `step` where the core is stuck: a command waits for the transport to accept an event and the transport
  never does (R59, R204). The command itself has led to that state, with its accepted events in the trace. Safe
  (log entries 5 and 6). -/
  | transportStalled
deriving DecidableEq, Repr

/-- Why a state or an instruction has no meaning in the model. -/
inductive Refusal where
  /-- Raised by an arm of `exec` for a command that has no meaning yet; no arm does. Safe. -/
  | notModelled (mnemonic : String)
  /-- Raised by `step` in every state of a run whose configuration violates R6, so before its first command: "a model
  must refuse a configuration whose DEFAULT_FONT_BASE violates the constraint when the program contains PRINTCH" (R6,
  U15); a size outside its type is refused too. Safe (log entry 7). -/
  | configurationNotAllowed
  /-- Raised by PRINTCH where the default font's table fits FONT but is not one band high, which R6 rules out. No run
  from hardware reset meets it, since `step` refuses such a configuration before the run. Safe (log entry 7). -/
  | defaultFontNotSingleBand
deriving DecidableEq, Repr

/-- The machine right after hardware reset (R230, R33). No byte of the PixelBuffer is written, so every one is
arbitrary. The configuration is empty and the transport ready: both are the environment's, not the reset's
(log entries 3 and 4). -/
def State.reset : State where
  pc := 0
  fb := { mem := [], draw := 0 }
  mode := 0
  status := 0
  curX := 0
  curRow := 0
  res := 0
  fcause := 0
  fpcLo := 0
  fpcHi := 0
  wire := []
  waiting := none
  cfg := { font := [], defaultFontBase := 0, cmd := [] }
  transport := .ready

end Sys2Proof.Machine
end

