-- ==== Sys2Proof/Machine/Flags.lean ====
section
/-! DEFINITION. Bits of a byte, the two mode fields of SR0 and the two status fields of SR1
(spec/10_state.md R23 to R26). No command computes a carry, zero, sign or overflow flag (R23). -/

namespace Sys2Proof.Machine

/-- `v` with bit `k` set to `on` and every other bit kept: `v | (1 << k)` or `v & ~(1 << k)` (R110). -/
def withBit (v : Byte) (k : Nat) (on : Bool) : Byte :=
  if on then v ||| (1#8 <<< k) else v &&& ~~~(1#8 <<< k)

/-- `MODE.DI`, displayInverted: bit 0 of SR0 (R25). -/
def State.di (s : State) : Bool := s.mode.getLsbD 0

/-- `MODE.TI`, textInverted: bit 1 of SR0 (R25). -/
def State.ti (s : State) : Bool := s.mode.getLsbD 1

/-- `STATUS.FAILED`: bit 0 of SR1 (R23). -/
def State.failed (s : State) : Bool := s.status.getLsbD 0

/-- `STATUS.FAULT`, the fault latch: bit 1 of SR1 (R26). -/
def State.faulted (s : State) : Bool := s.status.getLsbD 1

/-- `SR.MODE.DI <- on`. -/
def State.setDi (on : Bool) (s : State) : State := { s with mode := withBit s.mode 0 on }

/-- `SR.MODE.TI <- on`. -/
def State.setTi (on : Bool) (s : State) : State := { s with mode := withBit s.mode 1 on }

/-- `SR.STATUS.FAILED <- on`. -/
def State.setFailed (on : Bool) (s : State) : State := { s with status := withBit s.status 0 on }

/-- `SR.STATUS.FAULT <- on`. -/
def State.setFault (on : Bool) (s : State) : State := { s with status := withBit s.status 1 on }

end Sys2Proof.Machine
end

