-- ==== Sys2Proof/Machine/Operands.lean ====
section
/-! DEFINITION. Operand forms and the helper functions of spec/00_scope.md R10: Boolean bytes, clamps, bands, bit
positions, byte addresses and the range tests of spec/60_exceptions.md R201. Arithmetic is over the naturals,
exact and without wrap-around (R8). -/

namespace Sys2Proof.Machine

/-- Bits 7:1 of a Boolean operand byte: `byte[7:1] != 0` raises OperandRange (R88). -/
def reservedBitSet (v : Byte) : Bool := v.extractLsb' 1 7 != 0

/-- The value of a Boolean operand: bit 0 of its byte (R84). -/
def boolOperand (v : Byte) : Bool := v.getLsbD 0

/-- `ClampX(x) = min(x, 83)` (R10). -/
def clampX (x : Nat) : Nat := min x 83

/-- `ClampY(y) = min(y, 47)` (R10). -/
def clampY (y : Nat) : Nat := min y 47

/-- `Band(y) = y div 8` (R10). -/
def band (y : Nat) : Nat := y / 8

/-- `Bit(y) = y mod 8` (R10). -/
def bitPos (y : Nat) : Nat := y % 8

/-- `BAddr(row, x) = row * 84 + x` (R10). -/
def bAddr (row x : Nat) : Nat := row * 84 + x

/-- `Addr(x, y) = x + Band(y) * 84` (R10). -/
def addr (x y : Nat) : Nat := x + band y * 84

/-- `InBounds(x, y) = (x <= 83) and (y <= 47)` (R10). -/
def inBounds (x y : Nat) : Bool := x ≤ 83 && y ≤ 47

/-- The range test of GETBYTE, SETBYTE and GOTO: `row > 5 or x > 83` (R114, R115, R186). -/
def stripOutOfRange (row x : Byte) : Bool := row.toNat > 5 || x.toNat > 83

/-- The range test of REFRESHR (R188). -/
def regionOutOfRange (xmin ymin xmax ymax : Byte) : Bool :=
  xmin.toNat > xmax.toNat || xmax.toNat > 83 || ymin.toNat > ymax.toNat || ymax.toNat > 47

end Sys2Proof.Machine
end

