-- ==== Sys2Proof/Machine/Memory.lean ====
section
/-! DEFINITION. The FB space (spec/20_memory.md R51, R52, R57): one byte read and written, the pixel view of R52, the
pixel primitive of spec/40_pixelbuffer.md R110 and the fill of R111. -/

namespace Sys2Proof.Machine

/-- The canonical form: addresses strictly rising, and every listed address is one of the 504 that exist (R51). An
unlisted address has not been written, so no listed byte can equal what it reads as. -/
abbrev Memory.wf (m : Memory) : Prop :=
  m.Pairwise (fun p q => p.1 < q.1) ∧ ∀ c ∈ m, c.1 < 504

/-- The byte written last at `a`, if any. -/
def Memory.find : Memory → Nat → Option Byte
  | [], _ => none
  | (b, w) :: cs, a => if a = b then some w else Memory.find cs a

/-- The memory with `v` at `a`, in the canonical form. -/
def Memory.insert : Memory → Nat → Byte → Memory
  | [], a, v => [(a, v)]
  | (b, w) :: cs, a, v =>
    if a < b then (a, v) :: (b, w) :: cs
    else if a = b then (a, v) :: cs
    else (b, w) :: Memory.insert cs a v

/-- `fb[a]`: the byte written last, or the arbitrary byte that hardware reset left (R51, R61 (c), R230). -/
def PixelBuffer.read (b : PixelBuffer) (a : Nat) : Byte :=
  (Memory.find b.mem a).getD (Config.powerOnByte b.draw a)

/-- `fb[a] <- v` (R51). -/
def PixelBuffer.write (b : PixelBuffer) (a : Nat) (v : Byte) : PixelBuffer :=
  { b with mem := Memory.insert b.mem a v }

/-- Cells `0 .. n-1`, each zero, in address order. Irreducible, so that no proof unfolds 504 cells by accident. -/
@[irreducible] def Memory.zeros (n : Nat) : Memory := (List.range n).map fun a => (a, 0#8)

/-- `for a in 0 ..= 503: fb[a] <- 0` (R111, R183): afterwards each of the 504 cells is listed once. -/
def PixelBuffer.clear (b : PixelBuffer) : PixelBuffer := { b with mem := Memory.zeros 504 }

/-- The 504 bytes in address order. -/
def PixelBuffer.bytes (b : PixelBuffer) : List Byte := (List.range 504).map b.read

/-- Pixel `(x, y)`: bit `y mod 8` of byte `x + (y div 8) * 84` (R52). -/
def PixelBuffer.pixel (b : PixelBuffer) (x y : Nat) : Bool := (b.read (addr x y)).getLsbD (bitPos y)

/-- One bit of one byte, a read-modify-write of that byte (R57). -/
def PixelBuffer.writeBit (b : PixelBuffer) (a k : Nat) (on : Bool) : PixelBuffer :=
  b.write a (withBit (b.read a) k on)

/-- `SetPixel(x, y, on)`: the pixel primitive, each coordinate clamped on its own (R110). -/
def PixelBuffer.setPixel (b : PixelBuffer) (x y : Nat) (on : Bool) : PixelBuffer :=
  b.writeBit (addr (clampX x) (clampY y)) (bitPos (clampY y)) on

/-- Every point of a list turned on with `SetPixel`, in order. -/
def PixelBuffer.plot (points : List (Nat × Nat)) (b : PixelBuffer) : PixelBuffer :=
  points.foldl (fun b p => b.setPixel p.1 p.2 true) b

end Sys2Proof.Machine
end

