-- ==== Sys2Proof/Machine/Ops.lean ====
section
/-! DEFINITION. The operations the commands share: advancing `pc`, raising a fault, sending wire events, loading the
text cursor, fetching; and what the host does from outside: hardware reset and reading a status register. -/

namespace Sys2Proof.Machine

/-- What a command's meaning answers. -/
abbrev Result := Host.Outcome State Fault Refusal

/-- `pc <- pc + n` (R21, R80). -/
def State.advance (n : Nat) (s : State) : State := { s with pc := s.pc + BitVec.ofNat 16 n }

/-- The PixelBuffer replaced by `b`. -/
def State.setFb (b : PixelBuffer) (s : State) : State := { s with fb := b }

/-- `SR.RES <- v` (R29). -/
def State.setRes (v : Byte) (s : State) : State := { s with res := v }

/-- The cause codes of R201. -/
def FaultCause.code : FaultCause → Byte
  | .illegalOpcode => 1
  | .truncatedCommand => 2
  | .operandRange => 3
  | .fontBounds => 4

/-- The faulted state that raising `k` leaves: FAULT set, the cause code and the faulting command's `pc` recorded,
nothing else changed (R202). The core has no handler and no vector (R207), and no command returns from it (R208). -/
def State.recordFault (k : FaultCause) (s : State) : State :=
  { s.setFault true with
    fcause := k.code
    fpcLo := s.pc.extractLsb' 0 8
    fpcHi := s.pc.extractLsb' 8 8 }

/-- `raise k` (R202): taking a fault, the one operation for all of them. -/
def State.raise (k : FaultCause) (s : State) : Result := .next (s.recordFault k)

/-- `SR.FPC = FPC_HI * 256 + FPC_LO` (R24). -/
def State.fpc (s : State) : Word := s.fpcHi ++ s.fpcLo

/-- The transport will accept `n` more events (R59). -/
def transportAccepts : Transport → Nat → Bool
  | .ready, _ => true
  | .accepts k, n => n ≤ k

/-- The transport after it has accepted `n` events. -/
def transportAfter : Transport → Nat → Transport
  | .ready, _ => .ready
  | .accepts k, n => .accepts (k - n)

/-- The state in which the transport has accepted `events`, one after another (R58). -/
def State.sent (events : List WireEvent) (s : State) : State :=
  { s with wire := s.wire ++ events, transport := transportAfter s.transport events.length }

/-- Of the events offered, those the transport accepts: a prefix (R59). -/
def acceptedEvents : Transport → List WireEvent → List WireEvent
  | .ready, events => events
  | .accepts k, events => events.take k

/-- Of the events offered, the first one that the transport never accepts. -/
def blockedEvent : Transport → List WireEvent → Option WireEvent
  | .ready, _ => none
  | .accepts k, events => events[k]?

/-- The stuck state: the accepted events stand in the trace, the next one is on offer for ever, and the command has not
completed, so `pc` is still its address and what follows in its rule has not happened (R59, R204; log entry 5). -/
def State.stall (events : List WireEvent) (s : State) : State :=
  { s with
    wire := s.wire ++ acceptedEvents s.transport events
    waiting := blockedEvent s.transport events
    transport := .accepts 0 }

/-- A stretch of a command's rule that sends `events`, and `done`, the rest of the rule. Each event is sent when the
transport accepts it, in order; one that is never accepted leaves the core stuck there (R58, R59). The law
`State.transmit_cons` says it event by event. -/
def State.transmit (events : List WireEvent) (done : State → Result) (s : State) : Result :=
  if transportAccepts s.transport events.length then done (s.sent events) else .next (s.stall events)

/-- `GoTo(x, row)`: X address, then band address (R182). -/
def goToEvents (x row : Byte) : List WireEvent := [.command (0x80 ||| x), .command (0x40 ||| row)]

/-- The command at `pc`, read from the command stream in ascending address order (R54, R80). -/
def State.fetch (s : State) : Except DecodeError Instr := decode (s.cfg.cmd.drop s.pc.toNat)

/-- The fault that undecodable bytes raise (R80). -/
def decodeFault : DecodeError → FaultCause
  | .illegalOpcode => .illegalOpcode
  | .truncated => .truncatedCommand

/-- The status registers by number, as the host reads them; bits 7:2 of SR0 and SR1 are hardwired 0 (R24). -/
def State.readSR (s : State) : Fin 8 → Byte
  | 0 => s.mode &&& 0x03
  | 1 => s.status &&& 0x03
  | 2 => s.curX
  | 3 => s.curRow
  | 4 => s.res
  | 5 => s.fcause
  | 6 => s.fpcLo
  | 7 => s.fpcHi

/-- Hardware reset, an event applied from outside (R230), the only way out of the faulted state (R208). The
configuration and the transport are the environment's and stay; the PixelBuffer is unspecified again, so its
bytes are a new draw (R208; log entry 13). -/
def State.hardwareReset (s : State) : State :=
  { State.reset with
    fb := { mem := [], draw := s.fb.draw + 1 }
    cfg := s.cfg
    transport := s.transport }

end Sys2Proof.Machine
end

