-- ==== Sys2Proof/Machine/FontBlitter.lean ====
section
/-! DEFINITION. The FontBlitter: font tables, the cursor state machine, and the commands PRINTCH, PRINTSTR, PRINTSTRB
(spec/42_fontblitter.md R150 to R162). -/

namespace Sys2Proof.Machine

/-- A parsed font header and where it stands (R150, R151). -/
structure FontTable where
  /-- The table's base address `B` in FONT. -/
  base : Nat
  /-- `glyphWidth`, 0 to 255. -/
  gw : Nat
  /-- `glyphHeight`, 0 to 255. -/
  gh : Nat
  /-- `asciiOffset`, the character code of the first glyph. -/
  off : Nat
  /-- `glyphCount`. -/
  cnt : Nat
deriving DecidableEq, Repr

/-- `rows = glyphRows = (gh + 7) div 8`: the bands a glyph covers (R150). -/
def FontTable.rows (f : FontTable) : Nat := (f.gh + 7) / 8

/-- `gsize = gw * rows`: the bytes of one glyph entry (R150). -/
def FontTable.gsize (f : FontTable) : Nat := f.gw * f.rows

/-- `FONT[a]` (R53). A read at or above `FONT_SIZE` never happens, because every text command checks the whole table
first (R151); so the default below is never the answer (log entry 9). -/
def fontByte (font : List Byte) (a : Nat) : Byte := font.getD a 0

/-- The header at `B`, read without a check (R150). -/
def fontHeader (font : List Byte) (B : Nat) : FontTable where
  base := B
  gw := (fontByte font B).toNat
  gh := (fontByte font (B + 1)).toNat
  off := (fontByte font (B + 2)).toNat
  cnt := (fontByte font (B + 3)).toNat

/-- `ParseFont(B)`: the header, or `none` where the header or the glyph entries it declares do not fit FONT and the
command raises FontBounds (R151, R152). -/
def parseFont (font : List Byte) (B : Nat) : Option FontTable :=
  if B + 4 > font.length then none
  else if B + 4 + (fontHeader font B).cnt * (fontHeader font B).gsize > font.length then none
  else some (fontHeader font B)

/-- `InFont(c)`: `0 <= c - off` and `c - off < cnt` (R153). -/
def FontTable.inFont (f : FontTable) (c : Byte) : Bool := f.off ≤ c.toNat && c.toNat < f.off + f.cnt

/-- The FONT address of `GlyphByte(i, r)`: `g + i * rows + r` with `g = B + 4 + (c - off) * gsize` (R153). -/
def FontTable.glyphAddr (f : FontTable) (c : Byte) (i r : Nat) : Nat :=
  f.base + 4 + (c.toNat - f.off) * f.gsize + i * f.rows + r

/-- `GlyphByte(i, r)` of an in-font character (R153). -/
def glyphByte (font : List Byte) (f : FontTable) (c : Byte) (i r : Nat) : Byte :=
  fontByte font (f.glyphAddr c i r)

/-- `Inv(v)`: text inversion (R154). -/
def textInv (ti : Bool) (v : Byte) : Byte := if ti then v ^^^ 0xFF else v

/-- The document's CursorPosition (R23, R27): `Active(x, row)` with `failed` false, `Failed` with it true. Exact
naturals; they are narrowed when they are stored into the status registers, and fit (R27). -/
structure Cursor where
  /-- CUR_X. -/
  x : Nat
  /-- CUR_ROW. -/
  row : Nat
  /-- FAILED. -/
  failed : Bool
deriving DecidableEq, Repr

/-- The glyph guard fails: `CUR_X + gw > 84 or CUR_ROW + rows >= 6` (R155). -/
def FontTable.guardFails (f : FontTable) (p : Cursor) : Bool := p.x + f.gw > 84 || p.row + f.rows ≥ 6

/-- The cursor advance: same row where `CUR_X + gw <= 84 - gw`, else the next text line (R157). -/
def FontTable.advance (f : FontTable) (p : Cursor) : Cursor :=
  if p.x + f.gw + f.gw ≤ 84 then { p with x := p.x + f.gw } else { p with x := 0, row := p.row + f.rows }

/-- The string loop of R158: skip a character outside the font, else guard, emit, advance. `emit` is what one glyph
does to the output `α` at the cursor; the loop stops at the first failing guard. -/
def textLoop {α : Type} (f : FontTable) (emit : Cursor → Byte → α → α) : List Byte → Cursor → α → Cursor × α
  | [], p, out => (p, out)
  | c :: cs, p, out =>
    if !f.inFont c then textLoop f emit cs p out
    else if f.guardFails p then ({ p with failed := true }, out)
    else textLoop f emit cs (f.advance p) (emit p c out)

/-- `EmitWire` (R156): for each band its address, the X address and the glyph's bytes; then home. -/
def glyphEvents (font : List Byte) (ti : Bool) (f : FontTable) (p : Cursor) (c : Byte) : List WireEvent :=
  ((List.range f.rows).flatMap fun r =>
    [.command (0x40 ||| BitVec.ofNat 8 (p.row + r)), .command (0x80 ||| BitVec.ofNat 8 p.x)] ++
    (List.range f.gw).map fun i => .data (textInv ti (glyphByte font f c i r))) ++
  goToEvents 0 0

/-- The (FB address, byte) stores of `EmitBuffer`, in its order (R159). -/
def glyphStores (font : List Byte) (ti : Bool) (f : FontTable) (p : Cursor) (c : Byte) : List (Nat × Byte) :=
  (List.range f.rows).flatMap fun r =>
    (List.range f.gw).map fun i => (bAddr (p.row + r) (p.x + i), textInv ti (glyphByte font f c i r))

/-- Whole bytes stored one after another (R115, R159). -/
def PixelBuffer.store (stores : List (Nat × Byte)) (b : PixelBuffer) : PixelBuffer :=
  stores.foldl (fun b p => b.write p.1 p.2) b

/-- The position in which a text command leaves CUR_X, CUR_ROW and FAILED (R27). -/
def State.loadCursor (p : Cursor) (s : State) : State :=
  { s.setFailed p.failed with curX := BitVec.ofNat 8 p.x, curRow := BitVec.ofNat 8 p.row }

/-- The position a text command starts from: its operands, `failed = false` (R158). -/
def startCursor (x row : Byte) : Cursor := { x := x.toNat, row := row.toNat, failed := false }

/-- PRINTCH c (R160): the default font's glyph bytes as data events, no address command, no guard, no advance. A
default font that fits FONT but is not one band high violates the configuration constraint of R6, and the spec
asks the model to refuse it (log entry 7). -/
def execPrintch (c : Byte) (s : State) : Result :=
  match parseFont s.cfg.font s.cfg.defaultFontBase.toNat with
  | none => s.raise .fontBounds
  | some f =>
    if f.rows ≠ 1 then .refused .defaultFontNotSingleBand
    else if f.inFont c then
      s.transmit ((List.range f.gw).map fun i => .data (textInv s.ti (glyphByte s.cfg.font f c i 0)))
        fun s => .next (s.advance 2)
    else .next (s.advance 2)

/-- The emitted glyphs of a string sent one after another: each with the position it is emitted at in the cursor
registers (R155 to R157), and then `done`, the rest of the command. -/
def State.sendGlyphs : List (Cursor × List WireEvent) → (State → Result) → State → Result
  | [], done, s => done s
  | g :: gs, done, s => (s.loadCursor g.1).transmit g.2 (State.sendGlyphs gs done)

/-- The end of a string command: the final position into the cursor registers, `pc` past the `n` bytes (R158). -/
abbrev finishString (q : Cursor) (n : Nat) (s : State) : Result := .next ((s.loadCursor q).advance n)

/-- PRINTSTR x, row, fbase, str (R158): the cursor machine with the glyphs sent to the wire. -/
def execPrintstr (x row : Byte) (fbase : Word) (str : List Byte) (s : State) : Result :=
  match parseFont s.cfg.font fbase.toNat with
  | none => s.raise .fontBounds
  | some f =>
    let run := textLoop f (fun p c out => out ++ [(p, glyphEvents s.cfg.font s.ti f p c)]) str (startCursor x row) []
    s.sendGlyphs run.2 (finishString run.1 (6 + str.length))

/-- PRINTSTRB x, row, fbase, str (R159): the cursor machine with the glyphs stored into the PixelBuffer. -/
def execPrintstrb (x row : Byte) (fbase : Word) (str : List Byte) (s : State) : Result :=
  match parseFont s.cfg.font fbase.toNat with
  | none => s.raise .fontBounds
  | some f =>
    let run := textLoop f (fun p c b => b.store (glyphStores s.cfg.font s.ti f p c)) str (startCursor x row) s.fb
    finishString run.1 (6 + str.length) (s.setFb run.2)

end Sys2Proof.Machine
end

