-- ==== Sys2Proof/Machine/Configuration.lean ====
section
/-! DEFINITION. What spec/00_scope.md R6 asks of a configuration: the program it holds, and the default font that a
program with PRINTCH needs. A configuration that violates it is refused before the run (R6, U15). -/

namespace Sys2Proof

open Sys2Proof.Machine

/-- The commands a stream holds, one after another from its first byte up to its end or to bytes that are no command.
There is no control transfer (R90), so no run goes beyond them. The fuel is at least the number of commands. -/
def programOf : Nat → List Byte → List Instr
  | 0, _ => []
  | fuel + 1, bytes =>
    match decode bytes with
    | .ok i => i :: programOf fuel (bytes.drop i.size)
    | .error _ => []

/-- The program: the commands of CMD from `CMD[0]` on (R6, R12). -/
def RunConfig.program (c : RunConfig) : List Instr := programOf c.cmd.length c.cmd

/-- The command is PRINTCH. -/
def Instr.isPrintch (i : Instr) : Bool := i.opcode = 0x30

/-- The constraint of R6 on `DEFAULT_FONT_BASE`: the table there passes the font check (R152) and is one band high. -/
def RunConfig.defaultFontOk (c : RunConfig) : Bool :=
  match parseFont c.font c.defaultFontBase.toNat with
  | some f => f.rows = 1
  | none => false

/-- The configurations R6 allows: both sizes within their types, and the default font's constraint met where the program
contains PRINTCH. -/
def RunConfig.wf (c : RunConfig) : Bool :=
  c.sizesOk && (!c.program.any Instr.isPrintch || c.defaultFontOk)

/-- The configuration with a default font that meets R6: the smallest table there is, one column by eight rows and no
glyph, at base 0 (log entry 3). -/
def RunConfig.withSmallestDefaultFont (c : RunConfig) : RunConfig :=
  { c with font := [0x01, 0x08, 0x00, 0x00], defaultFontBase := 0 }

end Sys2Proof
end

