-- ==== Sys2Proof/Machine/PixelBufferCommands.lean ====
section
/-! DEFINITION. The PixelBuffer commands: CLEAR, SETPIX, GETPIX, GETBYTE, SETBYTE
(spec/40_pixelbuffer.md R111 to R115). None sends an event. -/

namespace Sys2Proof.Machine

/-- CLEAR (R111). -/
def execClear (s : State) : Result := .next ((s.setFb s.fb.clear).advance 1)

/-- SETPIX x, y, on (R112): a reserved bit of `on` faults, a coordinate never does. -/
def execSetpix (x y on : Byte) (s : State) : Result :=
  if reservedBitSet on then s.raise .operandRange
  else .next ((s.setFb (s.fb.setPixel x.toNat y.toNat (boolOperand on))).advance 4)

/-- GETPIX x, y (R113): the pixel that SETPIX with the same operands writes. -/
def execGetpix (x y : Byte) (s : State) : Result :=
  let on := s.fb.pixel (clampX x.toNat) (clampY y.toNat)
  .next ((s.setRes (BitVec.ofNat 8 on.toNat)).advance 3)

/-- GETBYTE row, x (R114). -/
def execGetbyte (row x : Byte) (s : State) : Result :=
  if stripOutOfRange row x then s.raise .operandRange
  else .next ((s.setRes (s.fb.read (bAddr row.toNat x.toNat))).advance 3)

/-- SETBYTE row, x, value (R115). -/
def execSetbyte (row x value : Byte) (s : State) : Result :=
  if stripOutOfRange row x then s.raise .operandRange
  else .next ((s.setFb (s.fb.write (bAddr row.toNat x.toNat) value)).advance 4)

end Sys2Proof.Machine
end

