-- ==== Sys2Proof/Machine/Rasterizer.lean ====
section
/-! DEFINITION. The Rasterizer commands: HLINE, VLINE, LINE, RECT (spec/41_rasterizer.md R130 to R136). They only turn
pixels on, send nothing, write no status register and raise nothing. -/

namespace Sys2Proof.Machine

/-- `HLine(x, y, length)` (R130): nothing if the start is out of bounds; else columns `x` to
`min(x + length - 1, 83)` of pixel row `y`. -/
def hLine (x y length : Nat) (b : PixelBuffer) : PixelBuffer :=
  if inBounds x y then
    (List.range' x (min (x + length) 84 - x)).foldl (fun b xi => b.writeBit (addr xi y) (bitPos y) true) b
  else b

/-- The `length + 1` points of `VLine(x, y, length)`, from `(x, y)` downward, not yet clamped (R132). -/
def vLinePoints (x y length : Nat) : List (Nat × Nat) := (List.range (length + 1)).map fun i => (x, y + i)

/-- `VLine(x, y, length)` (R132). -/
def vLine (x y length : Nat) (b : PixelBuffer) : PixelBuffer := b.plot (vLinePoints x y length)

/-- Step `k` of the line engine where x is the major axis:
`(ax + k * sgn(dx), ay + ((2*k*dy + n) div (2*n)))` with `n = abs(dx)` (R134). -/
def xMajorPoint (ax ay dx dy : Int) (k : Nat) : Int × Int :=
  (ax + k * dx.sign, ay + (2 * k * dy + dx.natAbs) / (2 * dx.natAbs))

/-- Step `k` of the line engine where y is the major axis: `(ax + ((2*k*dx + dy) div (2*dy)), ay + k)` (R134). -/
def yMajorPoint (ax ay dx dy : Int) (k : Nat) : Int × Int :=
  (ax + (2 * k * dx + dy) / (2 * dy), ay + k)

/-- The points the line engine passes to `SetPixel`, in order: `n + 1` of them along the major axis, ties going to
the y-major branch (R134). No coordinate of them is negative, so `toNat` keeps each value. -/
def lineEnginePoints (ax ay bx by' : Nat) : List (Nat × Nat) :=
  let dx : Int := (bx : Int) - ax
  let dy : Int := (by' : Int) - ay
  if dx.natAbs > dy.natAbs then
    (List.range (dx.natAbs + 1)).map fun k =>
      let p := xMajorPoint ax ay dx dy k
      (p.1.toNat, p.2.toNat)
  else
    (List.range (dy.natAbs + 1)).map fun k =>
      let p := yMajorPoint ax ay dx dy k
      (p.1.toNat, p.2.toNat)

/-- `LineEngine(ax, ay, bx, by)` (R134). -/
def lineEngine (ax ay bx by' : Nat) (b : PixelBuffer) : PixelBuffer := b.plot (lineEnginePoints ax ay bx by')

/-- The two swaps of R133, in order, each exchanging whole endpoints: the second looks at what the first left. -/
def canonicalEndpoints (x1 y1 x2 y2 : Nat) : (Nat × Nat) × (Nat × Nat) :=
  let first : (Nat × Nat) × (Nat × Nat) := if x2 < x1 then ((x2, y2), (x1, y1)) else ((x1, y1), (x2, y2))
  if first.2.2 < first.1.2 then (first.2, first.1) else first

/-- `Line(x1, y1, x2, y2)` (R133): horizontal first, then vertical, then the line engine. -/
def drawLine (x1 y1 x2 y2 : Nat) (b : PixelBuffer) : PixelBuffer :=
  let e := canonicalEndpoints x1 y1 x2 y2
  if e.1.2 = e.2.2 then hLine e.1.1 e.1.2 (e.2.1 - e.1.1 + 1) b
  else if e.1.1 = e.2.1 then vLine e.1.1 e.1.2 (e.2.2 - e.1.2) b
  else lineEngine e.1.1 e.1.2 e.2.1 e.2.2 b

/-- The four sides of the outline, in the order of R136. -/
def drawRect (x1 y1 x2 y2 : Nat) (b : PixelBuffer) : PixelBuffer :=
  drawLine x2 y1 x2 y2 (drawLine x1 y1 x1 y2 (drawLine x1 y2 x2 y2 (drawLine x1 y1 x2 y1 b)))

/-- HLINE x, y, length (R131). -/
def execHline (x y length : Byte) (s : State) : Result :=
  .next ((s.setFb (hLine x.toNat y.toNat length.toNat s.fb)).advance 4)

/-- VLINE x, y, length (R132). -/
def execVline (x y length : Byte) (s : State) : Result :=
  .next ((s.setFb (vLine x.toNat y.toNat length.toNat s.fb)).advance 4)

/-- LINE x1, y1, x2, y2 (R133). -/
def execLine (x1 y1 x2 y2 : Byte) (s : State) : Result :=
  .next ((s.setFb (drawLine x1.toNat y1.toNat x2.toNat y2.toNat s.fb)).advance 5)

/-- RECT x1, y1, x2, y2 (R136). -/
def execRect (x1 y1 x2 y2 : Byte) (s : State) : Result :=
  .next ((s.setFb (drawRect x1.toNat y1.toNat x2.toNat y2.toNat s.fb)).advance 5)

end Sys2Proof.Machine
end

