-- ==== Sys2Proof/Machine/ScreenController.lean ====
section
/-! DEFINITION. The ScreenController commands: INIT, SETDINV, SETTINV, GOTO, REFRESH, REFRESHR
(spec/43_screencontroller.md R181 to R188). -/

namespace Sys2Proof.Machine

/-- The seven events of INIT (R183), the bytes of R181 as the spec writes them. -/
def initEvents : List WireEvent :=
  [.rst, .command 0x21, .command 0xCC, .command 0x04, .command 0x14, .command 0x20, .command 0x0C]

/-- Bytes sent as data, in order (R187, R188). -/
def dataEvents (bytes : List Byte) : List WireEvent := bytes.map .data

/-- The bands REFRESHR sends: 0 to 5, stopping once `row * 8 > ymax` and passing over each with
`row * 8 + 7 < ymin` (R188). -/
def touchedBands (ymin ymax : Nat) : List Nat :=
  ((List.range 6).takeWhile fun row => row * 8 ≤ ymax).filter fun row => ymin ≤ row * 8 + 7

/-- Bytes `xmin ..= xmax` of one band (R188). -/
def bandBytes (b : PixelBuffer) (xmin xmax row : Nat) : List Byte :=
  (List.range' xmin (xmax + 1 - xmin)).map fun x => b.read (bAddr row x)

/-- The events of REFRESHR: each touched band addressed, then its bytes (R188). -/
def regionEvents (b : PixelBuffer) (xmin ymin xmax ymax : Byte) : List WireEvent :=
  (touchedBands ymin.toNat ymax.toNat).flatMap fun row =>
    goToEvents xmin (BitVec.ofNat 8 row) ++ dataEvents (bandBytes b xmin.toNat xmax.toNat row)

/-- INIT (R183): the display controller reset and configured, then the PixelBuffer, TI and DI cleared. -/
def execInit (s : State) : Result :=
  s.transmit initEvents fun s => .next ((((s.setFb s.fb.clear).setTi false).setDi false).advance 1)

/-- SETDINV flag (R184): DI, then the polarity command on every call. -/
def execSetdinv (flag : Byte) (s : State) : Result :=
  if reservedBitSet flag then s.raise .operandRange
  else (s.setDi (boolOperand flag)).transmit [.command (if boolOperand flag then 0x0D else 0x0C)]
    fun s => .next (s.advance 2)

/-- SETTINV flag (R185). -/
def execSettinv (flag : Byte) (s : State) : Result :=
  if reservedBitSet flag then s.raise .operandRange
  else .next ((s.setTi (boolOperand flag)).advance 2)

/-- GOTO x, row (R186). -/
def execGoto (x row : Byte) (s : State) : Result :=
  if stripOutOfRange row x then s.raise .operandRange
  else s.transmit (goToEvents x row) fun s => .next (s.advance 3)

/-- REFRESH (R187): home, then the 504 bytes in address order, raw. -/
def execRefresh (s : State) : Result :=
  s.transmit (goToEvents 0 0 ++ dataEvents s.fb.bytes) fun s => .next (s.advance 1)

/-- REFRESHR xmin, ymin, xmax, ymax (R188). -/
def execRefreshr (xmin ymin xmax ymax : Byte) (s : State) : Result :=
  if regionOutOfRange xmin ymin xmax ymax then s.raise .operandRange
  else s.transmit (regionEvents s.fb xmin ymin xmax ymax) fun s => .next (s.advance 5)

end Sys2Proof.Machine
end

