-- ==== Sys2Proof/Machine/Dispatch.lean ====
section
/-! DEFINITION. The meaning of each command, one arm per row of spec/opcode_table.json. -/

namespace Sys2Proof.Machine

def exec (i : Instr) (s : State) : Host.Outcome State Fault Refusal :=
  match i with
  | .clear => Sys2Proof.Machine.execClear s
  | .setpix x y on => Sys2Proof.Machine.execSetpix x y on s
  | .getpix x y => Sys2Proof.Machine.execGetpix x y s
  | .getbyte row x => Sys2Proof.Machine.execGetbyte row x s
  | .setbyte row x value => Sys2Proof.Machine.execSetbyte row x value s
  | .hline x y length => Sys2Proof.Machine.execHline x y length s
  | .vline x y length => Sys2Proof.Machine.execVline x y length s
  | .line x1 y1 x2 y2 => Sys2Proof.Machine.execLine x1 y1 x2 y2 s
  | .rect x1 y1 x2 y2 => Sys2Proof.Machine.execRect x1 y1 x2 y2 s
  | .printch c => Sys2Proof.Machine.execPrintch c s
  | .printstr x row fbase str => Sys2Proof.Machine.execPrintstr x row fbase str s
  | .printstrb x row fbase str => Sys2Proof.Machine.execPrintstrb x row fbase str s
  | .init => Sys2Proof.Machine.execInit s
  | .setdinv flag => Sys2Proof.Machine.execSetdinv flag s
  | .settinv flag => Sys2Proof.Machine.execSettinv flag s
  | .goto x row => Sys2Proof.Machine.execGoto x row s
  | .refresh => Sys2Proof.Machine.execRefresh s
  | .refreshr xmin ymin xmax ymax => Sys2Proof.Machine.execRefreshr xmin ymin xmax ymax s

end Sys2Proof.Machine
end

