-- ==== Sys2Proof/Machine/Step.lean ====
section
/-! DEFINITION. The command step (spec/30_encoding.md R80), and an instruction word placed where it fetches. -/

namespace Sys2Proof.Machine

/-- The command step. A configuration that violates R6 is refused in every state, so before its run begins. The step
is enabled when `FAULT = 0` and `pc < CMD_LEN`, with no command waiting at the transport; elsewhere it answers by name
that nothing runs (R80, R203, R204, R12). Bytes that are no command raise their fault; else the command's rule runs. -/
def step (s : State) : Host.Outcome State Fault Refusal :=
  if !s.cfg.wf then .refused .configurationNotAllowed
  else if s.faulted then .fault .halted
  else if s.waiting.isSome then .fault .transportStalled
  else if s.cfg.cmd.length ≤ s.pc.toNat then .fault .streamExhausted
  else
    match s.fetch with
    | .error e => s.raise (decodeFault e)
    | .ok i => exec i s

/-- `s` with the instruction word `w` in the command stream at `pc`, its bits from `nbits` up zero, as long as the
longest command; the stream before and after those bytes stays (a stream shorter than `pc` is filled with zero
bytes). A latched fault and a stuck command are cleared, since the step fetches nothing past them; and where the stream
then needs a default font that the configuration does not have (R6), the smallest one is loaded with it (log entry 3). -/
def State.withFetchWord (s : State) (nbits w : Nat) : State :=
  let p := s.pc.toNat
  let before := s.cfg.cmd.take p ++ List.replicate (p - s.cfg.cmd.length) 0#8
  let loaded := { s.cfg with cmd := before ++ tableWordBytes nbits w ++ s.cfg.cmd.drop (p + longestCommand) }
  { s.setFault false with
    waiting := none
    cfg := if loaded.wf then loaded else loaded.withSmallestDefaultFont }

end Sys2Proof.Machine
end

