-- ==== Sys2Proof/Machine/Assembler.lean ====
section
/-! DEFINITION. The assembly notation of spec/30_encoding.md R91 and R92: one line of text to one command. It is a way
to write programs down, no part of the machine. Characters stand for their ASCII codes (G4; log entry 17). -/

namespace Sys2Proof.Machine

/-- A mnemonic of R82, or a pseudo-instruction of R92. -/
inductive Mnemonic where
  | clear | setpix | getpix | getbyte | setbyte | hline | vline | line | rect | printch | printstr | printstrb
  | init | setdinv | settinv | goto | refresh | refreshr | home | pset | pclr
deriving DecidableEq, Repr

/-- The mnemonic's spelling, in capitals (R82, R91, R92). -/
def mnemonicTable : List (List Char × Mnemonic) :=
  [(['C','L','E','A','R'], .clear), (['S','E','T','P','I','X'], .setpix), (['G','E','T','P','I','X'], .getpix),
   (['G','E','T','B','Y','T','E'], .getbyte), (['S','E','T','B','Y','T','E'], .setbyte),
   (['H','L','I','N','E'], .hline), (['V','L','I','N','E'], .vline), (['L','I','N','E'], .line),
   (['R','E','C','T'], .rect), (['P','R','I','N','T','C','H'], .printch),
   (['P','R','I','N','T','S','T','R'], .printstr), (['P','R','I','N','T','S','T','R','B'], .printstrb),
   (['I','N','I','T'], .init), (['S','E','T','D','I','N','V'], .setdinv), (['S','E','T','T','I','N','V'], .settinv),
   (['G','O','T','O'], .goto), (['R','E','F','R','E','S','H'], .refresh),
   (['R','E','F','R','E','S','H','R'], .refreshr), (['H','O','M','E'], .home), (['P','S','E','T'], .pset),
   (['P','C','L','R'], .pclr)]

/-- An operand as written: a number, or the string in double quotes (R91). -/
inductive AsmOperand where
  | number (n : Nat)
  | string (bytes : List Byte)
deriving DecidableEq, Repr

/-- An operand byte; the assembler rejects one outside 0 to 255 (R91). -/
def asmByte : AsmOperand → Option Byte
  | .number n => if n ≤ 255 then some (BitVec.ofNat 8 n) else none
  | .string _ => none

/-- A Boolean operand; the assembler rejects any other than 0 or 1 (R91). -/
def asmBool : AsmOperand → Option Byte
  | .number n => if n ≤ 1 then some (BitVec.ofNat 8 n) else none
  | .string _ => none

/-- `fbase`; the assembler rejects one outside 0 to 65535 (R91). -/
def asmWord : AsmOperand → Option Word
  | .number n => if n ≤ 65535 then some (BitVec.ofNat 16 n) else none
  | .string _ => none

/-- The string; the assembler rejects one longer than 255 bytes (R91). -/
def asmString : AsmOperand → Option (List Byte)
  | .string bytes => if bytes.length ≤ 255 then some bytes else none
  | .number _ => none

/-- One byte operand. -/
def asm1 (mk : Byte → Instr) : List AsmOperand → Option Instr
  | [a] => (asmByte a).map mk
  | _ => none

/-- Two byte operands. -/
def asm2 (mk : Byte → Byte → Instr) : List AsmOperand → Option Instr
  | [a, b] => (asmByte a).bind fun a => (asmByte b).map (mk a)
  | _ => none

/-- Three byte operands. -/
def asm3 (mk : Byte → Byte → Byte → Instr) : List AsmOperand → Option Instr
  | [a, b, c] => (asmByte a).bind fun a => (asmByte b).bind fun b => (asmByte c).map (mk a b)
  | _ => none

/-- Four byte operands. -/
def asm4 (mk : Byte → Byte → Byte → Byte → Instr) : List AsmOperand → Option Instr
  | [a, b, c, d] =>
    (asmByte a).bind fun a => (asmByte b).bind fun b => (asmByte c).bind fun c => (asmByte d).map (mk a b c)
  | _ => none

/-- `x, row, fbase, "string"`; the assembler computes `n` (R91). -/
def asmText (mk : Byte → Byte → Word → List Byte → Instr) : List AsmOperand → Option Instr
  | [a, b, p, s] =>
    (asmByte a).bind fun a => (asmByte b).bind fun b => (asmWord p).bind fun p => (asmString s).map (mk a b p)
  | _ => none

/-- A command from its mnemonic and operands, `none` where the assembler rejects the line (R91, R92). -/
def assemble : Mnemonic → List AsmOperand → Option Instr
  | .clear, ops => if ops = [] then some .clear else none
  | .init, ops => if ops = [] then some .init else none
  | .refresh, ops => if ops = [] then some .refresh else none
  | .home, ops => if ops = [] then some .home else none
  | .setpix, [a, b, on] => (asmBool on).bind fun on => asm2 (fun x y => .setpix x y on) [a, b]
  | .setpix, _ => none
  | .setdinv, [flag] => (asmBool flag).map .setdinv
  | .setdinv, _ => none
  | .settinv, [flag] => (asmBool flag).map .settinv
  | .settinv, _ => none
  | .getpix, ops => asm2 .getpix ops
  | .getbyte, ops => asm2 .getbyte ops
  | .setbyte, ops => asm3 .setbyte ops
  | .hline, ops => asm3 .hline ops
  | .vline, ops => asm3 .vline ops
  | .line, ops => asm4 .line ops
  | .rect, ops => asm4 .rect ops
  | .printch, ops => asm1 .printch ops
  | .printstr, ops => asmText .printstr ops
  | .printstrb, ops => asmText .printstrb ops
  | .goto, ops => asm2 .goto ops
  | .refreshr, ops => asm4 .refreshr ops
  | .pset, ops => asm2 Instr.pset ops
  | .pclr, ops => asm2 Instr.pclr ops

/-- A token of a line. -/
inductive AsmToken where
  | word (w : List Char)
  | operand (o : AsmOperand)
  | comma
deriving DecidableEq, Repr

/-- The value of a digit below the base; a hexadecimal letter in either case (DESIGN CHOICE, log entry 17). -/
def digitValue (base : Nat) (c : Char) : Option Nat :=
  let n := c.toNat
  let v := if 48 ≤ n ∧ n ≤ 57 then some (n - 48)
    else if 65 ≤ n ∧ n ≤ 70 then some (n - 55)
    else if 97 ≤ n ∧ n ≤ 102 then some (n - 87)
    else none
  v.bind fun d => if d < base then some d else none

/-- The digits at the head of the text, folded into `acc`, and the rest. -/
def takeDigits (base : Nat) : List Char → Nat → Nat × List Char
  | [], acc => (acc, [])
  | c :: cs, acc =>
    match digitValue base c with
    | some d => takeDigits base cs (base * acc + d)
    | none => (acc, c :: cs)

/-- The capitals at the head of the text, and the rest. -/
def takeCapitals : List Char → List Char × List Char
  | [] => ([], [])
  | c :: cs =>
    if 65 ≤ c.toNat ∧ c.toNat ≤ 90 then ((c :: (takeCapitals cs).1), (takeCapitals cs).2) else ([], c :: cs)

/-- The string after its opening quote (code 34): ASCII characters, and a backslash (92) with `x` (120) and two hexadecimal
digits for an arbitrary byte (R91). R91 names no other escape: any other use of a backslash is rejected, and a double
quote inside the string is written as its byte. DESIGN CHOICE (log entry 17). -/
def takeString : List Char → Option (List Byte × List Char)
  | [] => none
  | c :: cs =>
    if c.toNat = 34 then some ([], cs)
    else if c.toNat = 92 then
      match cs with
      | x :: h :: l :: rest =>
        if x.toNat = 120 then
          (digitValue 16 h).bind fun h => (digitValue 16 l).bind fun l =>
            (takeString rest).map fun r => (BitVec.ofNat 8 (16 * h + l) :: r.1, r.2)
        else none
      | _ => none
    else if c.toNat < 128 then (takeString cs).map fun r => (BitVec.ofNat 8 c.toNat :: r.1, r.2)
    else none

/-- The token at the head of the text and the rest: a capitals word, a decimal number, a hexadecimal number after
`0x`, a character in single quotes (code 39), a string, a comma (44). R91 allows the quoted form for a character operand
and leaves open whether another operand may be written so. The token here is the number that the character's code is,
so the form is accepted wherever a number is: coordinates, lengths, values, Booleans and `fbase`, each with its own
range test. DESIGN CHOICE (log entry 17). -/
def nextToken : List Char → Option (AsmToken × List Char)
  | [] => none
  | c :: cs =>
    if c.toNat = 44 then some (.comma, cs)
    else if c.toNat = 34 then (takeString cs).map fun r => (.operand (.string r.1), r.2)
    else if c.toNat = 39 then
      match cs with
      | ch :: q :: rest =>
        if q.toNat = 39 ∧ ch.toNat < 128 then some (.operand (.number ch.toNat), rest) else none
      | _ => none
    else if 65 ≤ c.toNat ∧ c.toNat ≤ 90 then
      some (.word (takeCapitals (c :: cs)).1, (takeCapitals (c :: cs)).2)
    else if 48 ≤ c.toNat ∧ c.toNat ≤ 57 then
      match cs with
      | x :: h :: rest =>
        if c.toNat = 48 ∧ x.toNat = 120 then
          (digitValue 16 h).map fun d => (.operand (.number (takeDigits 16 rest d).1), (takeDigits 16 rest d).2)
        else some (.operand (.number (takeDigits 10 (c :: cs) 0).1), (takeDigits 10 (c :: cs) 0).2)
      | _ => some (.operand (.number (takeDigits 10 (c :: cs) 0).1), (takeDigits 10 (c :: cs) 0).2)
    else none

/-- The tokens of a line; `;` (code 59), but for one inside quotes, starts a comment (R91). R91 names no white space:
spaces and tabs are skipped, and tokens need none between them. DESIGN CHOICE (log entry 17). -/
def tokens : Nat → List Char → Option (List AsmToken)
  | 0, _ => none
  | _ + 1, [] => some []
  | fuel + 1, c :: cs =>
    if c.toNat = 32 ∨ c.toNat = 9 then tokens fuel cs
    else if c.toNat = 59 then some []
    else (nextToken (c :: cs)).bind fun r => (tokens fuel r.2).map (r.1 :: ·)

/-- The operands, separated by commas. -/
def operandList : List AsmToken → Option (List AsmOperand)
  | [] => some []
  | [.operand o] => some [o]
  | .operand o :: .comma :: t :: ts => (operandList (t :: ts)).map (o :: ·)
  | _ => none

/-- One line of assembly text: no command on a blank or comment line, else the command; `none` where the assembler
rejects the line (R91). That a line without a command is accepted is a DESIGN CHOICE (log entry 17). -/
def assembleLine (line : List Char) : Option (Option Instr) :=
  match tokens (line.length + 1) line with
  | some [] => some none
  | some (.word w :: rest) =>
    (mnemonicTable.lookup w).bind fun m => (operandList rest).bind fun ops => (assemble m ops).map some
  | _ => none

end Sys2Proof.Machine
end

