-- ==== Sys2Proof/Machine/Sink.lean ====
section
/-! DEFINITION. The reference model of the external display controller, spec/20_memory.md R64: ASSUMED, not normative,
from general knowledge (G3). It is no state of the core (R28) and no step reads it: it is a function of the wire trace,
so that end-to-end statements can be written. Log entry 15. -/

namespace Sys2Proof.Machine

/-- What the display shows (R64). -/
inductive DisplayControl where
  /-- `0x08`. -/
  | blank
  /-- `0x09`. -/
  | allOn
  /-- `0x0C`. -/
  | normal
  /-- `0x0D`. -/
  | inverse
deriving DecidableEq, Repr

/-- The assumed controller (R64). -/
structure Sink where
  /-- The RAM `dd[0 .. 503]`, in the layout of R52. -/
  dd : PixelBuffer
  /-- The X address, 0 to 83. -/
  x : Nat
  /-- The band address, 0 to 5. -/
  y : Nat
  /-- The extended command set is selected. -/
  ext : Bool
  /-- Vertical addressing is selected: bit 1 of a function set. -/
  vertical : Bool
  /-- Power-down: bit 2 of a function set. -/
  powerDown : Bool
  /-- The display control field. -/
  display : DisplayControl
  /-- The temperature coefficient. -/
  tempCoef : Byte
  /-- The bias system. -/
  bias : Byte
  /-- The operating voltage (contrast). -/
  vop : Byte
deriving DecidableEq, Repr

/-- `0x20 | f`, in either command set: `f[0]` ext, `f[1]` vertical addressing, `f[2]` power-down. -/
def Sink.functionSet (v : Byte) (k : Sink) : Sink :=
  { k with ext := v.getLsbD 0, vertical := v.getLsbD 1, powerDown := v.getLsbD 2 }

/-- A command byte with the basic set selected; `none` where R64 does not say what it does. -/
def Sink.basicCommand (v : Byte) (k : Sink) : Option Sink :=
  if v.toNat ≥ 0x80 then if v.toNat - 0x80 ≤ 83 then some { k with x := v.toNat - 0x80 } else none
  else if v.toNat ≥ 0x40 then if v.toNat - 0x40 ≤ 5 then some { k with y := v.toNat - 0x40 } else none
  else if 0x20 ≤ v.toNat ∧ v.toNat ≤ 0x27 then some (k.functionSet v)
  else if v = 0x08 then some { k with display := .blank }
  else if v = 0x09 then some { k with display := .allOn }
  else if v = 0x0C then some { k with display := .normal }
  else if v = 0x0D then some { k with display := .inverse }
  else none

/-- A command byte with the extended set selected; `none` where R64 does not say what it does. R64 gives no width for
`tc` in `0x04 | tc` nor for `bs` in `0x10 | bs`: two bits (0x04 to 0x07) and three bits (0x10 to 0x17) are the model's
choice, PRESUMED from the PCD8544 family; so is `none` for 0x18 to 0x1F (log entry 15). -/
def Sink.extendedCommand (v : Byte) (k : Sink) : Option Sink :=
  if v.toNat ≥ 0x80 then some { k with vop := v &&& 0x7F }
  else if 0x20 ≤ v.toNat ∧ v.toNat ≤ 0x27 then some (k.functionSet v)
  else if 0x10 ≤ v.toNat ∧ v.toNat ≤ 0x17 then some { k with bias := v &&& 0x07 }
  else if 0x04 ≤ v.toNat ∧ v.toNat ≤ 0x07 then some { k with tempCoef := v &&& 0x03 }
  else none

/-- A data byte under horizontal addressing: stored at the cursor, which advances and wraps to the next band. R64
does not describe vertical addressing. -/
def Sink.dataByte (v : Byte) (k : Sink) : Option Sink :=
  if k.vertical then none
  else
    let k' := { k with dd := k.dd.write (bAddr k.y k.x) v }
    if k.x + 1 = 84 then some { k' with x := 0, y := (k.y + 1) % 6 } else some { k' with x := k.x + 1 }

/-- `Rst`: the addresses, the command set and the display control as R64 says, the RAM undefined (a new draw). What
R64 leaves out is PRESUMED from the PCD8544 family: horizontal addressing, power-down, zero settings. -/
def Sink.reset (k : Sink) : Sink where
  dd := { mem := [], draw := k.dd.draw + 1 }
  x := 0
  y := 0
  ext := false
  vertical := false
  powerDown := true
  display := .blank
  tempCoef := 0
  bias := 0
  vop := 0

/-- One wire event; `none` where R64 does not say what the controller does. -/
def Sink.receive (k : Sink) : WireEvent → Option Sink
  | .rst => some k.reset
  | .command v => if k.ext then k.extendedCommand v else k.basicCommand v
  | .data v => k.dataByte v

/-- The controller after a stretch of the wire trace. -/
def Sink.receiveAll : List WireEvent → Sink → Option Sink
  | [], k => some k
  | e :: es, k => (k.receive e).bind (Sink.receiveAll es)

end Sys2Proof.Machine
end

