-- ==== Sys2Proof/Machine/Observe.lean ====
section
/-! DEFINITION. What a run shows (spec/00_scope.md R12, spec/60_exceptions.md R203, R204): the final and the faulted
state, and what the host reads in one of them. -/

namespace Sys2Proof.Machine

/-- The final state: the stream is exhausted and no fault is recorded (R12). A faulted state is never final (R203). -/
def State.isFinal (s : State) : Bool := s.pc.toNat = s.cfg.cmd.length && !s.faulted

/-- The core is stuck: a command waits for the transport to accept an event and the transport never does (R204). -/
def State.isStuck (s : State) : Bool := s.waiting.isSome

/-- A command step is enabled: `FAULT = 0` and `pc < CMD_LEN` (R80), and no command is under way. -/
def State.enabled (s : State) : Bool := !s.faulted && !s.isStuck && s.pc.toNat < s.cfg.cmd.length

/-- What an observer may read (R12). -/
structure Observation where
  /-- The 504 bytes of the PixelBuffer in address order. -/
  bytes : List Byte
  /-- SR0 to SR7. -/
  status : List Byte
  /-- The wire trace. -/
  wire : List WireEvent
deriving DecidableEq, Repr

/-- The host's read. It has a result only when the core is final or faulted (R12, R24, R237). -/
def State.hostRead (s : State) : Option Observation :=
  if s.isFinal || s.faulted then
    some { bytes := s.fb.bytes, status := (List.finRange 8).map s.readSR, wire := s.wire }
  else none

end Sys2Proof.Machine
end

