-- ==== Sys2Proof/Safety.lean ====
section
/-! DEFINITION. The terms statements use: the invariant of a machine state, the four outcomes of a run
(spec/60_exceptions.md R204), and where each fault of R201 is raised. -/

namespace Sys2Proof.Machine

/-- What holds of a machine state at every command boundary. -/
structure State.Inv (s : State) : Prop where
  /-- The PixelBuffer's cells are in canonical form, all at addresses 0 to 503 (R51). -/
  fbWf : Memory.wf s.fb.mem
  /-- Bits 7:2 of MODE are hardwired 0 (R24). -/
  modeBits : s.mode.extractLsb' 2 6 = 0
  /-- Bits 7:2 of STATUS are hardwired 0 (R24). -/
  statusBits : s.status.extractLsb' 2 6 = 0
  /-- `pc` is 0 to `CMD_LEN` (R21). -/
  pcInStream : s.pc.toNat ≤ s.cfg.cmd.length
  /-- The configuration is one that R6 allows. -/
  cfgWf : s.cfg.wf = true
  /-- Without a fault the fault registers are zero (R30). -/
  noFault : s.faulted = false → s.fcause = 0 ∧ s.fpcLo = 0 ∧ s.fpcHi = 0
  /-- With a fault, FCAUSE is one of the four codes and FPC is the `pc` of the command that faulted (R30, R203). -/
  fault : s.faulted = true → (1 ≤ s.fcause.toNat ∧ s.fcause.toNat ≤ 4) ∧ s.fpc = s.pc
  /-- A stuck core is not faulted and not final, and its transport accepts nothing more (R59, R204). -/
  stuck : s.isStuck = true → s.faulted = false ∧ s.pc.toNat < s.cfg.cmd.length ∧ s.transport = .accepts 0

/-- The operand values for which a command's own test or a reserved bit raises OperandRange (R201, code 3). -/
def operandRangeOf : Instr → Prop
  | .setpix _ _ on => 2 ≤ on.toNat
  | .setdinv flag => 2 ≤ flag.toNat
  | .settinv flag => 2 ≤ flag.toNat
  | .getbyte row x => row.toNat > 5 ∨ x.toNat > 83
  | .setbyte row x _ => row.toNat > 5 ∨ x.toNat > 83
  | .goto x row => x.toNat > 83 ∨ row.toNat > 5
  | .refreshr xmin ymin xmax ymax =>
    xmin.toNat > xmax.toNat ∨ xmax.toNat > 83 ∨ ymin.toNat > ymax.toNat ∨ ymax.toNat > 47
  | .clear | .getpix _ _ | .hline _ _ _ | .vline _ _ _ | .line _ _ _ _ | .rect _ _ _ _ | .printch _
  | .printstr _ _ _ _ | .printstrb _ _ _ _ | .init | .refresh => False

/-- The font table at `B` does not fit FONT: its header, or the glyph entries it declares (R151, R201 code 4). -/
def fontTooLong (font : List Byte) (B : Nat) : Prop :=
  B + 4 > font.length ∨
  B + 4 + (font.getD (B + 3) 0).toNat * ((font.getD B 0).toNat * (((font.getD (B + 1) 0).toNat + 7) / 8)) > font.length

/-- The commands and configurations for which FontBounds is raised (R201, code 4). -/
def fontBoundsOf (s : State) : Instr → Prop
  | .printch _ => fontTooLong s.cfg.font s.cfg.defaultFontBase.toNat
  | .printstr _ _ fbase _ => fontTooLong s.cfg.font fbase.toNat
  | .printstrb _ _ fbase _ => fontTooLong s.cfg.font fbase.toNat
  | .clear | .setpix _ _ _ | .getpix _ _ | .getbyte _ _ | .setbyte _ _ _ | .hline _ _ _ | .vline _ _ _
  | .line _ _ _ _ | .rect _ _ _ _ | .init | .setdinv _ | .settinv _ | .goto _ _ | .refresh | .refreshr _ _ _ _ => False

/-- Where the command step raises each fault (R201). -/
def raisedAt (s : State) : FaultCause → Prop
  | .illegalOpcode => s.fetch = .error .illegalOpcode
  | .truncatedCommand => s.fetch = .error .truncated
  | .operandRange => ∃ i, s.fetch = .ok i ∧ operandRangeOf i
  | .fontBounds => ∃ i, s.fetch = .ok i ∧ fontBoundsOf s i

/-- The pixels that RECT turns on (R136, corner cases): a horizontal side from its left to its right column, on a row
that exists; and, where the two rows differ, each vertical side in its clamped column, down to its clamped end. -/
def onOutline (x1 y1 x2 y2 : Byte) (px py : Nat) : Prop :=
  ((py = y1.toNat ∨ py = y2.toNat) ∧ min x1.toNat x2.toNat ≤ px ∧ px ≤ max x1.toNat x2.toNat) ∨
  (y1 ≠ y2 ∧ (px = min x1.toNat 83 ∨ px = min x2.toNat 83) ∧
    min (min y1.toNat y2.toNat) 47 ≤ py ∧ py ≤ max y1.toNat y2.toNat)

/-- The cursor state machine as rules (R155 to R158): what a string does from cursor `p`. The list holds each glyph
that is emitted with the cursor it is emitted at, in order; the last argument is the final position. -/
inductive TextRuns (f : FontTable) : List Byte → Cursor → List (Cursor × Byte) → Cursor → Prop where
  /-- The string ends. -/
  | done (p : Cursor) : TextRuns f [] p [] p
  /-- A character outside the font is skipped before the guard (R158). -/
  | skip {c : Byte} {cs : List Byte} {p q : Cursor} {gs : List (Cursor × Byte)} :
      ¬ (f.off ≤ c.toNat ∧ c.toNat < f.off + f.cnt) → TextRuns f cs p gs q → TextRuns f (c :: cs) p gs q
  /-- The guard fails: FAILED is set, the position kept, the loop stopped (R155). -/
  | stop {c : Byte} {cs : List Byte} {p : Cursor} :
      f.off ≤ c.toNat → c.toNat < f.off + f.cnt → p.x + f.gw > 84 ∨ p.row + f.rows ≥ 6 →
      TextRuns f (c :: cs) p [] { p with failed := true }
  /-- A glyph is emitted and the cursor stays on its row: `x + gw <= 84 - gw` (R157). -/
  | along {c : Byte} {cs : List Byte} {p q : Cursor} {gs : List (Cursor × Byte)} :
      f.off ≤ c.toNat → c.toNat < f.off + f.cnt → p.x + f.gw ≤ 84 → p.row + f.rows < 6 →
      (p.x + f.gw : Int) ≤ 84 - f.gw →
      TextRuns f cs { p with x := p.x + f.gw } gs q → TextRuns f (c :: cs) p ((p, c) :: gs) q
  /-- A glyph is emitted and the cursor wraps to the next text line (R157). -/
  | wrap {c : Byte} {cs : List Byte} {p q : Cursor} {gs : List (Cursor × Byte)} :
      f.off ≤ c.toNat → c.toNat < f.off + f.cnt → p.x + f.gw ≤ 84 → p.row + f.rows < 6 →
      (84 - f.gw : Int) < p.x + f.gw →
      TextRuns f cs { p with x := 0, row := p.row + f.rows } gs q → TextRuns f (c :: cs) p ((p, c) :: gs) q

/-- The run from `s` is still going after `k` command steps, in state `t` (R12). -/
def RunsTo (k : Nat) (s t : State) : Prop := Host.Core.run Sys2Proof.core k s = .next t

/-- A safe run: it reaches a final state, so it raises no fault and meets no stall (R12, R203, R204). -/
def RunsSafely (s : State) : Prop := ∃ k t, RunsTo k s t ∧ t.isFinal = true

end Sys2Proof.Machine
end

