-- ==== Sys2Proof/Certificates/Slice0/Obligations.lean ====
section
/-! DEFINITION. The statements for the provers, from the numbered rules of spec/. Each is about every state or every
operand unless it says otherwise; a frame is written as an equation with the state before. -/

open Sys2Proof Sys2Proof.Machine

/-! ### Encoding -/

/-- Every command that has an encoding (a string of at most 255 bytes, R81) decodes back to itself, with every operand
at every value, whatever bytes follow it in the stream. -/
def Obligations.DecodeOfEncodeIsTheCommand : Prop :=
  ∀ (i : Instr) (rest : List Byte), i.encodable = true → decode (encode i ++ rest) = .ok i

/-- A list of bytes that decodes begins with the encoding of the command it decodes to, whose length is the one R81
gives: no bit of a command's bytes is dropped or read twice. -/
def Obligations.EncodeOfDecodeIsTheBytes : Prop :=
  ∀ (bs : List Byte) (i : Instr), decode bs = .ok i →
    i.encodable = true ∧ i.size ≤ bs.length ∧ encode i = bs.take i.size

/-- R83, R86: the bytes whose first is none of the 18 opcodes, and only they, decode to the illegal opcode. -/
def Obligations.OnlyTheEighteenOpcodesAreDefined : Prop :=
  ∀ (op : Byte) (rest : List Byte), decode (op :: rest) = .error .illegalOpcode ↔
    op.toNat ∉ [0x10, 0x11, 0x12, 0x13, 0x14, 0x20, 0x21, 0x22, 0x23, 0x30, 0x31, 0x32,
      0x40, 0x41, 0x42, 0x43, 0x44, 0x45]

/-- R80, R87: a stream that begins with an encodable command's bytes but is cut before its last byte is truncated. -/
def Obligations.EveryProperPrefixIsTruncated : Prop :=
  ∀ (i : Instr) (k : Nat), i.encodable = true → k < i.size → decode ((encode i).take k) = .error .truncated

/-- Words the spec writes out (R91, R112, R114, R132, R133, R184, R188) decode to the commands they stand for. -/
def Obligations.SpecWordsDecode : Prop :=
  decode [0x11, 0x0A, 0x14, 0x01] = .ok (.setpix 10 20 1) ∧
  decode [0x13, 0x02, 0x0A] = .ok (.getbyte 2 10) ∧
  decode [0x21, 0x03, 0x2C, 0x0A] = .ok (.vline 3 44 10) ∧
  decode [0x22, 0x00, 0x00, 0x0A, 0x0A] = .ok (.line 0 0 10 10) ∧
  decode [0x31, 0x00, 0x01, 0x00, 0x01, 0x02, 0x48, 0x69] = .ok (.printstr 0 1 0x0100 [0x48, 0x69]) ∧
  decode [0x30, 0x42] = .ok (.printch 0x42) ∧
  decode [0x41, 0x01] = .ok (.setdinv 1) ∧
  decode [0x45, 0x02, 0x02, 0x0A, 0x0A] = .ok (.refreshr 2 2 10 10)

/-- R91, R92: what the assembler accepts is a well-formed command, so the decoder reads it back. -/
def Obligations.AssembledCommandsAreWellFormed : Prop :=
  ∀ (m : Mnemonic) (ops : List AsmOperand) (i : Instr), assemble m ops = some i → i.wellFormed = true

/-! ### The command step, faults and runs -/

/-- R80: the command step, branch by branch, for a configuration that R6 allows; any other is refused. The outcomes'
names and the place of the refusal are the model's (log entries 6, 7). -/
def Obligations.StepRunsTheDecodedCommand : Prop :=
  ∀ s : State,
    (s.cfg.wf = true →
      (∀ i, s.faulted = false → s.waiting = none → s.pc.toNat < s.cfg.cmd.length →
        decode (s.cfg.cmd.drop s.pc.toNat) = .ok i → step s = exec i s) ∧
      (s.faulted = false → s.waiting = none → s.pc.toNat < s.cfg.cmd.length →
        decode (s.cfg.cmd.drop s.pc.toNat) = .error .illegalOpcode → step s = .next (s.recordFault .illegalOpcode)) ∧
      (s.faulted = false → s.waiting = none → s.pc.toNat < s.cfg.cmd.length →
        decode (s.cfg.cmd.drop s.pc.toNat) = .error .truncated → step s = .next (s.recordFault .truncatedCommand)) ∧
      (s.faulted = true → step s = .fault .halted) ∧
      (s.faulted = false → s.waiting ≠ none → step s = .fault .transportStalled) ∧
      (s.faulted = false → s.waiting = none → s.cfg.cmd.length ≤ s.pc.toNat → step s = .fault .streamExhausted)) ∧
    (s.cfg.wf = false → step s = .refused .configurationNotAllowed)

/-- R202: what raising a fault does: FAULT, the code of R201 and the faulting command's pc; nothing else. And faults are
precise: a command that leaves FAULT set where it was clear has done that and nothing more. -/
def Obligations.RaisingRecordsTheFaultAndNothingElse : Prop :=
  ∀ s : State,
    (∀ k : FaultCause, s.raise k = .next { s with
      status := s.status ||| 0x02
      fcause := match k with
        | .illegalOpcode => 1
        | .truncatedCommand => 2
        | .operandRange => 3
        | .fontBounds => 4
      fpcLo := BitVec.ofNat 8 (s.pc.toNat % 256)
      fpcHi := BitVec.ofNat 8 (s.pc.toNat / 256) }) ∧
    (∀ (i : Instr) (t : State), s.faulted = false → exec i s = .next t → t.faulted = true →
      ∃ k, t = s.recordFault k)

/-- R201, R205: in an enabled state of a configuration that R6 allows, the step raises a fault exactly where the table
says, with that cause. -/
def Obligations.EachFaultIsRaisedExactlyWhereListed : Prop :=
  ∀ (s : State) (k : FaultCause), s.cfg.wf = true → s.enabled = true →
    (step s = .next (s.recordFault k) ↔ raisedAt s k)

/-- R202, R90, R204: a step raises a fault, and then it has changed the fault record alone; or it completes a command,
and then FAULT stays 0 and pc has moved on by the command's length; or it leaves the core stuck in a command, neither
faulted nor past it (the stuck state's form is the model's, log entry 5). -/
def Obligations.EveryStepFaultsPreciselyOrAdvances : Prop :=
  ∀ s t : State, step s = .next t →
    (∃ k, t = s.recordFault k) ∨
    (∃ i, s.fetch = .ok i ∧ t.faulted = false ∧ t.waiting = none ∧ t.pc = s.pc + BitVec.ofNat 16 i.size) ∨
    (∃ i, s.fetch = .ok i ∧ t.faulted = false ∧ t.waiting ≠ none ∧ t.pc = s.pc ∧ s.transport ≠ .ready)

/-- R31, R32: a step only appends to the wire trace and never writes the configuration; a PixelBuffer byte that
hardware reset left arbitrary stays that one byte until it is written. -/
def Obligations.EveryStepAppendsToTheWire : Prop :=
  ∀ s t : State, step s = .next t → s.wire <+: t.wire ∧ t.cfg = s.cfg ∧ t.fb.draw = s.fb.draw

/-- The machine invariant (`State.Inv`) is kept by every step: the PixelBuffer in canonical form with no address above
503 (R51), hardwired bits 0 (R24), pc within the stream (R21), the fault record consistent (R30, R203), the configuration
one that R6 allows, a stuck core neither faulted nor final (R204). -/
def Obligations.EveryStepKeepsTheInvariant : Prop :=
  ∀ s t : State, s.Inv → step s = .next t → t.Inv

/-- The machine invariant holds after hardware reset. -/
def Obligations.ResetMeetsTheInvariant : Prop := State.reset.Inv

/-- R204: with the transport ready every run ends, and without it too, at the latest stuck: from any state of the
machine, a run makes at most as many steps as the stream has bytes left. -/
def Obligations.EveryRunEnds : Prop :=
  ∀ s : State, s.Inv → ¬ ∃ t, RunsTo (s.cfg.cmd.length - s.pc.toNat + 1) s t

/-- R204: every state of the machine is final, faulted, stuck or running (a step is enabled), exactly one of the four;
a running one makes a step, but for a PRINTCH with a default font that R6 rules out. No run from hardware reset comes
to that one (ConfigurationsThatViolateTheirConstraintsAreRefused). -/
def Obligations.EveryStateHasOneOutcome : Prop :=
  ∀ s : State, s.Inv →
    (s.isFinal = true ∧ s.faulted = false ∧ s.isStuck = false ∧ s.enabled = false ∧
      step s = .fault .streamExhausted) ∨
    (s.isFinal = false ∧ s.faulted = true ∧ s.isStuck = false ∧ s.enabled = false ∧ step s = .fault .halted) ∨
    (s.isFinal = false ∧ s.faulted = false ∧ s.isStuck = true ∧ s.enabled = false ∧
      step s = .fault .transportStalled) ∨
    (s.isFinal = false ∧ s.faulted = false ∧ s.isStuck = false ∧ s.enabled = true ∧
      ((∃ t, step s = .next t) ∨
       (step s = .refused .defaultFontNotSingleBand ∧ s.cfg.defaultFontOk = false ∧ ∃ c, s.fetch = .ok (.printch c))))

/-- R59, R204, R238: with a ready transport a command's events are appended at once and it never waits. A transport that
will accept at least that many lets it complete with the same result. One that will accept fewer leaves the core stuck,
not faulted and not past the command: the accepted events, a prefix of the sequence the rules give, stand in the trace,
the next one is on offer, and of the command's other effects only those before it in its rule have happened (deduced
from the order of each rule, log entry 5): none in fb, RES or the fault record, DI in SETDINV, and in PRINTSTR the
position of the glyph that is being sent, with FAILED clear. No step follows. -/
def Obligations.AStalledTransportStallsTheCommand : Prop :=
  (∀ (i : Instr) (s t : State) (n : Nat),
    exec i { s with transport := .ready } = .next t →
    ∃ events, t.wire = s.wire ++ events ∧ t.waiting = s.waiting ∧ t.transport = .ready ∧
      (events.length ≤ n →
        exec i { s with transport := .accepts n } = .next { t with transport := .accepts (n - events.length) }) ∧
      (n < events.length → ∃ u, exec i { s with transport := .accepts n } = .next u ∧
        u = { s with
          mode := u.mode
          status := u.status
          curX := u.curX
          curRow := u.curRow
          wire := s.wire ++ events.take n
          waiting := events[n]?
          transport := .accepts 0 } ∧
        (i.opcode = 0x41#8 → u.mode = t.mode) ∧ (i.opcode ≠ 0x41#8 → u.mode = s.mode) ∧
        (i.opcode ≠ 0x31#8 → u.status = s.status ∧ u.curX = s.curX ∧ u.curRow = s.curRow) ∧
        u.faulted = s.faulted ∧ u.isStuck = true ∧
        (s.cfg.wf = true → s.faulted = false → step u = .fault .transportStalled))) ∧
  (∀ (s : State) (x row : Byte) (fbase : Word) (str : List Byte) (f : FontTable) (before later : List (Cursor × Byte))
    (g : Cursor × Byte) (q : Cursor) (k : Nat),
    parseFont s.cfg.font fbase.toNat = some f →
    TextRuns f str ⟨x.toNat, row.toNat, false⟩ (before ++ g :: later) q → s.transport = .accepts k →
    (before.flatMap fun g => glyphEvents s.cfg.font s.ti f g.1 g.2).length ≤ k →
    k < (before.flatMap fun g => glyphEvents s.cfg.font s.ti f g.1 g.2).length +
      (glyphEvents s.cfg.font s.ti f g.1 g.2).length →
    exec (.printstr x row fbase str) s = .next { s with
      curX := BitVec.ofNat 8 g.1.x
      curRow := BitVec.ofNat 8 g.1.row
      status := s.status &&& 0xFE
      wire := s.wire ++ ((before ++ g :: later).flatMap fun g => glyphEvents s.cfg.font s.ti f g.1 g.2).take k
      waiting := ((before ++ g :: later).flatMap fun g => glyphEvents s.cfg.font s.ti f g.1 g.2)[k]?
      transport := .accepts 0 })

/-- R6, U15: a configuration is refused in every state, so before its first command, exactly where a size is outside its
type, or the program contains PRINTCH and the table at DEFAULT_FONT_BASE does not pass the font check or is not one band
high; and a run of a configuration that is not refused there is never refused later. That `step` is where the refusal
shows, and which commands are the program's, are the model's (log entry 7). -/
def Obligations.ConfigurationsThatViolateTheirConstraintsAreRefused : Prop :=
  ∀ s : State,
    (step s = .refused .configurationNotAllowed ↔ s.cfg.wf = false) ∧
    (s.cfg.wf = true ↔ s.cfg.font.length ≤ 65536 ∧ s.cfg.cmd.length ≤ 65535 ∧
      ((∃ c, Instr.printch c ∈ s.cfg.program) →
        ∃ f, parseFont s.cfg.font s.cfg.defaultFontBase.toNat = some f ∧ f.rows = 1)) ∧
    (∀ (k : Nat) (t : State) (r : Refusal), RunsTo k s.hardwareReset t → step t = .refused r →
      k = 0 ∧ s.cfg.wf = false)

/-- R22, R23, R24, R27, R29, R50: each piece of state is written only by the commands named for it. -/
def Obligations.StateIsWrittenOnlyByItsCommands : Prop :=
  ∀ (i : Instr) (s t : State), exec i s = .next t →
    (t.res ≠ s.res → i.opcode ∈ [0x12#8, 0x13#8]) ∧
    (t.curX ≠ s.curX ∨ t.curRow ≠ s.curRow ∨ t.failed ≠ s.failed → i.opcode ∈ [0x31#8, 0x32#8]) ∧
    (t.di ≠ s.di → i.opcode ∈ [0x40#8, 0x41#8]) ∧
    (t.ti ≠ s.ti → i.opcode ∈ [0x40#8, 0x42#8]) ∧
    (t.fb ≠ s.fb → i.opcode ∈ [0x10#8, 0x11#8, 0x14#8, 0x20#8, 0x21#8, 0x22#8, 0x23#8, 0x32#8, 0x40#8]) ∧
    (t.waiting ≠ s.waiting → i.opcode ∈ [0x30#8, 0x31#8, 0x40#8, 0x41#8, 0x43#8, 0x44#8, 0x45#8]) ∧
    (t.wire ≠ s.wire → i.opcode ∈ [0x30#8, 0x31#8, 0x40#8, 0x41#8, 0x43#8, 0x44#8, 0x45#8])

/-- The registers, the command pointer and the wire trace after hardware reset (R33, R230). That nothing is listed in
the PixelBuffer is the model's form of "unspecified" (log entry 1). -/
def Obligations.ResetClearsRegistersAndWire : Prop :=
  State.reset.pc = 0 ∧ (∀ n : Fin 8, State.reset.readSR n = 0) ∧ State.reset.wire = [] ∧ State.reset.fb.mem = [] ∧
  State.reset.faulted = false ∧ State.reset.waiting = none

/-- R208, R230: hardware reset leaves the faulted state: it clears the registers and the trace, keeps the host's
configuration, and makes every PixelBuffer byte arbitrary again, by a draw the run before it did not use (the draw
counter is the model's, log entry 2). -/
def Obligations.HardwareResetRestartsTheRun : Prop :=
  ∀ s : State, s.hardwareReset = { State.reset with
    cfg := s.cfg
    transport := s.transport
    fb := { mem := [], draw := s.fb.draw + 1 } } ∧
    s.hardwareReset.faulted = false ∧
    ∀ a, s.hardwareReset.fb.read a = Config.powerOnByte (s.fb.draw + 1) a

/-- R24, R25, R26: SR0 and SR1 read as their two fields, bits 7:2 as 0, in every state. -/
def Obligations.StatusRegistersReadTheirFields : Prop :=
  ∀ s : State,
    (s.readSR 0).toNat = s.di.toNat + 2 * s.ti.toNat ∧
    (s.readSR 1).toNat = s.failed.toNat + 2 * s.faulted.toNat ∧
    s.readSR 2 = s.curX ∧ s.readSR 3 = s.curRow ∧ s.readSR 4 = s.res ∧ s.readSR 5 = s.fcause ∧
    s.fpc.toNat = (s.readSR 7).toNat * 256 + (s.readSR 6).toNat

/-- R12, R237: the host reads the 504 bytes, the status registers and the trace where the core is final or faulted; a
read anywhere else has no result. -/
def Obligations.TheHostReadsOnlyAtTheEnd : Prop :=
  ∀ s : State,
    ((s.pc.toNat = s.cfg.cmd.length ∨ s.faulted = true) → ∃ o, s.hostRead = some o ∧ o.wire = s.wire ∧
      o.bytes.length = 504 ∧ (∀ a, a < 504 → o.bytes[a]? = some (s.fb.read a)) ∧
      (∀ n : Fin 8, o.status[n.val]? = some (s.readSR n))) ∧
    (s.faulted = false → s.pc.toNat ≠ s.cfg.cmd.length → s.hostRead = none)

/-! ### PixelBuffer -/

/-- R111: CLEAR. -/
def Obligations.ClearZeroesEveryByte : Prop :=
  ∀ s : State, (∀ rest, decode (0x10#8 :: rest) = .ok .clear) ∧
    ∃ t, exec .clear s = .next t ∧ (∀ a, a < 504 → t.fb.read a = 0) ∧ t = { s with pc := s.pc + 1, fb := t.fb }

/-- R112 with R110: SETPIX sets or clears the clamped pixel and no other bit of the buffer; a reserved bit of `on` faults
with nothing changed. -/
def Obligations.SetpixWritesTheClampedPixel : Prop :=
  ∀ (s : State) (x y on : Byte),
    (∀ rest, decode (0x11#8 :: x :: y :: on :: rest) = .ok (.setpix x y on)) ∧
    (on.toNat < 2 → ∃ t, exec (.setpix x y on) s = .next t ∧
      t = { s with pc := s.pc + 4, fb := t.fb } ∧
      (∀ px py, px < 84 → py < 48 → t.fb.pixel px py =
        if px = min x.toNat 83 ∧ py = min y.toNat 47 then decide (on = 1) else s.fb.pixel px py) ∧
      (∀ a, a ≠ min x.toNat 83 + min y.toNat 47 / 8 * 84 → t.fb.read a = s.fb.read a)) ∧
    (2 ≤ on.toNat → exec (.setpix x y on) s = .next (s.recordFault .operandRange))

/-- R113: GETPIX. -/
def Obligations.GetpixReadsTheClampedPixel : Prop :=
  ∀ (s : State) (x y : Byte),
    (∀ rest, decode (0x12#8 :: x :: y :: rest) = .ok (.getpix x y)) ∧
    exec (.getpix x y) s = .next { s with
      pc := s.pc + 3
      res := if (s.fb.read (min x.toNat 83 + min y.toNat 47 / 8 * 84)).getLsbD (min y.toNat 47 % 8) then 1 else 0 }

/-- R114: GETBYTE. -/
def Obligations.GetbyteReadsAStripOrFaults : Prop :=
  ∀ (s : State) (row x : Byte),
    (∀ rest, decode (0x13#8 :: row :: x :: rest) = .ok (.getbyte row x)) ∧
    (row.toNat ≤ 5 → x.toNat ≤ 83 → exec (.getbyte row x) s =
      .next { s with pc := s.pc + 3, res := s.fb.read (row.toNat * 84 + x.toNat) }) ∧
    (row.toNat > 5 ∨ x.toNat > 83 → exec (.getbyte row x) s = .next (s.recordFault .operandRange))

/-- R115: SETBYTE. -/
def Obligations.SetbyteWritesAStripOrFaults : Prop :=
  ∀ (s : State) (row x value : Byte),
    (∀ rest, decode (0x14#8 :: row :: x :: value :: rest) = .ok (.setbyte row x value)) ∧
    (row.toNat ≤ 5 → x.toNat ≤ 83 → ∃ t, exec (.setbyte row x value) s = .next t ∧
      t = { s with pc := s.pc + 4, fb := t.fb } ∧
      t.fb.read (row.toNat * 84 + x.toNat) = value ∧
      (∀ a, a ≠ row.toNat * 84 + x.toNat → t.fb.read a = s.fb.read a)) ∧
    (row.toNat > 5 ∨ x.toNat > 83 → exec (.setbyte row x value) s = .next (s.recordFault .operandRange))

/-- R116, all six laws: read after write, the frame of SETPIX, clamp equivalence, byte read after byte write, the pixel
and byte views, idempotence. -/
def Obligations.PixelBufferFamilyLaws : Prop :=
  ∀ (s : State) (x y on row v : Byte), on.toNat < 2 →
    (∃ t u, exec (.setpix x y on) s = .next t ∧ exec (.getpix x y) t = .next u ∧ u.res = on) ∧
    (∃ t, exec (.setpix x y on) s = .next t ∧
      (∀ a, a ≠ min x.toNat 83 + min y.toNat 47 / 8 * 84 → t.fb.read a = s.fb.read a) ∧
      (∀ k, k < 8 → k ≠ min y.toNat 47 % 8 →
        (t.fb.read (min x.toNat 83 + min y.toNat 47 / 8 * 84)).getLsbD k =
        (s.fb.read (min x.toNat 83 + min y.toNat 47 / 8 * 84)).getLsbD k)) ∧
    exec (.setpix x y on) s =
      exec (.setpix (BitVec.ofNat 8 (min x.toNat 83)) (BitVec.ofNat 8 (min y.toNat 47)) on) s ∧
    (row.toNat ≤ 5 → x.toNat ≤ 83 → ∃ t u, exec (.setbyte row x v) s = .next t ∧
      exec (.getbyte row x) t = .next u ∧ u.res = v) ∧
    (x.toNat ≤ 83 → y.toNat ≤ 47 → ∃ t u, exec (.getpix x y) s = .next t ∧
      exec (.getbyte (BitVec.ofNat 8 (y.toNat / 8)) x) s = .next u ∧
      t.res = if u.res.getLsbD (y.toNat % 8) then 1 else 0) ∧
    (∀ i ∈ [Instr.setpix x y on, .setbyte row x v, .clear], ∀ t u,
      exec i s = .next t → exec i t = .next u → u.fb = t.fb)

/-! ### Rasterizer -/

/-- R131 with R130: HLINE turns on the pixels from `x` to `min(x + length - 1, 83)` of row `y` and no other, and nothing
where the start is out of bounds. -/
def Obligations.HlineDrawsTheClampedRun : Prop :=
  ∀ (s : State) (x y length : Byte),
    (∀ rest, decode (0x20#8 :: x :: y :: length :: rest) = .ok (.hline x y length)) ∧
    ∃ t, exec (.hline x y length) s = .next t ∧
      t = { s with pc := s.pc + 4, fb := t.fb } ∧
      (∀ px py, px < 84 → py < 48 → t.fb.pixel px py =
        (s.fb.pixel px py || decide (x.toNat ≤ 83 ∧ y.toNat ≤ 47 ∧ py = y.toNat ∧
          x.toNat ≤ px ∧ px < x.toNat + length.toNat))) ∧
      (∀ a, ¬ (y.toNat ≤ 47 ∧ ∃ px, x.toNat ≤ px ∧ px < x.toNat + length.toNat ∧ px ≤ 83 ∧
        a = px + y.toNat / 8 * 84) → t.fb.read a = s.fb.read a)

/-- R132: VLINE turns on the `length + 1` pixels from `(x, y)` downward, each clamped, and no other. -/
def Obligations.VlineDrawsTheClampedPoints : Prop :=
  ∀ (s : State) (x y length : Byte),
    (∀ rest, decode (0x21#8 :: x :: y :: length :: rest) = .ok (.vline x y length)) ∧
    ∃ t, exec (.vline x y length) s = .next t ∧
      t = { s with pc := s.pc + 4, fb := t.fb } ∧
      (∀ px py, px < 84 → py < 48 → t.fb.pixel px py =
        (s.fb.pixel px py || decide (px = min x.toNat 83 ∧ min y.toNat 47 ≤ py ∧
          py ≤ min (y.toNat + length.toNat) 47))) ∧
      (∀ a, (∀ i, i ≤ length.toNat → a ≠ min x.toNat 83 + min (y.toNat + i) 47 / 8 * 84) →
        t.fb.read a = s.fb.read a)

/-- R133: what the two swaps and the dispatch of LINE come to: a horizontal line from its left end, a vertical one from
its top end, a sloped one through the line engine from its top end. -/
def Obligations.LineDispatchesOnItsDirection : Prop :=
  ∀ (s : State) (x1 y1 x2 y2 : Byte),
    (∀ rest, decode (0x22#8 :: x1 :: y1 :: x2 :: y2 :: rest) = .ok (.line x1 y1 x2 y2)) ∧
    exec (.line x1 y1 x2 y2) s = .next { s with
      pc := s.pc + 5
      fb :=
        if y1 = y2 then
          hLine (min x1.toNat x2.toNat) y1.toNat (max x1.toNat x2.toNat - min x1.toNat x2.toNat + 1) s.fb
        else if x1 = x2 then
          vLine x1.toNat (min y1.toNat y2.toNat) (max y1.toNat y2.toNat - min y1.toNat y2.toNat) s.fb
        else if y1.toNat < y2.toNat then lineEngine x1.toNat y1.toNat x2.toNat y2.toNat s.fb
        else lineEngine x2.toNat y2.toNat x1.toNat y1.toNat s.fb }

/-- R133 with R130 and R132: a horizontal LINE turns on the pixels between its two columns, clipped at column 83, and
nothing where its left end is out of bounds; a vertical one turns on the pixels between its two rows, each clamped; no
other byte of the buffer is written. -/
def Obligations.AnAxisAlignedLineDrawsItsRun : Prop :=
  ∀ (s : State) (x1 y1 x2 y2 : Byte),
    (y1 = y2 → ∃ t, exec (.line x1 y1 x2 y2) s = .next t ∧
      t = { s with pc := s.pc + 5, fb := t.fb } ∧
      (∀ px py, px < 84 → py < 48 → (t.fb.pixel px py = true ↔ s.fb.pixel px py = true ∨
        (py = y1.toNat ∧ min x1.toNat x2.toNat ≤ px ∧ px ≤ max x1.toNat x2.toNat))) ∧
      (∀ a, (∀ px, px ≤ 83 → y1.toNat ≤ 47 → min x1.toNat x2.toNat ≤ px → px ≤ max x1.toNat x2.toNat →
        a ≠ px + y1.toNat / 8 * 84) → t.fb.read a = s.fb.read a)) ∧
    (y1 ≠ y2 → x1 = x2 → ∃ t, exec (.line x1 y1 x2 y2) s = .next t ∧
      t = { s with pc := s.pc + 5, fb := t.fb } ∧
      (∀ px py, px < 84 → py < 48 → (t.fb.pixel px py = true ↔ s.fb.pixel px py = true ∨
        (px = min x1.toNat 83 ∧ min (min y1.toNat y2.toNat) 47 ≤ py ∧ py ≤ max y1.toNat y2.toNat))) ∧
      (∀ a, (∀ y, min y1.toNat y2.toNat ≤ y → y ≤ max y1.toNat y2.toNat →
        a ≠ min x1.toNat 83 + min y 47 / 8 * 84) → t.fb.read a = s.fb.read a))

/-- R134: a sloped LINE turns on one pixel for each step along its major axis (x only where it is strictly the longer),
the minor coordinate being the exact one rounded to the nearest, a half upward, and each pixel clamped. `n` is the
major length; the two inequalities say `Y = floor(v + 1/2)` for the exact value `v`, multiplied out. -/
def Obligations.LineEngineRoundsTheMinorCoordinate : Prop :=
  ∀ (s : State) (x1 y1 x2 y2 : Byte), y1.toNat < y2.toNat → x1 ≠ x2 →
    ∃ t, exec (.line x1 y1 x2 y2) s = .next t ∧
      t = { s with pc := s.pc + 5, fb := t.fb } ∧
      (∀ px py, px < 84 → py < 48 → (t.fb.pixel px py = true ↔ s.fb.pixel px py = true ∨
        ∃ k X Y : Nat, px = min X 83 ∧ py = min Y 47 ∧
          (let dx : Int := (x2.toNat : Int) - x1.toNat
           let dy : Int := (y2.toNat : Int) - y1.toNat
           if |dx| > dy then
             (k : Int) ≤ |dx| ∧ (X : Int) = x1.toNat + k * dx.sign ∧
             2 * |dx| * Y ≤ 2 * |dx| * y1.toNat + 2 * k * dy + |dx| ∧
             2 * |dx| * y1.toNat + 2 * k * dy + |dx| < 2 * |dx| * (Y + 1)
           else
             (k : Int) ≤ dy ∧ (Y : Int) = y1.toNat + k ∧
             2 * dy * X ≤ 2 * dy * x1.toNat + 2 * k * dx + dy ∧
             2 * dy * x1.toNat + 2 * k * dx + dy < 2 * dy * (X + 1)))) ∧
      (∀ a, (∀ p ∈ lineEnginePoints x1.toNat y1.toNat x2.toNat y2.toNat,
        a ≠ min p.1 83 + min p.2 47 / 8 * 84) → t.fb.read a = s.fb.read a)

/-- R135, all four laws of LINE: endpoint symmetry, both clamped endpoints on (but for a horizontal line whose left end
is out of bounds), bits only set, and the number of pixels the engine sets. -/
def Obligations.LineLaws : Prop :=
  ∀ (s : State) (x1 y1 x2 y2 : Byte),
    exec (.line x1 y1 x2 y2) s = exec (.line x2 y2 x1 y1) s ∧
    ∃ t, exec (.line x1 y1 x2 y2) s = .next t ∧
      (¬ (y1 = y2 ∧ (min x1.toNat x2.toNat > 83 ∨ y1.toNat > 47)) →
        t.fb.pixel (min x1.toNat 83) (min y1.toNat 47) = true ∧
        t.fb.pixel (min x2.toNat 83) (min y2.toNat 47) = true) ∧
      (∀ a, ∃ m, t.fb.read a = s.fb.read a ||| m) ∧
      (lineEnginePoints x1.toNat y1.toNat x2.toNat y2.toNat).length =
        max ((x2.toNat : Int) - x1.toNat).natAbs ((y2.toNat : Int) - y1.toNat).natAbs + 1

/-- R136: RECT turns on the outline: the two horizontal sides where their row exists, the two vertical sides clamped, and
nothing else, for corners in any order and out of bounds too. -/
def Obligations.RectDrawsTheOutline : Prop :=
  ∀ (s : State) (x1 y1 x2 y2 : Byte),
    (∀ rest, decode (0x23#8 :: x1 :: y1 :: x2 :: y2 :: rest) = .ok (.rect x1 y1 x2 y2)) ∧
    ∃ t, exec (.rect x1 y1 x2 y2) s = .next t ∧
      t = { s with pc := s.pc + 5, fb := t.fb } ∧
      (∀ px py, px < 84 → py < 48 →
        (t.fb.pixel px py = true ↔ s.fb.pixel px py = true ∨ onOutline x1 y1 x2 y2 px py)) ∧
      (∀ a, (∀ px py, px < 84 → py < 48 → onOutline x1 y1 x2 y2 px py → a ≠ px + py / 8 * 84) →
        t.fb.read a = s.fb.read a)

/-! ### FontBlitter -/

/-- R151 with R150: the font parser raises where the header or the declared entries do not fit, and else reads the four
header bytes. -/
def Obligations.ParseFontChecksTheWholeTable : Prop :=
  ∀ (font : List Byte) (B : Nat),
    (parseFont font B = none ↔ fontTooLong font B) ∧
    (∀ f, parseFont font B = some f → f.base = B ∧
      font[B]? = some (BitVec.ofNat 8 f.gw) ∧ font[B + 1]? = some (BitVec.ofNat 8 f.gh) ∧
      font[B + 2]? = some (BitVec.ofNat 8 f.off) ∧ font[B + 3]? = some (BitVec.ofNat 8 f.cnt) ∧
      f.gw < 256 ∧ f.gh < 256 ∧ f.off < 256 ∧ f.cnt < 256)

/-- R153, R53: every glyph byte of an in-font character of a parsed font is the FONT byte at
`B + 4 + (c - off) * gw * rows + i * rows + r`, which is inside FONT. -/
def Obligations.GlyphBytesLieInTheFont : Prop :=
  ∀ (font : List Byte) (B : Nat) (f : FontTable) (c : Byte) (i r : Nat),
    parseFont font B = some f → f.inFont c = true → i < f.gw → r < (f.gh + 7) / 8 →
    font[B + 4 + (c.toNat - f.off) * (f.gw * ((f.gh + 7) / 8)) + i * ((f.gh + 7) / 8) + r]? =
      some (glyphByte font f c i r)

/-- R160: PRINTCH sends the default font's glyph bytes as data, inverted where TI is set, and nothing else; a character
outside the font sends nothing; a table that does not fit faults. -/
def Obligations.PrintchSendsTheDefaultGlyph : Prop :=
  ∀ (s : State) (c : Byte),
    (∀ rest, decode (0x30#8 :: c :: rest) = .ok (.printch c)) ∧
    (∀ f, parseFont s.cfg.font s.cfg.defaultFontBase.toNat = some f → f.rows = 1 →
      (f.inFont c = true → transportAccepts s.transport f.gw = true →
        exec (.printch c) s = .next { s with
          pc := s.pc + 2
          wire := s.wire ++ (List.range f.gw).map fun i =>
            .data (if s.ti then ~~~ glyphByte s.cfg.font f c i 0 else glyphByte s.cfg.font f c i 0)
          transport := transportAfter s.transport f.gw }) ∧
      (f.inFont c = false → exec (.printch c) s = .next { s with pc := s.pc + 2 })) ∧
    (fontTooLong s.cfg.font s.cfg.defaultFontBase.toNat →
      exec (.printch c) s = .next (s.recordFault .fontBounds))

/-- R6: with a default font that fits but is not one band high, which R6 rules out, PRINTCH itself is refused. The step
refuses such a configuration before that, so no run from hardware reset comes to it (log entry 7). -/
def Obligations.PrintchRefusesAMultiBandDefaultFont : Prop :=
  ∀ (s : State) (c : Byte) (f : FontTable),
    parseFont s.cfg.font s.cfg.defaultFontBase.toNat = some f → f.rows ≠ 1 →
    exec (.printch c) s = .refused .defaultFontNotSingleBand

/-- R158: PRINTSTR does what the rules of the cursor machine say (`TextRuns`): it sends the emitted glyphs' events in
order and leaves the final position in CUR_X, CUR_ROW and FAILED; it changes nothing else. A font table that does not fit
FONT faults with nothing sent and the cursor not loaded. -/
def Obligations.PrintstrFollowsTheCursorMachine : Prop :=
  ∀ (s : State) (x row : Byte) (fbase : Word) (str : List Byte),
    (str.length < 256 → ∀ rest, decode ([0x31#8, x, row, BitVec.ofNat 8 (fbase.toNat % 256),
      BitVec.ofNat 8 (fbase.toNat / 256), BitVec.ofNat 8 str.length] ++ str ++ rest) =
        .ok (.printstr x row fbase str)) ∧
    (∀ f, parseFont s.cfg.font fbase.toNat = some f →
      (∃ gs q, TextRuns f str ⟨x.toNat, row.toNat, false⟩ gs q) ∧
      ∀ gs q, TextRuns f str ⟨x.toNat, row.toNat, false⟩ gs q →
        transportAccepts s.transport (gs.flatMap fun g => glyphEvents s.cfg.font s.ti f g.1 g.2).length = true →
        exec (.printstr x row fbase str) s = .next { s with
          pc := s.pc + BitVec.ofNat 16 (6 + str.length)
          curX := BitVec.ofNat 8 q.x
          curRow := BitVec.ofNat 8 q.row
          status := if q.failed then s.status ||| 0x01 else s.status &&& 0xFE
          wire := s.wire ++ gs.flatMap fun g => glyphEvents s.cfg.font s.ti f g.1 g.2
          transport := transportAfter s.transport
            (gs.flatMap fun g => glyphEvents s.cfg.font s.ti f g.1 g.2).length }) ∧
    (fontTooLong s.cfg.font fbase.toNat → exec (.printstr x row fbase str) s = .next (s.recordFault .fontBounds))

/-- R156: the events of one glyph: for each band its address, the X address and the glyph's column bytes, then home. -/
def Obligations.AGlyphIsSentBandByBand : Prop :=
  ∀ (font : List Byte) (ti : Bool) (f : FontTable) (p : Cursor) (c : Byte),
    p.x + f.gw ≤ 84 → p.row + f.rows < 6 →
    glyphEvents font ti f p c =
      ((List.range f.rows).flatMap fun r =>
        .command (BitVec.ofNat 8 (0x40 + p.row + r)) :: .command (BitVec.ofNat 8 (0x80 + p.x)) ::
          (List.range f.gw).map fun i =>
            .data (if ti then ~~~ glyphByte font f c i r else glyphByte font f c i r)) ++
      [.command 0x80, .command 0x40] ∧
    (glyphEvents font ti f p c).length = f.rows * (2 + f.gw) + 2

/-- R159: PRINTSTRB does what the rules of the cursor machine say and stores the emitted glyphs' bytes over whole bytes of
the PixelBuffer, the last store to an address being the one that stays; it sends nothing and changes nothing else. A
font table that does not fit FONT faults with nothing stored and the cursor not loaded. -/
def Obligations.PrintstrbFollowsTheCursorMachine : Prop :=
  ∀ (s : State) (x row : Byte) (fbase : Word) (str : List Byte),
    (str.length < 256 → ∀ rest, decode ([0x32#8, x, row, BitVec.ofNat 8 (fbase.toNat % 256),
      BitVec.ofNat 8 (fbase.toNat / 256), BitVec.ofNat 8 str.length] ++ str ++ rest) =
        .ok (.printstrb x row fbase str)) ∧
    (∀ f, parseFont s.cfg.font fbase.toNat = some f →
      (∃ gs q, TextRuns f str ⟨x.toNat, row.toNat, false⟩ gs q) ∧
      ∀ gs q, TextRuns f str ⟨x.toNat, row.toNat, false⟩ gs q →
        ∃ t, exec (.printstrb x row fbase str) s = .next t ∧
        t = { s with
          pc := s.pc + BitVec.ofNat 16 (6 + str.length)
          curX := BitVec.ofNat 8 q.x
          curRow := BitVec.ofNat 8 q.row
          status := if q.failed then s.status ||| 0x01 else s.status &&& 0xFE
          fb := t.fb } ∧
        ∀ a, t.fb.read a =
          (((gs.flatMap fun g => glyphStores s.cfg.font s.ti f g.1 g.2).reverse.find? fun p => p.1 == a).map
            Prod.snd).getD (s.fb.read a)) ∧
    (fontTooLong s.cfg.font fbase.toNat → exec (.printstrb x row fbase str) s = .next (s.recordFault .fontBounds))

/-- R159: a string of one in-font character that passes the guard: each of its bytes is stored at
`(row + r) * 84 + x + i`, inverted where TI is set, and every other byte of the buffer stays. -/
def Obligations.PrintstrbStoresOneGlyph : Prop :=
  ∀ (s : State) (x row : Byte) (fbase : Word) (c : Byte) (f : FontTable),
    parseFont s.cfg.font fbase.toNat = some f → f.inFont c = true →
    x.toNat + f.gw ≤ 84 → row.toNat + f.rows < 6 →
    ∃ t, exec (.printstrb x row fbase [c]) s = .next t ∧ t.failed = false ∧
      (∀ i r, i < f.gw → r < f.rows → t.fb.read ((row.toNat + r) * 84 + x.toNat + i) =
        if s.ti then ~~~ glyphByte s.cfg.font f c i r else glyphByte s.cfg.font f c i r) ∧
      (∀ a, (∀ i r, i < f.gw → r < f.rows → a ≠ (row.toNat + r) * 84 + x.toNat + i) →
        t.fb.read a = s.fb.read a)

/-- R161 (b), R27: every emitted glyph lies wholly in columns 0 to 83 and bands 0 to 4, and the final position fits the
8-bit registers. -/
def Obligations.GlyphsStayOnTheDisplay : Prop :=
  ∀ (f : FontTable) (str : List Byte) (x row : Byte) (gs : List (Cursor × Byte)) (q : Cursor),
    TextRuns f str ⟨x.toNat, row.toNat, false⟩ gs q →
    (∀ g ∈ gs, g.1.x + f.gw ≤ 84 ∧ g.1.row + f.rows ≤ 5 ∧ f.inFont g.2 = true ∧ g.1.failed = false) ∧
    q.x < 256 ∧ q.row < 256

/-- R161 (a): a string of in-font characters that stays on its row ends at `x + gw * len` on that row. -/
def Obligations.AStringThatFitsEndsAfterItsGlyphs : Prop :=
  ∀ (s : State) (x row : Byte) (fbase : Word) (str : List Byte) (f : FontTable),
    parseFont s.cfg.font fbase.toNat = some f → (∀ c ∈ str, f.inFont c = true) →
    x.toNat + f.gw * str.length + f.gw ≤ 84 → row.toNat + f.rows < 6 → s.transport = .ready →
    ∃ t, exec (.printstr x row fbase str) s = .next t ∧
      t.curX.toNat = x.toNat + f.gw * str.length ∧ t.curRow = row ∧ t.failed = false ∧
      t.wire.length = s.wire.length + str.length * (f.rows * (2 + f.gw) + 2)

/-- R161 (e): PRINTSTR, where it completes, and PRINTSTRB with the same operands from the same state end with the same
cursor and flag. -/
def Obligations.BothStringCommandsEndAtTheSameCursor : Prop :=
  ∀ (s t u : State) (x row : Byte) (fbase : Word) (str : List Byte),
    exec (.printstr x row fbase str) s = .next t → t.waiting = none →
    exec (.printstrb x row fbase str) s = .next u → t.curX = u.curX ∧ t.curRow = u.curRow ∧ t.failed = u.failed

/-- R158: a character outside the font is skipped: taking all of them out of the string changes only how far pc moves. -/
def Obligations.CharactersOutsideTheFontAreSkipped : Prop :=
  ∀ (s : State) (x row : Byte) (fbase : Word) (str : List Byte) (f : FontTable),
    parseFont s.cfg.font fbase.toNat = some f → s.transport = .ready →
    ∃ t u, exec (.printstr x row fbase str) s = .next t ∧
      exec (.printstr x row fbase (str.filter f.inFont)) s = .next u ∧
      t = { u with pc := s.pc + BitVec.ofNat 16 (6 + str.length) }

/-- R155, R236 (c): no PRINTSTRB changes a byte of the bottom band. -/
def Obligations.TheBottomBandIsOutOfReachOfStrings : Prop :=
  ∀ (s t : State) (x row : Byte) (fbase : Word) (str : List Byte),
    exec (.printstrb x row fbase str) s = .next t → ∀ a, 420 ≤ a → t.fb.read a = s.fb.read a

/-! ### ScreenController -/

/-- R183: INIT. -/
def Obligations.InitConfiguresAndClears : Prop :=
  ∀ s : State, (∀ rest, decode (0x40#8 :: rest) = .ok .init) ∧
    (transportAccepts s.transport 7 = true → ∃ t, exec .init s = .next t ∧
      t = { s with
        pc := s.pc + 1
        fb := t.fb
        mode := s.mode &&& 0xFC
        wire := s.wire ++ [.rst, .command 0x21, .command 0xCC, .command 0x04, .command 0x14, .command 0x20,
          .command 0x0C]
        transport := transportAfter s.transport 7 } ∧
      ∀ a, a < 504 → t.fb.read a = 0)

/-- R184: SETDINV. -/
def Obligations.SetdinvSelectsThePolarity : Prop :=
  ∀ (s : State) (flag : Byte),
    (∀ rest, decode (0x41#8 :: flag :: rest) = .ok (.setdinv flag)) ∧
    (flag.toNat < 2 → transportAccepts s.transport 1 = true → exec (.setdinv flag) s = .next { s with
      pc := s.pc + 2
      mode := if flag = 1 then s.mode ||| 0x01 else s.mode &&& 0xFE
      wire := s.wire ++ [.command (if flag = 1 then 0x0D else 0x0C)]
      transport := transportAfter s.transport 1 }) ∧
    (2 ≤ flag.toNat → exec (.setdinv flag) s = .next (s.recordFault .operandRange))

/-- R185: SETTINV. -/
def Obligations.SettinvSelectsTheTextInversion : Prop :=
  ∀ (s : State) (flag : Byte),
    (∀ rest, decode (0x42#8 :: flag :: rest) = .ok (.settinv flag)) ∧
    (flag.toNat < 2 → exec (.settinv flag) s = .next { s with
      pc := s.pc + 2
      mode := if flag = 1 then s.mode ||| 0x02 else s.mode &&& 0xFD }) ∧
    (2 ≤ flag.toNat → exec (.settinv flag) s = .next (s.recordFault .operandRange))

/-- R186 with R182: GOTO sends the X address, then the band address. -/
def Obligations.GotoSendsTheTwoAddresses : Prop :=
  ∀ (s : State) (x row : Byte),
    (∀ rest, decode (0x43#8 :: x :: row :: rest) = .ok (.goto x row)) ∧
    (x.toNat ≤ 83 → row.toNat ≤ 5 → transportAccepts s.transport 2 = true → exec (.goto x row) s = .next { s with
      pc := s.pc + 3
      wire := s.wire ++ [.command (BitVec.ofNat 8 (0x80 + x.toNat)), .command (BitVec.ofNat 8 (0x40 + row.toNat))]
      transport := transportAfter s.transport 2 }) ∧
    (x.toNat > 83 ∨ row.toNat > 5 → exec (.goto x row) s = .next (s.recordFault .operandRange))

/-- R187: REFRESH sends home and the 504 bytes, raw, in address order. -/
def Obligations.RefreshSendsTheWholeBuffer : Prop :=
  ∀ s : State, (∀ rest, decode (0x44#8 :: rest) = .ok .refresh) ∧
    (transportAccepts s.transport 506 = true → exec .refresh s = .next { s with
      pc := s.pc + 1
      wire := s.wire ++ ([.command 0x80, .command 0x40] ++ (List.range 504).map fun a => .data (s.fb.read a))
      transport := transportAfter s.transport 506 })

/-- R188: REFRESHR sends, for each band from `ymin div 8` to `ymax div 8`, its address and its bytes `xmin ..= xmax`,
raw; a bad rectangle faults with nothing sent. -/
def Obligations.RefreshrSendsTheTouchedBands : Prop :=
  ∀ (s : State) (xmin ymin xmax ymax : Byte),
    (∀ rest, decode (0x45#8 :: xmin :: ymin :: xmax :: ymax :: rest) = .ok (.refreshr xmin ymin xmax ymax)) ∧
    (xmin.toNat ≤ xmax.toNat → xmax.toNat ≤ 83 → ymin.toNat ≤ ymax.toNat → ymax.toNat ≤ 47 →
      transportAccepts s.transport
        ((2 + xmax.toNat - xmin.toNat + 1) * (ymax.toNat / 8 - ymin.toNat / 8 + 1)) = true →
      exec (.refreshr xmin ymin xmax ymax) s = .next { s with
        pc := s.pc + 5
        wire := s.wire ++ (List.range (ymax.toNat / 8 - ymin.toNat / 8 + 1)).flatMap fun j =>
          .command (BitVec.ofNat 8 (0x80 + xmin.toNat)) ::
          .command (BitVec.ofNat 8 (0x40 + (ymin.toNat / 8 + j))) ::
          (List.range (xmax.toNat - xmin.toNat + 1)).map fun k =>
            .data (s.fb.read ((ymin.toNat / 8 + j) * 84 + (xmin.toNat + k)))
        transport := transportAfter s.transport
          ((2 + xmax.toNat - xmin.toNat + 1) * (ymax.toNat / 8 - ymin.toNat / 8 + 1)) }) ∧
    (xmin.toNat > xmax.toNat ∨ xmax.toNat > 83 ∨ ymin.toNat > ymax.toNat ∨ ymax.toNat > 47 →
      exec (.refreshr xmin ymin xmax ymax) s = .next (s.recordFault .operandRange))

/-- R189: the event counts of the six commands where they complete; none but INIT writes fb, and none writes the cursor, FAILED or RES. -/
def Obligations.ScreenControllerEventCounts : Prop :=
  ∀ (s t : State) (flag x row xmin ymin xmax ymax : Byte),
    (exec .init s = .next t → t.waiting = none → t.wire.length = s.wire.length + 7) ∧
    (flag.toNat < 2 → exec (.setdinv flag) s = .next t → t.waiting = none → t.wire.length = s.wire.length + 1) ∧
    (exec (.settinv flag) s = .next t → t.wire = s.wire) ∧
    (x.toNat ≤ 83 → row.toNat ≤ 5 → exec (.goto x row) s = .next t → t.waiting = none →
      t.wire.length = s.wire.length + 2) ∧
    (exec .refresh s = .next t → t.waiting = none → t.wire.length = s.wire.length + 506) ∧
    (xmin.toNat ≤ xmax.toNat → xmax.toNat ≤ 83 → ymin.toNat ≤ ymax.toNat → ymax.toNat ≤ 47 →
      exec (.refreshr xmin ymin xmax ymax) s = .next t → t.waiting = none →
      t.wire.length = s.wire.length +
        (2 + xmax.toNat - xmin.toNat + 1) * (ymax.toNat / 8 - ymin.toNat / 8 + 1)) ∧
    (∀ i ∈ [Instr.init, .setdinv flag, .settinv flag, .goto x row, .refresh, .refreshr xmin ymin xmax ymax],
      exec i s = .next t → (i ≠ .init → t.fb = s.fb) ∧ t.curX = s.curX ∧ t.curRow = s.curRow ∧
        t.failed = s.failed ∧ t.res = s.res)

/-- R181, R89, R230: the only command bytes a command sends are those of the table, an X address of 0 to 84 and a band
address of 0 to 5; the controller is reset by INIT alone; nothing sends display-blank or display-all-on. -/
def Obligations.OnlyTheListedCommandBytesAreSent : Prop :=
  ∀ (i : Instr) (s t : State), exec i s = .next t → ∀ e ∈ t.wire.drop s.wire.length,
    (e = .rst → i = .init) ∧
    (∀ b, e = .command b → b.toNat ∈ [0x21, 0xCC, 0x04, 0x14, 0x20, 0x0C, 0x0D] ∨
      (0x80 ≤ b.toNat ∧ b.toNat ≤ 0x80 + 84) ∨ (0x40 ≤ b.toNat ∧ b.toNat ≤ 0x40 + 5))

/-! ### The assumed display controller (R64, not normative; log entry 15) -/

/-- Under the ASSUMED sink of R64: the events of INIT leave the controller with contrast 0x4C, temperature coefficient
0, bias 4, the basic set, horizontal addressing, normal video, and the cursor at (0, 0). -/
def Obligations.InitConfiguresTheAssumedSink : Prop :=
  ∀ (s t : State) (k : Sink), exec .init s = .next t → t.waiting = none → ∃ k',
    Sink.receiveAll (t.wire.drop s.wire.length) k = some k' ∧ k'.vop = 0x4C ∧ k'.tempCoef = 0 ∧ k'.bias = 4 ∧
    k'.ext = false ∧ k'.vertical = false ∧ k'.powerDown = false ∧ k'.display = .normal ∧ k'.x = 0 ∧ k'.y = 0

/-- Under the ASSUMED sink of R64: a REFRESH fills the controller's RAM with the PixelBuffer, byte for byte, whatever
the RAM and the cursor were, as long as the controller is in the basic set with horizontal addressing. -/
def Obligations.RefreshCopiesTheBufferToTheAssumedSink : Prop :=
  ∀ (s t : State) (k : Sink), exec .refresh s = .next t → t.waiting = none → k.ext = false → k.vertical = false → ∃ k',
    Sink.receiveAll (t.wire.drop s.wire.length) k = some k' ∧
    (∀ a, a < 504 → k'.dd.read a = s.fb.read a) ∧ k'.x = 0 ∧ k'.y = 0

/-- Under the ASSUMED sink of R64: a REFRESHR copies exactly the bytes of the touched bands between its two columns to the
controller's RAM and leaves every other RAM byte. -/
def Obligations.RefreshrCopiesItsRegionToTheAssumedSink : Prop :=
  ∀ (s t : State) (k : Sink) (xmin ymin xmax ymax : Byte),
    xmin.toNat ≤ xmax.toNat → xmax.toNat ≤ 83 → ymin.toNat ≤ ymax.toNat → ymax.toNat ≤ 47 →
    exec (.refreshr xmin ymin xmax ymax) s = .next t → t.waiting = none → k.ext = false → k.vertical = false → ∃ k',
      Sink.receiveAll (t.wire.drop s.wire.length) k = some k' ∧
      ∀ row x, row ≤ 5 → x ≤ 83 → k'.dd.read (row * 84 + x) =
        if ymin.toNat / 8 ≤ row ∧ row ≤ ymax.toNat / 8 ∧ xmin.toNat ≤ x ∧ x ≤ xmax.toNat
        then s.fb.read (row * 84 + x) else k.dd.read (row * 84 + x)

/-- Under the ASSUMED sink of R64: a PRINTSTR writes into the controller's RAM what a PRINTSTRB with the same operands
writes into a PixelBuffer of the same contents, and leaves the controller's cursor at home if it sent anything (R235).
The font is at least one column wide: a narrower one can send an X address that R64 does not describe (R162). -/
def Obligations.PrintstrShowsWhatPrintstrbStores : Prop :=
  ∀ (s t u : State) (k : Sink) (x row : Byte) (fbase : Word) (str : List Byte) (f : FontTable),
    parseFont s.cfg.font fbase.toNat = some f → 1 ≤ f.gw → k.ext = false → k.vertical = false →
    exec (.printstr x row fbase str) s = .next t → t.waiting = none →
    exec (.printstrb x row fbase str) { s with fb := k.dd } = .next u →
    ∃ k', Sink.receiveAll (t.wire.drop s.wire.length) k = some k' ∧
      (∀ a, a < 504 → k'.dd.read a = u.fb.read a) ∧ (t.wire ≠ s.wire → k'.x = 0 ∧ k'.y = 0)
end

