-- ==== Sys2Proof/Laws/Assembler.lean ====
section
/-! SUPPORT. What each operand form of the assembler accepts (R91). -/

namespace Sys2Proof.Machine

theorem asmBool_ok {o : AsmOperand} {v : Byte} (h : asmBool o = some v) : boolByteOk v = true := by
  unfold asmBool at h
  split at h
  · split at h <;> cases h
    rename_i n hn
    simp only [boolByteOk, BitVec.toNat_ofNat, decide_eq_true_eq]
    omega
  · cases h

theorem asmString_ok {o : AsmOperand} {v : List Byte} (h : asmString o = some v) : stringFits v = true := by
  unfold asmString at h
  split at h
  · split at h <;> cases h
    simp only [stringFits, decide_eq_true_eq]
    omega
  · cases h

theorem asm1_ok {mk : Byte → Instr} {ops : List AsmOperand} {i : Instr} (h : asm1 mk ops = some i) :
    ∃ a, i = mk a := by
  unfold asm1 at h
  split at h
  · obtain ⟨a, -, rfl⟩ := Option.map_eq_some_iff.1 h
    exact ⟨a, rfl⟩
  · cases h

theorem asm2_ok {mk : Byte → Byte → Instr} {ops : List AsmOperand} {i : Instr} (h : asm2 mk ops = some i) :
    ∃ a b, i = mk a b := by
  unfold asm2 at h
  split at h
  · obtain ⟨a, -, h⟩ := Option.bind_eq_some_iff.1 h
    obtain ⟨b, -, rfl⟩ := Option.map_eq_some_iff.1 h
    exact ⟨a, b, rfl⟩
  · cases h

theorem asm3_ok {mk : Byte → Byte → Byte → Instr} {ops : List AsmOperand} {i : Instr}
    (h : asm3 mk ops = some i) : ∃ a b c, i = mk a b c := by
  unfold asm3 at h
  split at h
  · obtain ⟨a, -, h⟩ := Option.bind_eq_some_iff.1 h
    obtain ⟨b, -, h⟩ := Option.bind_eq_some_iff.1 h
    obtain ⟨c, -, rfl⟩ := Option.map_eq_some_iff.1 h
    exact ⟨a, b, c, rfl⟩
  · cases h

theorem asm4_ok {mk : Byte → Byte → Byte → Byte → Instr} {ops : List AsmOperand} {i : Instr}
    (h : asm4 mk ops = some i) : ∃ a b c d, i = mk a b c d := by
  unfold asm4 at h
  split at h
  · obtain ⟨a, -, h⟩ := Option.bind_eq_some_iff.1 h
    obtain ⟨b, -, h⟩ := Option.bind_eq_some_iff.1 h
    obtain ⟨c, -, h⟩ := Option.bind_eq_some_iff.1 h
    obtain ⟨d, -, rfl⟩ := Option.map_eq_some_iff.1 h
    exact ⟨a, b, c, d, rfl⟩
  · cases h

theorem asmText_ok {mk : Byte → Byte → Word → List Byte → Instr} {ops : List AsmOperand} {i : Instr}
    (h : asmText mk ops = some i) : ∃ a b p s, i = mk a b p s ∧ stringFits s = true := by
  unfold asmText at h
  split at h
  · obtain ⟨a, -, h⟩ := Option.bind_eq_some_iff.1 h
    obtain ⟨b, -, h⟩ := Option.bind_eq_some_iff.1 h
    obtain ⟨p, -, h⟩ := Option.bind_eq_some_iff.1 h
    obtain ⟨s, hs, rfl⟩ := Option.map_eq_some_iff.1 h
    exact ⟨a, b, p, s, rfl, asmString_ok hs⟩
  · cases h

end Sys2Proof.Machine
end

