-- ==== Sys2Proof/Laws/State.lean ====
section
/-! SUPPORT. One lemma for each field of State under each named update, so that no proof unfolds a record update. -/

namespace Sys2Proof.Machine

section advance
variable (s : State) (n : Nat)
@[simp] theorem State.advance_pc : (s.advance n).pc = s.pc + BitVec.ofNat 16 n := rfl
@[simp] theorem State.advance_fb : (s.advance n).fb = s.fb := rfl
@[simp] theorem State.advance_mode : (s.advance n).mode = s.mode := rfl
@[simp] theorem State.advance_status : (s.advance n).status = s.status := rfl
@[simp] theorem State.advance_curX : (s.advance n).curX = s.curX := rfl
@[simp] theorem State.advance_curRow : (s.advance n).curRow = s.curRow := rfl
@[simp] theorem State.advance_res : (s.advance n).res = s.res := rfl
@[simp] theorem State.advance_fcause : (s.advance n).fcause = s.fcause := rfl
@[simp] theorem State.advance_fpcLo : (s.advance n).fpcLo = s.fpcLo := rfl
@[simp] theorem State.advance_fpcHi : (s.advance n).fpcHi = s.fpcHi := rfl
@[simp] theorem State.advance_wire : (s.advance n).wire = s.wire := rfl
@[simp] theorem State.advance_waiting : (s.advance n).waiting = s.waiting := rfl
@[simp] theorem State.advance_cfg : (s.advance n).cfg = s.cfg := rfl
@[simp] theorem State.advance_transport : (s.advance n).transport = s.transport := rfl
end advance

section setDi
variable (s : State) (on : Bool)
@[simp] theorem State.setDi_pc : (s.setDi on).pc = s.pc := rfl
@[simp] theorem State.setDi_fb : (s.setDi on).fb = s.fb := rfl
@[simp] theorem State.setDi_mode : (s.setDi on).mode = withBit s.mode 0 on := rfl
@[simp] theorem State.setDi_status : (s.setDi on).status = s.status := rfl
@[simp] theorem State.setDi_curX : (s.setDi on).curX = s.curX := rfl
@[simp] theorem State.setDi_curRow : (s.setDi on).curRow = s.curRow := rfl
@[simp] theorem State.setDi_res : (s.setDi on).res = s.res := rfl
@[simp] theorem State.setDi_fcause : (s.setDi on).fcause = s.fcause := rfl
@[simp] theorem State.setDi_fpcLo : (s.setDi on).fpcLo = s.fpcLo := rfl
@[simp] theorem State.setDi_fpcHi : (s.setDi on).fpcHi = s.fpcHi := rfl
@[simp] theorem State.setDi_wire : (s.setDi on).wire = s.wire := rfl
@[simp] theorem State.setDi_waiting : (s.setDi on).waiting = s.waiting := rfl
@[simp] theorem State.setDi_cfg : (s.setDi on).cfg = s.cfg := rfl
@[simp] theorem State.setDi_transport : (s.setDi on).transport = s.transport := rfl
end setDi

section setTi
variable (s : State) (on : Bool)
@[simp] theorem State.setTi_pc : (s.setTi on).pc = s.pc := rfl
@[simp] theorem State.setTi_fb : (s.setTi on).fb = s.fb := rfl
@[simp] theorem State.setTi_mode : (s.setTi on).mode = withBit s.mode 1 on := rfl
@[simp] theorem State.setTi_status : (s.setTi on).status = s.status := rfl
@[simp] theorem State.setTi_curX : (s.setTi on).curX = s.curX := rfl
@[simp] theorem State.setTi_curRow : (s.setTi on).curRow = s.curRow := rfl
@[simp] theorem State.setTi_res : (s.setTi on).res = s.res := rfl
@[simp] theorem State.setTi_fcause : (s.setTi on).fcause = s.fcause := rfl
@[simp] theorem State.setTi_fpcLo : (s.setTi on).fpcLo = s.fpcLo := rfl
@[simp] theorem State.setTi_fpcHi : (s.setTi on).fpcHi = s.fpcHi := rfl
@[simp] theorem State.setTi_wire : (s.setTi on).wire = s.wire := rfl
@[simp] theorem State.setTi_waiting : (s.setTi on).waiting = s.waiting := rfl
@[simp] theorem State.setTi_cfg : (s.setTi on).cfg = s.cfg := rfl
@[simp] theorem State.setTi_transport : (s.setTi on).transport = s.transport := rfl
end setTi

section setFailed
variable (s : State) (on : Bool)
@[simp] theorem State.setFailed_pc : (s.setFailed on).pc = s.pc := rfl
@[simp] theorem State.setFailed_fb : (s.setFailed on).fb = s.fb := rfl
@[simp] theorem State.setFailed_mode : (s.setFailed on).mode = s.mode := rfl
@[simp] theorem State.setFailed_status : (s.setFailed on).status = withBit s.status 0 on := rfl
@[simp] theorem State.setFailed_curX : (s.setFailed on).curX = s.curX := rfl
@[simp] theorem State.setFailed_curRow : (s.setFailed on).curRow = s.curRow := rfl
@[simp] theorem State.setFailed_res : (s.setFailed on).res = s.res := rfl
@[simp] theorem State.setFailed_fcause : (s.setFailed on).fcause = s.fcause := rfl
@[simp] theorem State.setFailed_fpcLo : (s.setFailed on).fpcLo = s.fpcLo := rfl
@[simp] theorem State.setFailed_fpcHi : (s.setFailed on).fpcHi = s.fpcHi := rfl
@[simp] theorem State.setFailed_wire : (s.setFailed on).wire = s.wire := rfl
@[simp] theorem State.setFailed_waiting : (s.setFailed on).waiting = s.waiting := rfl
@[simp] theorem State.setFailed_cfg : (s.setFailed on).cfg = s.cfg := rfl
@[simp] theorem State.setFailed_transport : (s.setFailed on).transport = s.transport := rfl
end setFailed

section setFault
variable (s : State) (on : Bool)
@[simp] theorem State.setFault_pc : (s.setFault on).pc = s.pc := rfl
@[simp] theorem State.setFault_fb : (s.setFault on).fb = s.fb := rfl
@[simp] theorem State.setFault_mode : (s.setFault on).mode = s.mode := rfl
@[simp] theorem State.setFault_status : (s.setFault on).status = withBit s.status 1 on := rfl
@[simp] theorem State.setFault_curX : (s.setFault on).curX = s.curX := rfl
@[simp] theorem State.setFault_curRow : (s.setFault on).curRow = s.curRow := rfl
@[simp] theorem State.setFault_res : (s.setFault on).res = s.res := rfl
@[simp] theorem State.setFault_fcause : (s.setFault on).fcause = s.fcause := rfl
@[simp] theorem State.setFault_fpcLo : (s.setFault on).fpcLo = s.fpcLo := rfl
@[simp] theorem State.setFault_fpcHi : (s.setFault on).fpcHi = s.fpcHi := rfl
@[simp] theorem State.setFault_wire : (s.setFault on).wire = s.wire := rfl
@[simp] theorem State.setFault_waiting : (s.setFault on).waiting = s.waiting := rfl
@[simp] theorem State.setFault_cfg : (s.setFault on).cfg = s.cfg := rfl
@[simp] theorem State.setFault_transport : (s.setFault on).transport = s.transport := rfl
end setFault

section recordFault
variable (s : State) (k : FaultCause)
@[simp] theorem State.recordFault_pc : (s.recordFault k).pc = s.pc := rfl
@[simp] theorem State.recordFault_fb : (s.recordFault k).fb = s.fb := rfl
@[simp] theorem State.recordFault_mode : (s.recordFault k).mode = s.mode := rfl
@[simp] theorem State.recordFault_status : (s.recordFault k).status = withBit s.status 1 true := rfl
@[simp] theorem State.recordFault_curX : (s.recordFault k).curX = s.curX := rfl
@[simp] theorem State.recordFault_curRow : (s.recordFault k).curRow = s.curRow := rfl
@[simp] theorem State.recordFault_res : (s.recordFault k).res = s.res := rfl
@[simp] theorem State.recordFault_fcause : (s.recordFault k).fcause = k.code := rfl
@[simp] theorem State.recordFault_fpcLo : (s.recordFault k).fpcLo = s.pc.extractLsb' 0 8 := rfl
@[simp] theorem State.recordFault_fpcHi : (s.recordFault k).fpcHi = s.pc.extractLsb' 8 8 := rfl
@[simp] theorem State.recordFault_wire : (s.recordFault k).wire = s.wire := rfl
@[simp] theorem State.recordFault_waiting : (s.recordFault k).waiting = s.waiting := rfl
@[simp] theorem State.recordFault_cfg : (s.recordFault k).cfg = s.cfg := rfl
@[simp] theorem State.recordFault_transport : (s.recordFault k).transport = s.transport := rfl
end recordFault

section loadCursor
variable (s : State) (p : Cursor)
@[simp] theorem State.loadCursor_pc : (s.loadCursor p).pc = s.pc := rfl
@[simp] theorem State.loadCursor_fb : (s.loadCursor p).fb = s.fb := rfl
@[simp] theorem State.loadCursor_mode : (s.loadCursor p).mode = s.mode := rfl
@[simp] theorem State.loadCursor_status : (s.loadCursor p).status = withBit s.status 0 p.failed := rfl
@[simp] theorem State.loadCursor_curX : (s.loadCursor p).curX = BitVec.ofNat 8 p.x := rfl
@[simp] theorem State.loadCursor_curRow : (s.loadCursor p).curRow = BitVec.ofNat 8 p.row := rfl
@[simp] theorem State.loadCursor_res : (s.loadCursor p).res = s.res := rfl
@[simp] theorem State.loadCursor_fcause : (s.loadCursor p).fcause = s.fcause := rfl
@[simp] theorem State.loadCursor_fpcLo : (s.loadCursor p).fpcLo = s.fpcLo := rfl
@[simp] theorem State.loadCursor_fpcHi : (s.loadCursor p).fpcHi = s.fpcHi := rfl
@[simp] theorem State.loadCursor_wire : (s.loadCursor p).wire = s.wire := rfl
@[simp] theorem State.loadCursor_waiting : (s.loadCursor p).waiting = s.waiting := rfl
@[simp] theorem State.loadCursor_cfg : (s.loadCursor p).cfg = s.cfg := rfl
@[simp] theorem State.loadCursor_transport : (s.loadCursor p).transport = s.transport := rfl
end loadCursor

section setFb
variable (s : State) (b : PixelBuffer)
@[simp] theorem State.setFb_pc : (s.setFb b).pc = s.pc := rfl
@[simp] theorem State.setFb_fb : (s.setFb b).fb = b := rfl
@[simp] theorem State.setFb_mode : (s.setFb b).mode = s.mode := rfl
@[simp] theorem State.setFb_status : (s.setFb b).status = s.status := rfl
@[simp] theorem State.setFb_curX : (s.setFb b).curX = s.curX := rfl
@[simp] theorem State.setFb_curRow : (s.setFb b).curRow = s.curRow := rfl
@[simp] theorem State.setFb_res : (s.setFb b).res = s.res := rfl
@[simp] theorem State.setFb_fcause : (s.setFb b).fcause = s.fcause := rfl
@[simp] theorem State.setFb_fpcLo : (s.setFb b).fpcLo = s.fpcLo := rfl
@[simp] theorem State.setFb_fpcHi : (s.setFb b).fpcHi = s.fpcHi := rfl
@[simp] theorem State.setFb_wire : (s.setFb b).wire = s.wire := rfl
@[simp] theorem State.setFb_waiting : (s.setFb b).waiting = s.waiting := rfl
@[simp] theorem State.setFb_cfg : (s.setFb b).cfg = s.cfg := rfl
@[simp] theorem State.setFb_transport : (s.setFb b).transport = s.transport := rfl
end setFb

section setRes
variable (s : State) (v : Byte)
@[simp] theorem State.setRes_pc : (s.setRes v).pc = s.pc := rfl
@[simp] theorem State.setRes_fb : (s.setRes v).fb = s.fb := rfl
@[simp] theorem State.setRes_mode : (s.setRes v).mode = s.mode := rfl
@[simp] theorem State.setRes_status : (s.setRes v).status = s.status := rfl
@[simp] theorem State.setRes_curX : (s.setRes v).curX = s.curX := rfl
@[simp] theorem State.setRes_curRow : (s.setRes v).curRow = s.curRow := rfl
@[simp] theorem State.setRes_res : (s.setRes v).res = v := rfl
@[simp] theorem State.setRes_fcause : (s.setRes v).fcause = s.fcause := rfl
@[simp] theorem State.setRes_fpcLo : (s.setRes v).fpcLo = s.fpcLo := rfl
@[simp] theorem State.setRes_fpcHi : (s.setRes v).fpcHi = s.fpcHi := rfl
@[simp] theorem State.setRes_wire : (s.setRes v).wire = s.wire := rfl
@[simp] theorem State.setRes_waiting : (s.setRes v).waiting = s.waiting := rfl
@[simp] theorem State.setRes_cfg : (s.setRes v).cfg = s.cfg := rfl
@[simp] theorem State.setRes_transport : (s.setRes v).transport = s.transport := rfl
end setRes

section sent
variable (s : State) (events : List WireEvent)
@[simp] theorem State.sent_pc : (s.sent events).pc = s.pc := rfl
@[simp] theorem State.sent_fb : (s.sent events).fb = s.fb := rfl
@[simp] theorem State.sent_mode : (s.sent events).mode = s.mode := rfl
@[simp] theorem State.sent_status : (s.sent events).status = s.status := rfl
@[simp] theorem State.sent_curX : (s.sent events).curX = s.curX := rfl
@[simp] theorem State.sent_curRow : (s.sent events).curRow = s.curRow := rfl
@[simp] theorem State.sent_res : (s.sent events).res = s.res := rfl
@[simp] theorem State.sent_fcause : (s.sent events).fcause = s.fcause := rfl
@[simp] theorem State.sent_fpcLo : (s.sent events).fpcLo = s.fpcLo := rfl
@[simp] theorem State.sent_fpcHi : (s.sent events).fpcHi = s.fpcHi := rfl
@[simp] theorem State.sent_wire : (s.sent events).wire = s.wire ++ events := rfl
@[simp] theorem State.sent_waiting : (s.sent events).waiting = s.waiting := rfl
@[simp] theorem State.sent_cfg : (s.sent events).cfg = s.cfg := rfl
@[simp] theorem State.sent_transport : (s.sent events).transport = transportAfter s.transport events.length := rfl
end sent

section stall
variable (s : State) (events : List WireEvent)
@[simp] theorem State.stall_pc : (s.stall events).pc = s.pc := rfl
@[simp] theorem State.stall_fb : (s.stall events).fb = s.fb := rfl
@[simp] theorem State.stall_mode : (s.stall events).mode = s.mode := rfl
@[simp] theorem State.stall_status : (s.stall events).status = s.status := rfl
@[simp] theorem State.stall_curX : (s.stall events).curX = s.curX := rfl
@[simp] theorem State.stall_curRow : (s.stall events).curRow = s.curRow := rfl
@[simp] theorem State.stall_res : (s.stall events).res = s.res := rfl
@[simp] theorem State.stall_fcause : (s.stall events).fcause = s.fcause := rfl
@[simp] theorem State.stall_fpcLo : (s.stall events).fpcLo = s.fpcLo := rfl
@[simp] theorem State.stall_fpcHi : (s.stall events).fpcHi = s.fpcHi := rfl
@[simp] theorem State.stall_wire : (s.stall events).wire = s.wire ++ acceptedEvents s.transport events := rfl
@[simp] theorem State.stall_waiting : (s.stall events).waiting = blockedEvent s.transport events := rfl
@[simp] theorem State.stall_cfg : (s.stall events).cfg = s.cfg := rfl
@[simp] theorem State.stall_transport : (s.stall events).transport = .accepts 0 := rfl
end stall

@[simp] theorem State.raise_eq (k : FaultCause) (s : State) : s.raise k = .next (s.recordFault k) := rfl

end Sys2Proof.Machine
end

