-- ==== Sys2Proof/Laws/Bits.lean ====
section
/-! SUPPORT. What the bit operations and the Boolean operand do. -/

namespace Sys2Proof.Machine

/-- `withBit` sets its bit and keeps every other. -/
theorem getLsbD_withBit (v : Byte) (k j : Nat) (on : Bool) (hk : k < 8) :
    (withBit v k on).getLsbD j = if j = k then on else v.getLsbD j := by
  have h1 : (1#8 <<< k).getLsbD j = decide (j = k) := by
    rw [BitVec.getLsbD_shiftLeft, BitVec.getLsbD_one]
    by_cases h : j = k
    · subst h; simp [hk]
    · have hne : ¬ (j - k = 0 ∧ k ≤ j) := by omega
      simp only [h, decide_false]
      by_cases hj : k ≤ j
      · simp [show j - k ≠ 0 by omega]
      · simp [show j < k by omega]
  unfold withBit
  cases on <;> simp only [Bool.false_eq_true, if_false, if_true]
  · rw [BitVec.getLsbD_and, BitVec.getLsbD_not, h1]
    by_cases h : j = k
    · simp [h]
    · by_cases hj : j < 8
      · simp [h, hj]
      · simp [h, hj, BitVec.getLsbD_of_ge v j (by omega)]
  · rw [BitVec.getLsbD_or, h1]
    by_cases h : j = k <;> simp [h]

/-- Two bytes with the same eight bits are equal. -/
theorem byte_ext {v w : Byte} (h : ∀ k < 8, v.getLsbD k = w.getLsbD k) : v = w :=
  BitVec.eq_of_getLsbD_eq fun k hk => h k hk

/-- Writing a bit twice is writing it once. -/
theorem withBit_withBit (v : Byte) (k : Nat) (a on : Bool) (hk : k < 8) :
    withBit (withBit v k a) k on = withBit v k on := by
  apply byte_ext
  intro j _
  simp only [getLsbD_withBit _ _ _ _ hk]
  split <;> rfl

/-- The reserved bits of a Boolean operand are clear exactly where its byte is 0 or 1 (R84, R88). -/
theorem reservedBitSet_iff (v : Byte) : reservedBitSet v = true ↔ 2 ≤ v.toNat := by
  revert v; decide

/-- A Boolean operand with its reserved bits clear is true exactly where its byte is 1. -/
theorem boolOperand_of_lt {v : Byte} (h : v.toNat < 2) : boolOperand v = decide (v = 1) := by
  revert v; decide

@[simp] theorem State.faulted_recordFault (k : FaultCause) (s : State) : (s.recordFault k).faulted = true := by
  simp only [State.faulted, State.recordFault_status]
  rw [getLsbD_withBit _ _ _ _ (by omega), if_pos rfl]

@[simp] theorem State.faulted_advance (n : Nat) (s : State) : (s.advance n).faulted = s.faulted := rfl

@[simp] theorem State.faulted_loadCursor (p : Cursor) (s : State) : (s.loadCursor p).faulted = s.faulted := by
  simp only [State.faulted, State.loadCursor_status]
  rw [getLsbD_withBit _ _ _ _ (by omega), if_neg (by omega)]

@[simp] theorem State.failed_loadCursor (p : Cursor) (s : State) : (s.loadCursor p).failed = p.failed := by
  simp only [State.failed, State.loadCursor_status]
  rw [getLsbD_withBit _ _ _ _ (by omega), if_pos rfl]

@[simp] theorem State.faulted_setDi (on : Bool) (s : State) : (s.setDi on).faulted = s.faulted := rfl

@[simp] theorem State.faulted_setTi (on : Bool) (s : State) : (s.setTi on).faulted = s.faulted := rfl

@[simp] theorem State.faulted_setFb (b : PixelBuffer) (s : State) : (s.setFb b).faulted = s.faulted := rfl

@[simp] theorem State.faulted_setRes (v : Byte) (s : State) : (s.setRes v).faulted = s.faulted := rfl

@[simp] theorem State.faulted_sent (events : List WireEvent) (s : State) : (s.sent events).faulted = s.faulted := rfl

/-- The recorded FPC is the `pc` of the faulting command (R202). -/
@[simp] theorem State.fpc_recordFault (k : FaultCause) (s : State) : (s.recordFault k).fpc = s.pc := by
  simp only [State.fpc, State.recordFault_fpcHi, State.recordFault_fpcLo]
  apply BitVec.eq_of_getLsbD_eq
  intro i hi
  simp only [BitVec.getLsbD_append, BitVec.getLsbD_extractLsb']
  by_cases h : i < 8
  · simp [h]
  · simp only [h, decide_false, show i - 8 < 8 by omega, decide_true, Bool.true_and,
      show 8 + (i - 8) = i by omega]
    simp

/-- `withBit` on one of the two low bits leaves the hardwired bits of a status register alone. -/
theorem hardwired_withBit (v : Byte) (k : Nat) (on : Bool) (hk : k < 2) (h : v.extractLsb' 2 6 = 0) :
    (withBit v k on).extractLsb' 2 6 = 0 := by
  apply BitVec.eq_of_getLsbD_eq
  intro i hi
  have := congrArg (fun u : BitVec 6 => u.getLsbD i) h
  simp only [BitVec.getLsbD_extractLsb'] at this ⊢
  rw [getLsbD_withBit _ _ _ _ (by omega), if_neg (by omega)]
  exact this

end Sys2Proof.Machine
end

