-- ==== Sys2Proof/Laws/Decode.lean ====
section
/-! SUPPORT. What each operand format decodes and encodes, said once (R81, R84, R85, R87). -/

namespace Sys2Proof

/-- The two bytes of a word, put together again, are the word (R84). -/
theorem wordOfBytes_extract (w : Word) : wordOfBytes (w.extractLsb' 0 8) (w.extractLsb' 8 8) = w := by
  unfold wordOfBytes
  apply BitVec.eq_of_getLsbD_eq
  intro i hi
  simp only [BitVec.getLsbD_append, BitVec.getLsbD_extractLsb']
  by_cases h : i < 8
  · simp [h]
  · simp [h, show i - 8 < 8 by omega, show 8 + (i - 8) = i by omega]

theorem wordOfBytes_lo (lo hi : Byte) : (wordOfBytes lo hi).extractLsb' 0 8 = lo := by
  apply BitVec.eq_of_getLsbD_eq
  intro i h
  rw [BitVec.getLsbD_extractLsb', wordOfBytes, BitVec.getLsbD_append]
  simp [h]

theorem wordOfBytes_hi (lo hi : Byte) : (wordOfBytes lo hi).extractLsb' 8 8 = hi := by
  apply BitVec.eq_of_getLsbD_eq
  intro i h
  rw [BitVec.getLsbD_extractLsb', wordOfBytes, BitVec.getLsbD_append]
  simp [h]

theorem decodeF1_ok {mk : Byte → Instr} {bs : List Byte} {i : Instr} (h : decodeF1 mk bs = .ok i) :
    ∃ a r, bs = a :: r ∧ i = mk a := by
  unfold decodeF1 at h
  split at h <;> cases h
  exact ⟨_, _, rfl, rfl⟩

theorem decodeF2_ok {mk : Byte → Byte → Instr} {bs : List Byte} {i : Instr} (h : decodeF2 mk bs = .ok i) :
    ∃ a b r, bs = a :: b :: r ∧ i = mk a b := by
  unfold decodeF2 at h
  split at h <;> cases h
  exact ⟨_, _, _, rfl, rfl⟩

theorem decodeF3_ok {mk : Byte → Byte → Byte → Instr} {bs : List Byte} {i : Instr}
    (h : decodeF3 mk bs = .ok i) : ∃ a b c r, bs = a :: b :: c :: r ∧ i = mk a b c := by
  unfold decodeF3 at h
  split at h <;> cases h
  exact ⟨_, _, _, _, rfl, rfl⟩

theorem decodeF4_ok {mk : Byte → Byte → Byte → Byte → Instr} {bs : List Byte} {i : Instr}
    (h : decodeF4 mk bs = .ok i) : ∃ a b c d r, bs = a :: b :: c :: d :: r ∧ i = mk a b c d := by
  unfold decodeF4 at h
  split at h <;> cases h
  exact ⟨_, _, _, _, _, rfl, rfl⟩

/-- What decodes in format FS begins with the encoding of its operands. -/
theorem decodeFS_ok {mk : Byte → Byte → Word → List Byte → Instr} {bs : List Byte} {i : Instr}
    (h : decodeFS mk bs = .ok i) :
    ∃ a b p s, i = mk a b p s ∧ s.length < 256 ∧ 5 + s.length ≤ bs.length ∧
      encodeFS a b p s = bs.take (5 + s.length) := by
  unfold decodeFS at h
  split at h
  · rename_i a b lo hi n s
    split at h
    · cases h
    · cases h
      have hl : (List.take n.toNat s).length = n.toNat := by rw [List.length_take]; omega
      refine ⟨_, _, _, _, rfl, ?_, ?_, ?_⟩ <;> rw [hl]
      · exact n.isLt
      · simp only [List.length_cons]; omega
      · simp only [encodeFS, wordOfBytes_lo, wordOfBytes_hi, hl, BitVec.ofNat_toNat, BitVec.setWidth_eq,
          show 5 + n.toNat = n.toNat + 1 + 1 + 1 + 1 + 1 by omega, List.take_succ_cons]
        rfl
  · cases h

/-- Format FS decodes what it encodes, whatever follows. -/
theorem decodeFS_encodeFS (mk : Byte → Byte → Word → List Byte → Instr) (x row : Byte) (fbase : Word)
    (str rest : List Byte) (h : str.length < 256) :
    decodeFS mk (encodeFS x row fbase str ++ rest) = .ok (mk x row fbase str) := by
  simp only [encodeFS, List.cons_append, List.nil_append, decodeFS, BitVec.toNat_ofNat]
  rw [Nat.mod_eq_of_lt (by omega), if_neg (by simp), wordOfBytes_extract]
  simp

/-- Format FS cut short is truncated (R87). -/
theorem decodeFS_take (mk : Byte → Byte → Word → List Byte → Instr) (x row : Byte) (fbase : Word)
    (str : List Byte) (k : Nat) (h : str.length < 256) (hk : k < 5 + str.length) :
    decodeFS mk ((encodeFS x row fbase str).take k) = .error .truncated := by
  unfold encodeFS
  rcases k with _ | _ | _ | _ | _ | k
  iterate 5 rfl
  simp only [List.cons_append, List.nil_append, List.take_succ_cons, decodeFS, BitVec.toNat_ofNat]
  rw [Nat.mod_eq_of_lt (by omega), if_pos (by rw [List.length_take]; omega)]

/-- No operand format answers an illegal opcode: only the opcode map does (R86). -/
theorem decodeLayout_ne_illegal (row : Layout) (bs : List Byte) : decodeLayout row bs ≠ .error .illegalOpcode := by
  intro h
  cases row <;> simp only [decodeLayout] at h
  · cases h
  · unfold decodeF1 at h; split at h <;> cases h
  · unfold decodeF2 at h; split at h <;> cases h
  · unfold decodeF3 at h; split at h <;> cases h
  · unfold decodeF4 at h; split at h <;> cases h
  · unfold decodeFS at h
    split at h
    · split at h <;> cases h
    · cases h

/-- A row that the lookup answers is a row of the table. -/
theorem mem_of_lookup_eq_some {table : List (Byte × Layout)} {op : Byte} {row : Layout}
    (h : table.lookup op = some row) : (op, row) ∈ table := by
  induction table with
  | nil => cases h
  | cons r rs ih =>
    obtain ⟨a, l⟩ := r
    rw [List.lookup_cons] at h
    by_cases ha : op = a
    · subst ha
      simp only [beq_self_eq_true, Option.some.injEq] at h
      simp [h]
    · have hb : (op == a) = false := beq_eq_false_iff_ne.2 ha
      rw [hb] at h
      exact List.mem_cons_of_mem _ (ih h)

/-- What decodes is a row of the opcode map, read in its format (R83). -/
theorem decode_ok {op : Byte} {operands : List Byte} {i : Instr} (h : decode (op :: operands) = .ok i) :
    ∃ row, (op, row) ∈ opcodeTable ∧ decodeLayout row operands = .ok i := by
  simp only [decode, decodeOpcode] at h
  split at h
  · rename_i row hrow
    exact ⟨row, mem_of_lookup_eq_some hrow, h⟩
  · cases h

/-- No two rows of the opcode map share an opcode (R83). -/
theorem opcodeTable_nodup : (opcodeTable.map Prod.fst).Nodup := by decide

/-- The encoder's opcodes are the decoder's: each command's row is found under its opcode (R82, R83). -/
theorem decode_of_lookup {op : Byte} {row : Layout} (h : opcodeTable.lookup op = some row) (operands : List Byte) :
    decode (op :: operands) = decodeLayout row operands := by
  simp only [decode, decodeOpcode, h]

end Sys2Proof
end

