-- ==== Sys2Proof/Laws/Configuration.lean ====
section
/-! SUPPORT. What the configuration check of R6 says, and that a run meets the program's commands alone. -/

namespace Sys2Proof

open Sys2Proof.Machine

/-- A row of the opcode map makes commands of the length that R81 gives its format. -/
def Layout.Sized : Layout → Prop
  | .f0 mk => mk.size = 1
  | .f1 mk => ∀ a, (mk a).size = 2
  | .f2 mk => ∀ a b, (mk a b).size = 3
  | .f3 mk => ∀ a b c, (mk a b c).size = 4
  | .f4 mk => ∀ a b c d, (mk a b c d).size = 5
  | .fs mk => ∀ x row fbase str, (mk x row fbase str).size = 6 + str.length

/-- Every row of the opcode map is of that kind (R81, R82). -/
theorem opcodeTable_sized : ∀ entry ∈ opcodeTable, entry.2.Sized := by
  simp [opcodeTable, Layout.Sized, Instr.size]

/-- What a row of that kind decodes has its opcode byte and its operand bytes, all of them there (R81, R87). -/
theorem Layout.Sized.size_le {row : Layout} (h : row.Sized) {operands : List Byte} {i : Instr}
    (hi : decodeLayout row operands = .ok i) :
    i.size ≤ operands.length + 1 ∧ 1 ≤ i.size ∧ i.size ≤ longestCommand := by
  unfold longestCommand
  cases row <;> simp only [decodeLayout] at hi <;> simp only [Layout.Sized] at h
  case f0 mk => cases hi; omega
  case f1 mk =>
    obtain ⟨a, rest, hb, rfl⟩ := decodeF1_ok hi
    rw [h, hb, List.length_cons]
    omega
  case f2 mk =>
    obtain ⟨a, b, rest, hb, rfl⟩ := decodeF2_ok hi
    simp only [h, hb, List.length_cons]
    omega
  case f3 mk =>
    obtain ⟨a, b, c, rest, hb, rfl⟩ := decodeF3_ok hi
    simp only [h, hb, List.length_cons]
    omega
  case f4 mk =>
    obtain ⟨a, b, c, d, rest, hb, rfl⟩ := decodeF4_ok hi
    simp only [h, hb, List.length_cons]
    omega
  case fs mk =>
    obtain ⟨x, row, fbase, str, rfl, hs, hl, -⟩ := decodeFS_ok hi
    rw [h]
    omega

/-- A command's bytes are within the stream it was decoded from, at least one and at most 261 of them (R81, R87). -/
theorem size_of_decode {bs : List Byte} {i : Instr} (h : decode bs = .ok i) :
    i.size ≤ bs.length ∧ 1 ≤ i.size ∧ i.size ≤ longestCommand := by
  cases bs with
  | nil => cases h
  | cons op operands =>
    obtain ⟨row, hrow, hi⟩ := decode_ok h
    exact (opcodeTable_sized _ hrow).size_le hi

/-- PRINTCH is the command with opcode 0x30 (R82). -/
theorem Instr.isPrintch_iff (i : Instr) : i.isPrintch = true ↔ ∃ c, i = .printch c := by
  cases i <;> simp [Instr.isPrintch, Instr.opcode]

/-- The constraint of R6 on the default font, as a statement. -/
theorem RunConfig.defaultFontOk_iff (c : RunConfig) :
    c.defaultFontOk = true ↔ ∃ f, parseFont c.font c.defaultFontBase.toNat = some f ∧ f.rows = 1 := by
  unfold RunConfig.defaultFontOk
  split <;> simp_all

/-- The sizes of R6, as a statement. -/
theorem RunConfig.sizesOk_iff (c : RunConfig) :
    c.sizesOk = true ↔ c.font.length ≤ 65536 ∧ c.cmd.length ≤ 65535 := by
  simp [RunConfig.sizesOk]

/-- The configurations R6 allows, as a statement. -/
theorem RunConfig.wf_iff (c : RunConfig) :
    c.wf = true ↔ c.font.length ≤ 65536 ∧ c.cmd.length ≤ 65535 ∧
      ((∃ ch, Instr.printch ch ∈ c.program) → c.defaultFontOk = true) := by
  have h : (∃ ch, Instr.printch ch ∈ c.program) ↔ c.program.any Instr.isPrintch = true := by
    simp only [List.any_eq_true, Instr.isPrintch_iff]
    exact ⟨fun ⟨ch, h⟩ => ⟨_, h, ch, rfl⟩, fun ⟨_, h, ch, e⟩ => ⟨ch, e ▸ h⟩⟩
  rw [RunConfig.wf, Bool.and_eq_true, RunConfig.sizesOk_iff, h, and_assoc]
  cases c.program.any Instr.isPrintch <;> simp

/-- The addresses at which a command begins in a run from the stream's first byte (R80, R90). -/
inductive CommandStart (cmd : List Byte) : Nat → Prop where
  /-- The run begins at `CMD[0]` (R33). -/
  | first : CommandStart cmd 0
  /-- The next command begins where the one before it ends. -/
  | next {n : Nat} {i : Instr} :
      CommandStart cmd n → decode (cmd.drop n) = .ok i → CommandStart cmd (n + i.size)

/-- From a command's first byte on, the commands of the stream are commands of the program. -/
theorem CommandStart.programOf_subset {cmd : List Byte} {n : Nat} (h : CommandStart cmd n) :
    ∃ fuel, cmd.length ≤ n + fuel ∧ ∀ j ∈ programOf fuel (cmd.drop n), j ∈ programOf cmd.length cmd := by
  induction h with
  | first => exact ⟨cmd.length, by omega, by simp⟩
  | @next n i _ hi ih =>
    obtain ⟨fuel, hf, ih⟩ := ih
    have hs := size_of_decode hi
    rw [List.length_drop] at hs
    cases fuel with
    | zero => omega
    | succ fuel =>
      refine ⟨fuel, by omega, fun j hj => ih j ?_⟩
      simp only [programOf, hi]
      exact List.mem_cons_of_mem _ (by rwa [List.drop_drop])

/-- A command that a run fetches is one of the program's (R6, R90). -/
theorem CommandStart.mem_program {c : RunConfig} {n : Nat} {i : Instr} (h : CommandStart c.cmd n)
    (hi : decode (c.cmd.drop n) = .ok i) : i ∈ c.program := by
  obtain ⟨fuel, hf, hp⟩ := h.programOf_subset
  have hs := size_of_decode hi
  rw [List.length_drop] at hs
  cases fuel with
  | zero => omega
  | succ fuel =>
    apply hp
    simp only [programOf, hi]
    exact List.mem_cons_self

end Sys2Proof
end

