-- ==== Sys2Proof/Laws/Memory.lean ====
section
/-! SUPPORT. What the operations on the FB space do: read after write, the canonical form, the pixel view. -/

namespace Sys2Proof.Machine

/-- One insertion, read anywhere. -/
theorem Memory.find_insert (m : Memory) (a c : Nat) (v : Byte) :
    Memory.find (Memory.insert m a v) c = if c = a then some v else Memory.find m c := by
  induction m with
  | nil => simp only [Memory.insert, Memory.find]
  | cons p cs ih =>
    obtain ⟨b, w⟩ := p
    simp only [Memory.insert]
    split
    · simp only [Memory.find]
    · split
      · rename_i h; subst h
        simp only [Memory.find]
        split <;> simp_all
      · rename_i h1 h2
        simp only [Memory.find, ih]
        split
        · rename_i h; subst h; simp [Ne.symm h2]
        · rfl

/-- An address below every listed one is not listed. -/
theorem Memory.find_eq_none (m : Memory) (a : Nat) (h : ∀ c ∈ m, c.1 ≠ a) : Memory.find m a = none := by
  induction m with
  | nil => rfl
  | cons p cs ih =>
    simp only [Memory.find]
    rw [if_neg (fun e => h p (by simp) e.symm)]
    exact ih fun c hc => h c (by simp [hc])

theorem Memory.mem_insert {m : Memory} {a : Nat} {v : Byte} {c : Host.Cell}
    (h : c ∈ Memory.insert m a v) : c = (a, v) ∨ c ∈ m := by
  induction m with
  | nil => simpa [Memory.insert] using h
  | cons p cs ih =>
    simp only [Memory.insert] at h
    split at h
    · simpa using h
    · split at h
      · rcases List.mem_cons.1 h with h | h
        · exact .inl h
        · exact .inr (by simp [h])
      · rcases List.mem_cons.1 h with h | h
        · exact .inr (by simp [h])
        · exact (ih h).imp id fun h => by simp [h]

/-- A write at an address that exists keeps the canonical form (R51). -/
theorem Memory.wf_insert {m : Memory} {a : Nat} {v : Byte} (h : Memory.wf m) (ha : a < 504) :
    Memory.wf (Memory.insert m a v) := by
  obtain ⟨hp, hlt⟩ := h
  refine ⟨?_, fun c hc => ?_⟩
  · clear hlt
    induction m with
    | nil => simp [Memory.insert]
    | cons p cs ih =>
      obtain ⟨hhead, htail⟩ := List.pairwise_cons.1 hp
      simp only [Memory.insert]
      split
      · rename_i hlt
        refine List.pairwise_cons.2 ⟨fun q hq => ?_, hp⟩
        rcases List.mem_cons.1 hq with rfl | hq
        · exact hlt
        · exact lt_trans hlt (hhead q hq)
      · split
        · rename_i h; subst h
          exact List.pairwise_cons.2 ⟨hhead, htail⟩
        · refine List.pairwise_cons.2 ⟨fun q hq => ?_, ih htail⟩
          rcases Memory.mem_insert hq with rfl | hq
          · simp only; omega
          · exact hhead q hq
  · rcases Memory.mem_insert hc with rfl | hc
    · exact ha
    · exact hlt c hc

/-- Writing the same byte again changes nothing, not even the representation. -/
theorem Memory.insert_insert (m : Memory) (a : Nat) (v w : Byte) :
    Memory.insert (Memory.insert m a v) a w = Memory.insert m a w := by
  induction m with
  | nil => simp [Memory.insert]
  | cons p cs ih =>
    obtain ⟨b, u⟩ := p
    by_cases h1 : a < b
    · simp [Memory.insert, h1]
    · by_cases h2 : a = b
      · subst h2; simp [Memory.insert]
      · simp [Memory.insert, h1, h2, ih]

/-- One write, read anywhere (R61 (c)). -/
theorem PixelBuffer.read_write (b : PixelBuffer) (a c : Nat) (v : Byte) :
    (b.write a v).read c = if c = a then v else b.read c := by
  simp only [PixelBuffer.read, PixelBuffer.write, Memory.find_insert]
  split <;> rfl

@[simp] theorem PixelBuffer.read_write_same (b : PixelBuffer) (a : Nat) (v : Byte) : (b.write a v).read a = v := by
  simp [PixelBuffer.read_write]

theorem PixelBuffer.read_write_other (b : PixelBuffer) {a c : Nat} (v : Byte) (h : c ≠ a) :
    (b.write a v).read c = b.read c := by
  simp [PixelBuffer.read_write, h]

@[simp] theorem PixelBuffer.draw_write (b : PixelBuffer) (a : Nat) (v : Byte) : (b.write a v).draw = b.draw := rfl

theorem Memory.find_map_range' (start n a : Nat) (v : Byte) :
    Memory.find ((List.range' start n).map fun a => (a, v)) a =
      if start ≤ a ∧ a < start + n then some v else none := by
  induction n generalizing start with
  | zero => simp [Memory.find]
  | succ n ih =>
    simp only [List.range'_succ, List.map_cons, Memory.find, ih]
    by_cases h : a = start
    · simp [h]
    · rw [if_neg h]
      exact if_congr (by omega) rfl rfl

theorem Memory.find_zeros (n a : Nat) : Memory.find (Memory.zeros n) a = if a < n then some 0 else none := by
  unfold Memory.zeros
  rw [List.range_eq_range', Memory.find_map_range']
  exact if_congr (by omega) rfl rfl

/-- The zero cells are in canonical form (R51). -/
theorem Memory.wf_zeros {n : Nat} (h : n ≤ 504) : Memory.wf (Memory.zeros n) := by
  unfold Memory.zeros
  refine ⟨List.pairwise_map.2 List.pairwise_lt_range, fun c hc => ?_⟩
  obtain ⟨a, ha, rfl⟩ := List.mem_map.1 hc
  exact lt_of_lt_of_le (List.mem_range.1 ha) h

/-- After the fill every byte is 0 (R111). -/
theorem PixelBuffer.read_clear (b : PixelBuffer) {a : Nat} (h : a < 504) : b.clear.read a = 0 := by
  simp only [PixelBuffer.read, PixelBuffer.clear, Memory.find_zeros, if_pos h, Option.getD_some]

@[simp] theorem PixelBuffer.draw_clear (b : PixelBuffer) : b.clear.draw = b.draw := rfl

/-- The fill is in canonical form. -/
theorem PixelBuffer.wf_clear (b : PixelBuffer) : Memory.wf b.clear.mem := Memory.wf_zeros le_rfl

theorem PixelBuffer.wf_write {b : PixelBuffer} (h : Memory.wf b.mem) {a : Nat} (ha : a < 504) (v : Byte) :
    Memory.wf (b.write a v).mem := Memory.wf_insert h ha

/-- The address of an in-bounds pixel or strip exists (R10). -/
theorem addr_lt {x y : Nat} (hx : x ≤ 83) (hy : y ≤ 47) : addr x y < 504 := by
  simp only [addr, band]; omega

theorem bAddr_lt {row x : Nat} (hr : row ≤ 5) (hx : x ≤ 83) : bAddr row x < 504 := by
  simp only [bAddr]; omega

/-- Two in-bounds pixels share a byte and a bit only where they are the same pixel (R52). -/
theorem addr_bitPos_inj {x y x' y' : Nat} (hx : x ≤ 83) (hx' : x' ≤ 83) (ha : addr x y = addr x' y')
    (hb : bitPos y = bitPos y') : x = x' ∧ y = y' := by
  simp only [addr, band, bitPos] at *; omega

theorem PixelBuffer.read_writeBit (b : PixelBuffer) (a k c : Nat) (on : Bool) :
    (b.writeBit a k on).read c = if c = a then withBit (b.read a) k on else b.read c := by
  simp [PixelBuffer.writeBit, PixelBuffer.read_write]

/-- One bit written at the place of an in-bounds pixel, seen through the pixel view (R52). -/
theorem PixelBuffer.pixel_writeBit (b : PixelBuffer) {x y px py : Nat} (on : Bool) (hx : x ≤ 83) (hpx : px ≤ 83) :
    (b.writeBit (addr x y) (bitPos y) on).pixel px py =
      if px = x ∧ py = y then on else b.pixel px py := by
  simp only [PixelBuffer.pixel, PixelBuffer.read_writeBit]
  by_cases ha : addr px py = addr x y
  · rw [if_pos ha, getLsbD_withBit _ (bitPos y) _ _ (Nat.mod_lt _ (by omega))]
    by_cases hb : bitPos py = bitPos y
    · have := addr_bitPos_inj hpx hx ha hb
      rw [if_pos hb, if_pos this]
    · rw [if_neg hb, if_neg (fun h => hb (by rw [h.2])), ha]
  · rw [if_neg ha, if_neg (fun h => ha (by rw [h.1, h.2]))]

/-- The pixel primitive through the pixel view (R110). -/
theorem PixelBuffer.pixel_setPixel (b : PixelBuffer) (x y : Nat) {px py : Nat} (on : Bool) (hpx : px ≤ 83) :
    (b.setPixel x y on).pixel px py = if px = min x 83 ∧ py = min y 47 then on else b.pixel px py :=
  b.pixel_writeBit on (Nat.min_le_right _ _) hpx

/-- The pixel primitive changes one byte (R110). -/
theorem PixelBuffer.read_setPixel_other (b : PixelBuffer) (x y : Nat) (on : Bool) {a : Nat}
    (h : a ≠ addr (min x 83) (min y 47)) : (b.setPixel x y on).read a = b.read a := by
  simp only [PixelBuffer.setPixel, clampX, clampY, PixelBuffer.read_writeBit, if_neg h]

theorem PixelBuffer.wf_setPixel {b : PixelBuffer} (h : Memory.wf b.mem) (x y : Nat) (on : Bool) :
    Memory.wf (b.setPixel x y on).mem :=
  PixelBuffer.wf_write h (addr_lt (Nat.min_le_right _ _) (Nat.min_le_right _ _)) _

/-- What a plotted list of points does to a pixel. -/
theorem PixelBuffer.pixel_plot (points : List (Nat × Nat)) (b : PixelBuffer) {px py : Nat} (hpx : px ≤ 83) :
    (b.plot points).pixel px py = (b.pixel px py || decide (∃ p ∈ points, px = min p.1 83 ∧ py = min p.2 47)) := by
  induction points generalizing b with
  | nil => simp [PixelBuffer.plot]
  | cons p ps ih =>
    have h := ih (b.setPixel p.1 p.2 true)
    simp only [PixelBuffer.plot, List.foldl_cons] at h ⊢
    rw [h, PixelBuffer.pixel_setPixel _ _ _ _ hpx]
    by_cases hp : px = min p.1 83 ∧ py = min p.2 47
    · simp [hp]
    · simp only [List.exists_mem_cons_iff, hp, false_or, if_false]

/-- A plotted list of points changes only the bytes of its points. -/
theorem PixelBuffer.read_plot_other (points : List (Nat × Nat)) (b : PixelBuffer) {a : Nat}
    (h : ∀ p ∈ points, a ≠ addr (min p.1 83) (min p.2 47)) : (b.plot points).read a = b.read a := by
  induction points generalizing b with
  | nil => rfl
  | cons p ps ih =>
    have := ih (b.setPixel p.1 p.2 true) fun q hq => h q (by simp [hq])
    simp only [PixelBuffer.plot, List.foldl_cons] at this ⊢
    rw [this, PixelBuffer.read_setPixel_other _ _ _ _ (h p (by simp))]

theorem PixelBuffer.wf_plot (points : List (Nat × Nat)) {b : PixelBuffer} (h : Memory.wf b.mem) :
    Memory.wf (b.plot points).mem := by
  induction points generalizing b with
  | nil => exact h
  | cons p ps ih => exact ih (PixelBuffer.wf_setPixel h _ _ _)

/-- The bytes a list of stores leaves: the last store to an address is the one read (R61 (c)). -/
theorem PixelBuffer.read_store (stores : List (Nat × Byte)) (b : PixelBuffer) (a : Nat) :
    (b.store stores).read a = ((stores.reverse.find? fun p => p.1 == a).map Prod.snd).getD (b.read a) := by
  induction stores generalizing b with
  | nil => rfl
  | cons p ps ih =>
    have := ih (b.write p.1 p.2)
    simp only [PixelBuffer.store, List.foldl_cons] at this ⊢
    rw [this, List.reverse_cons, List.find?_append]
    cases hf : ps.reverse.find? (fun p => p.1 == a) with
    | some q => simp
    | none =>
      by_cases h : a = p.1
      · simp [h]
      · simp [PixelBuffer.read_write_other _ _ h, Ne.symm h]

theorem PixelBuffer.wf_store (stores : List (Nat × Byte)) {b : PixelBuffer} (h : Memory.wf b.mem)
    (hs : ∀ p ∈ stores, p.1 < 504) : Memory.wf (b.store stores).mem := by
  induction stores generalizing b with
  | nil => exact h
  | cons p ps ih =>
    exact ih (PixelBuffer.wf_write h (hs p (by simp)) _) fun q hq => hs q (by simp [hq])

/-- Two buffers that agree on the eight pixels of a strip agree on its byte (R52). -/
theorem PixelBuffer.read_eq_of_pixel {b c : PixelBuffer} {a : Nat} (ha : a < 504)
    (h : ∀ px py, px < 84 → py < 48 → a = addr px py → b.pixel px py = c.pixel px py) : b.read a = c.read a := by
  apply byte_ext
  intro k hk
  have hp := h (a % 84) (a / 84 * 8 + k) (by omega) (by omega) (by simp only [addr, band]; omega)
  simp only [PixelBuffer.pixel, addr, band, bitPos] at hp
  rwa [show a % 84 + (a / 84 * 8 + k) / 8 * 84 = a by omega, show (a / 84 * 8 + k) % 8 = k by omega] at hp

end Sys2Proof.Machine
end

