-- ==== Sys2Proof/Laws/Raster.lean ====
section
/-! SUPPORT. What the drawing primitives of the Rasterizer do to a pixel, to a byte and to the canonical form. -/

namespace Sys2Proof.Machine

/-- A horizontal run of bits written at in-bounds places, through the pixel view. -/
theorem pixel_foldl_writeBit (b : PixelBuffer) (y start n : Nat) {px py : Nat} (hrun : start + n ≤ 84)
    (hpx : px ≤ 83) :
    ((List.range' start n).foldl (fun b xi => b.writeBit (addr xi y) (bitPos y) true) b).pixel px py =
      (b.pixel px py || decide (py = y ∧ start ≤ px ∧ px < start + n)) := by
  induction n generalizing start b with
  | zero => simp
  | succ n ih =>
    rw [List.range'_succ, List.foldl_cons, ih _ _ (by omega), PixelBuffer.pixel_writeBit _ _ (by omega) hpx]
    by_cases h : px = start ∧ py = y
    · rw [if_pos h, Bool.true_or, decide_eq_true (by omega), Bool.or_true]
    · rw [if_neg h]
      congr 1
      exact decide_eq_decide.2 (by omega)

/-- `HLine` through the pixel view (R130). -/
theorem pixel_hLine (b : PixelBuffer) (x y length : Nat) {px py : Nat} (hpx : px ≤ 83) :
    (hLine x y length b).pixel px py =
      (b.pixel px py || decide (x ≤ 83 ∧ y ≤ 47 ∧ py = y ∧ x ≤ px ∧ px < x + length)) := by
  unfold hLine
  by_cases h : inBounds x y = true
  · have hb : x ≤ 83 ∧ y ≤ 47 := by simpa [inBounds] using h
    rw [if_pos h, pixel_foldl_writeBit _ _ _ _ (by omega) hpx]
    congr 1
    exact decide_eq_decide.2 (by omega)
  · have hb : ¬ (x ≤ 83 ∧ y ≤ 47) := by simpa [inBounds] using h
    rw [if_neg h, decide_eq_false (by omega), Bool.or_false]

/-- `HLine` changes only the bytes of its run (R130). -/
theorem read_hLine_other (b : PixelBuffer) (x y length : Nat) {a : Nat}
    (h : ¬ (y ≤ 47 ∧ ∃ px, x ≤ px ∧ px < x + length ∧ px ≤ 83 ∧ a = addr px y)) :
    (hLine x y length b).read a = b.read a := by
  have key : ∀ (l : List Nat) (b : PixelBuffer), (∀ xi ∈ l, a ≠ addr xi y) →
      (l.foldl (fun b xi => b.writeBit (addr xi y) (bitPos y) true) b).read a = b.read a := by
    intro l
    induction l with
    | nil => intros; rfl
    | cons xi l ih =>
      intro b hl
      rw [List.foldl_cons, ih _ fun z hz => hl z (by simp [hz]), PixelBuffer.read_writeBit,
        if_neg (hl xi (by simp))]
  unfold hLine
  by_cases hb : inBounds x y = true
  · have hb' : x ≤ 83 ∧ y ≤ 47 := by simpa [inBounds] using hb
    rw [if_pos hb]
    refine key _ _ fun xi hxi ha => h ⟨hb'.2, xi, ?_⟩
    have := List.mem_range'_1.1 hxi
    exact ⟨this.1, by omega, by omega, ha⟩
  · rw [if_neg hb]

theorem wf_hLine {b : PixelBuffer} (h : Memory.wf b.mem) (x y length : Nat) : Memory.wf (hLine x y length b).mem := by
  have key : ∀ (l : List Nat) (b : PixelBuffer), Memory.wf b.mem → (∀ xi ∈ l, addr xi y < 504) →
      Memory.wf (l.foldl (fun b xi => b.writeBit (addr xi y) (bitPos y) true) b).mem := by
    intro l
    induction l with
    | nil => exact fun _ h _ => h
    | cons xi l ih =>
      intro b hwf hl
      exact ih _ (PixelBuffer.wf_write hwf (hl xi (by simp)) _) fun z hz => hl z (by simp [hz])
  unfold hLine
  by_cases hb : inBounds x y = true
  · have hb' : x ≤ 83 ∧ y ≤ 47 := by simpa [inBounds] using hb
    rw [if_pos hb]
    refine key _ _ h fun xi hxi => addr_lt ?_ hb'.2
    have := List.mem_range'_1.1 hxi
    omega
  · rwa [if_neg hb]

/-- `VLine` through the pixel view (R132). -/
theorem pixel_vLine (b : PixelBuffer) (x y length : Nat) {px py : Nat} (hpx : px ≤ 83) :
    (vLine x y length b).pixel px py =
      (b.pixel px py || decide (px = min x 83 ∧ min y 47 ≤ py ∧ py ≤ min (y + length) 47)) := by
  unfold vLine
  rw [PixelBuffer.pixel_plot _ _ hpx]
  congr 1
  refine decide_eq_decide.2 ⟨?_, ?_⟩
  · rintro ⟨p, hp, h1, h2⟩
    simp only [vLinePoints, List.mem_map, List.mem_range] at hp
    obtain ⟨i, hi, rfl⟩ := hp
    simp only at h1 h2
    omega
  · rintro ⟨h1, h2, h3⟩
    refine ⟨(x, y + (py - y)), ?_, h1, ?_⟩
    · simp only [vLinePoints, List.mem_map, List.mem_range]
      exact ⟨py - y, by omega, rfl⟩
    · simp only; omega

/-- `VLine` changes only the bytes of its points (R132). -/
theorem read_vLine_other (b : PixelBuffer) (x y length : Nat) {a : Nat}
    (h : ∀ i, i ≤ length → a ≠ addr (min x 83) (min (y + i) 47)) : (vLine x y length b).read a = b.read a := by
  refine PixelBuffer.read_plot_other _ _ fun p hp => ?_
  simp only [vLinePoints, List.mem_map, List.mem_range] at hp
  obtain ⟨i, hi, rfl⟩ := hp
  exact h i (by omega)

theorem wf_vLine {b : PixelBuffer} (h : Memory.wf b.mem) (x y length : Nat) :
    Memory.wf (vLine x y length b).mem := PixelBuffer.wf_plot _ h

theorem wf_lineEngine {b : PixelBuffer} (h : Memory.wf b.mem) (ax ay bx by' : Nat) :
    Memory.wf (lineEngine ax ay bx by' b).mem := PixelBuffer.wf_plot _ h

theorem wf_drawLine {b : PixelBuffer} (h : Memory.wf b.mem) (x1 y1 x2 y2 : Nat) :
    Memory.wf (drawLine x1 y1 x2 y2 b).mem := by
  unfold drawLine
  dsimp only
  split
  · exact wf_hLine h _ _ _
  · split
    · exact wf_vLine h _ _ _
    · exact wf_lineEngine h _ _ _ _

theorem wf_drawRect {b : PixelBuffer} (h : Memory.wf b.mem) (x1 y1 x2 y2 : Nat) :
    Memory.wf (drawRect x1 y1 x2 y2 b).mem :=
  wf_drawLine (wf_drawLine (wf_drawLine (wf_drawLine h _ _ _ _) _ _ _ _) _ _ _ _) _ _ _ _

/-- What the two swaps of R133 leave: the endpoint with the smaller `y` first, and with equal `y` the one with the
smaller `x`. -/
theorem canonicalEndpoints_eq (x1 y1 x2 y2 : Nat) :
    canonicalEndpoints x1 y1 x2 y2 =
      if y1 < y2 ∨ (y1 = y2 ∧ x1 ≤ x2) then ((x1, y1), (x2, y2)) else ((x2, y2), (x1, y1)) := by
  unfold canonicalEndpoints
  dsimp only
  split <;> dsimp only <;> split <;> split <;> first | rfl | omega

/-- A horizontal `Line` is an `HLine` from its left end (R133). -/
theorem drawLine_horizontal (x1 x2 y : Nat) (b : PixelBuffer) :
    drawLine x1 y x2 y b = hLine (min x1 x2) y (max x1 x2 - min x1 x2 + 1) b := by
  unfold drawLine
  rw [canonicalEndpoints_eq]
  by_cases h : x1 ≤ x2
  · simp [h]
  · have h' : x2 ≤ x1 := by omega
    simp [h, h']

/-- A vertical `Line` of more than one row is a `VLine` from its top end (R133). -/
theorem drawLine_vertical (x y1 y2 : Nat) (b : PixelBuffer) (h : y1 ≠ y2) :
    drawLine x y1 x y2 b = vLine x (min y1 y2) (max y1 y2 - min y1 y2) b := by
  unfold drawLine
  rw [canonicalEndpoints_eq]
  by_cases h1 : y1 < y2
  · simp [h1, h, h1.le]
  · have h2 : y2 < y1 := by omega
    simp [h1, h, Ne.symm h, h2.le]

/-- A sloped `Line` is the line engine from its top end (R133). -/
theorem drawLine_sloped (x1 y1 x2 y2 : Nat) (b : PixelBuffer) (hx : x1 ≠ x2) (hy : y1 ≠ y2) :
    drawLine x1 y1 x2 y2 b =
      if y1 < y2 then lineEngine x1 y1 x2 y2 b else lineEngine x2 y2 x1 y1 b := by
  unfold drawLine
  rw [canonicalEndpoints_eq]
  by_cases h1 : y1 < y2
  · simp [h1, hx, hy]
  · simp [h1, hy, Ne.symm hx, Ne.symm hy]

end Sys2Proof.Machine
end

