-- ==== Sys2Proof/Laws/Text.lean ====
section
/-! SUPPORT. The font parser, glyph bytes and the string loop: each said once. -/

namespace Sys2Proof.Machine

/-- A parsed font is the header at its base, and its header and glyph entries lie in FONT (R151, R152). -/
theorem parseFont_eq_some {font : List Byte} {B : Nat} {f : FontTable} (h : parseFont font B = some f) :
    f = fontHeader font B ∧ B + 4 ≤ font.length ∧ B + 4 + f.cnt * f.gsize ≤ font.length := by
  unfold parseFont at h
  split at h
  · cases h
  · split at h
    · cases h
    · cases h
      exact ⟨rfl, by omega, by omega⟩

theorem FontTable.inFont_iff (f : FontTable) (c : Byte) :
    f.inFont c = true ↔ f.off ≤ c.toNat ∧ c.toNat < f.off + f.cnt := by
  simp [FontTable.inFont]

theorem FontTable.guardFails_iff (f : FontTable) (p : Cursor) :
    f.guardFails p = true ↔ p.x + f.gw > 84 ∨ p.row + f.rows ≥ 6 := by
  simp [FontTable.guardFails]

/-- Every glyph byte of an in-font character of a parsed font is read inside FONT (R53, R153). -/
theorem FontTable.glyphAddr_lt {font : List Byte} {B : Nat} {f : FontTable} {c : Byte} {i r : Nat}
    (h : parseFont font B = some f) (hc : f.inFont c = true) (hi : i < f.gw) (hr : r < f.rows) :
    f.glyphAddr c i r < font.length := by
  obtain ⟨hf, -, hlen⟩ := parseFont_eq_some h
  have hbase : f.base = B := by rw [hf]; rfl
  have hin := (f.inFont_iff c).1 hc
  have h1 : (c.toNat - f.off + 1) * f.gsize ≤ f.cnt * f.gsize := Nat.mul_le_mul_right _ (by omega)
  have h2 : (i + 1) * f.rows ≤ f.gsize := Nat.mul_le_mul_right _ (by omega)
  rw [Nat.succ_mul] at h1 h2
  unfold FontTable.glyphAddr
  rw [hbase]
  omega

/-- Text inversion is the complement where TI is set (R154). -/
theorem textInv_eq (ti : Bool) (v : Byte) : textInv ti v = if ti then ~~~ v else v := by
  unfold textInv
  split
  · apply byte_ext
    intro k hk
    have : (0xFF : Byte).getLsbD k = true := by
      interval_cases k <;> rfl
    rw [BitVec.getLsbD_xor, BitVec.getLsbD_not, this]
    simp [hk]
  · rfl

/-- The cursor the string loop leaves does not depend on what is emitted (R161 (e)). -/
theorem textLoop_cursor {α β : Type} (f : FontTable) (e : Cursor → Byte → α → α) (e' : Cursor → Byte → β → β)
    (str : List Byte) (p : Cursor) (out : α) (out' : β) :
    (textLoop f e str p out).1 = (textLoop f e' str p out').1 := by
  induction str generalizing p out out' with
  | nil => rfl
  | cons c cs ih =>
    simp only [textLoop]
    split
    · exact ih _ _ _
    · split
      · rfl
      · exact ih _ _ _

/-- What the loop emits is kept by an invariant that each guarded glyph keeps. -/
theorem textLoop_induction {α : Type} (f : FontTable) (e : Cursor → Byte → α → α) (P : α → Prop)
    (he : ∀ p c out, f.inFont c = true → f.guardFails p = false → P out → P (e p c out))
    (str : List Byte) (p : Cursor) (out : α) (h : P out) : P (textLoop f e str p out).2 := by
  induction str generalizing p out with
  | nil => exact h
  | cons c cs ih =>
    simp only [textLoop]
    by_cases hc : f.inFont c = true
    · simp only [hc, Bool.not_true, Bool.false_eq_true, if_false]
      by_cases hg : f.guardFails p = true
      · rw [if_pos hg]; exact h
      · rw [if_neg hg]
        exact ih _ _ (he p c out hc (by simpa using hg) h)
    · simp only [hc, Bool.not_false, if_true]
      exact ih _ _ h

/-- A glyph that passed the guard is stored in columns 0 to 83 of bands 0 to 4 (R159). -/
theorem glyphStores_lt (font : List Byte) (ti : Bool) (f : FontTable) (p : Cursor) (c : Byte)
    (hg : f.guardFails p = false) : ∀ q ∈ glyphStores font ti f p c, q.1 < 420 := by
  intro q hq
  have hg' : ¬ (p.x + f.gw > 84 ∨ p.row + f.rows ≥ 6) := by
    rw [← f.guardFails_iff, hg]; exact Bool.false_ne_true
  simp only [glyphStores, List.mem_flatMap, List.mem_map, List.mem_range] at hq
  obtain ⟨r, hr, i, hi, rfl⟩ := hq
  simp only [bAddr]
  omega

/-- A FONT address below `FONT_SIZE` reads the byte that stands there (R53). -/
theorem fontByte_eq {font : List Byte} {a : Nat} (h : a < font.length) : font[a]? = some (fontByte font a) := by
  simp [fontByte, h]

/-- A string whose first character is outside the font runs as the rest of it does (R158). -/
theorem textLoop_skip {α : Type} {f : FontTable} (e : Cursor → Byte → α → α) {c : Byte} (h : f.inFont c = false)
    (cs : List Byte) (p : Cursor) (out : α) : textLoop f e (c :: cs) p out = textLoop f e cs p out := by
  simp [textLoop, h]

/-- A glyph whose guard fails sets the flag and ends the loop where it is (R155). -/
theorem textLoop_stop {α : Type} {f : FontTable} (e : Cursor → Byte → α → α) {c : Byte} {p : Cursor}
    (h : f.inFont c = true) (hg : f.guardFails p = true) (cs : List Byte) (out : α) :
    textLoop f e (c :: cs) p out = ({ p with failed := true }, out) := by
  simp [textLoop, h, hg]

/-- A glyph that passes the guard is emitted at the cursor, which then advances (R155 to R157). -/
theorem textLoop_emit {α : Type} {f : FontTable} (e : Cursor → Byte → α → α) {c : Byte} {p : Cursor}
    (h : f.inFont c = true) (hg : f.guardFails p = false) (cs : List Byte) (out : α) :
    textLoop f e (c :: cs) p out = textLoop f e cs (f.advance p) (e p c out) := by
  simp [textLoop, h, hg]

end Sys2Proof.Machine
end

