-- ==== Sys2Proof/Laws/Exec.lean ====
section
/-! SUPPORT. What a command's sending of events and a command as a whole can do, said once. -/

namespace Sys2Proof.Machine

/-- A transport that accepts all the events lets the rest of the rule run (R58). -/
theorem State.transmit_of_accepts {events : List WireEvent} {done : State → Result} {s : State}
    (h : transportAccepts s.transport events.length = true) : s.transmit events done = done (s.sent events) :=
  if_pos h

/-- A transport that never accepts one of the events leaves the core stuck at it (R59). -/
theorem State.transmit_of_blocks {events : List WireEvent} {done : State → Result} {s : State}
    (h : transportAccepts s.transport events.length = false) : s.transmit events done = .next (s.stall events) :=
  if_neg (by simp [h])

/-- All that sending events can lead to (R58, R59). -/
theorem State.transmit_next_cases {events : List WireEvent} {done : State → Result} {s t : State}
    (h : s.transmit events done = .next t) :
    (transportAccepts s.transport events.length = true ∧ done (s.sent events) = .next t) ∨
    (transportAccepts s.transport events.length = false ∧ t = s.stall events) := by
  cases ha : transportAccepts s.transport events.length with
  | true => exact .inl ⟨rfl, (State.transmit_of_accepts ha).symm.trans h⟩
  | false => rw [State.transmit_of_blocks ha] at h; cases h; exact .inr ⟨rfl, rfl⟩

/-- Where a transport does not accept all the events, one of them stays on offer. -/
theorem isSome_blockedEvent {transport : Transport} {events : List WireEvent}
    (h : transportAccepts transport events.length = false) : (blockedEvent transport events).isSome = true := by
  cases transport with
  | ready => cases h
  | accepts k =>
    have hk : k < events.length := by simpa [transportAccepts] using h
    simp [blockedEvent, hk]

theorem ne_ready_of_blocks {transport : Transport} {n : Nat} (h : transportAccepts transport n = false) :
    transport ≠ .ready := by
  rintro rfl
  cases h

@[simp] theorem State.sent_nil (s : State) : s.sent [] = s := by
  cases s with
  | mk _ _ _ _ _ _ _ _ _ _ _ _ _ transport => cases transport <;> simp [State.sent, transportAfter]

theorem State.sent_sent (a b : List WireEvent) (s : State) : (s.sent a).sent b = s.sent (a ++ b) := by
  unfold State.sent
  cases s.transport <;> simp [transportAfter, Nat.sub_sub]

/-- The transport accepts two stretches of events where it accepts the first and then the second. -/
theorem transportAccepts_add (transport : Transport) (m n : Nat) :
    transportAccepts transport (m + n) = (transportAccepts transport m && transportAccepts (transportAfter transport m) n) := by
  cases transport with
  | ready => rfl
  | accepts k =>
    simp only [transportAccepts, transportAfter]
    rw [← Bool.decide_and]
    exact decide_eq_decide.2 (by omega)

/-- Stuck in the second of two stretches of events: the first stands in the trace whole. -/
theorem State.stall_append {a : List WireEvent} {s : State} (h : transportAccepts s.transport a.length = true)
    (b : List WireEvent) : s.stall (a ++ b) = (s.sent a).stall b := by
  unfold State.stall State.sent
  cases ht : s.transport with
  | ready => simp [acceptedEvents, blockedEvent, transportAfter]
  | accepts k =>
    have hk : a.length ≤ k := by simpa [ht, transportAccepts] using h
    simp [acceptedEvents, blockedEvent, transportAfter, List.take_append, List.take_of_length_le hk,
      List.getElem?_append_right hk]

/-- Stuck in the first of two stretches of events: the second makes no difference. -/
theorem State.stall_append_of_blocks {a : List WireEvent} {s : State}
    (h : transportAccepts s.transport a.length = false) (b : List WireEvent) : s.stall (a ++ b) = s.stall a := by
  unfold State.stall
  cases ht : s.transport with
  | ready => rw [ht] at h; cases h
  | accepts k =>
    have hk : k < a.length := by simpa [ht, transportAccepts] using h
    simp [acceptedEvents, blockedEvent, List.take_append, List.getElem?_append_left hk, Nat.sub_eq_zero_of_le hk.le]

/-- Events can be sent in two stretches (R58). -/
theorem State.transmit_append (a b : List WireEvent) (done : State → Result) (s : State) :
    s.transmit (a ++ b) done = s.transmit a (State.transmit b done) := by
  cases ha : transportAccepts s.transport a.length with
  | true =>
    rw [State.transmit_of_accepts ha]
    unfold State.transmit
    rw [List.length_append, transportAccepts_add, ha, State.sent_sent, State.stall_append ha]
    rfl
  | false =>
    rw [State.transmit_of_blocks ha, State.transmit_of_blocks, State.stall_append_of_blocks ha]
    rw [List.length_append, transportAccepts_add, ha, Bool.false_and]

/-- Each event is a step of its own, made when the transport accepts it (R59). -/
theorem State.transmit_cons (e : WireEvent) (es : List WireEvent) (done : State → Result) (s : State) :
    s.transmit (e :: es) done =
      if transportAccepts s.transport 1 then (s.sent [e]).transmit es done else .next (s.stall [e]) :=
  State.transmit_append [e] es done s

@[simp] theorem State.loadCursor_loadCursor (p q : Cursor) (s : State) :
    (s.loadCursor p).loadCursor q = s.loadCursor q := by
  simp only [State.loadCursor, State.setFailed]
  congr 1
  exact withBit_withBit _ _ _ _ (by omega)

theorem State.sent_loadCursor (p : Cursor) (events : List WireEvent) (s : State) :
    (s.loadCursor p).sent events = (s.sent events).loadCursor p := rfl

/-- All that sending the glyphs of a string can lead to (R155 to R158): every glyph is accepted whole and the command
ends, or the core is stuck in one of them with that glyph's position in the cursor. -/
theorem State.sendGlyphs_cases (gs : List (Cursor × List WireEvent)) (q : Cursor) (n : Nat) (s : State) :
    (transportAccepts s.transport (gs.flatMap Prod.snd).length = true ∧
      s.sendGlyphs gs (finishString q n) = finishString q n (s.sent (gs.flatMap Prod.snd))) ∨
    (transportAccepts s.transport (gs.flatMap Prod.snd).length = false ∧
      ∃ before g later, gs = before ++ g :: later ∧
        transportAccepts s.transport (before.flatMap Prod.snd).length = true ∧
        transportAccepts s.transport ((before.flatMap Prod.snd).length + g.2.length) = false ∧
        s.sendGlyphs gs (finishString q n) = .next ((s.stall (gs.flatMap Prod.snd)).loadCursor g.1)) := by
  induction gs generalizing s with
  | nil => exact .inl ⟨by cases s.transport <;> simp [transportAccepts], by simp [State.sendGlyphs]⟩
  | cons g gs ih =>
    simp only [State.sendGlyphs, List.flatMap_cons, List.length_append]
    cases ha : transportAccepts s.transport g.2.length with
    | false =>
      refine .inr ⟨by rw [transportAccepts_add, ha, Bool.false_and], [], g, gs, rfl, ?_, ?_, ?_⟩
      · cases s.transport <;> simp [transportAccepts]
      · simpa using ha
      · rw [State.transmit_of_blocks (by exact ha), State.stall_append_of_blocks ha]
        rfl
    | true =>
      rw [State.transmit_of_accepts (by exact ha), transportAccepts_add, ha, Bool.true_and]
      rcases ih ((s.loadCursor g.1).sent g.2) with ⟨h1, h2⟩ | ⟨h1, before, g', later, h2, h3, h4, h5⟩
      · refine .inl ⟨h1, ?_⟩
        rw [h2, State.sent_sent, State.sent_loadCursor, finishString, State.loadCursor_loadCursor]
      · refine .inr ⟨h1, g :: before, g', later, by rw [h2]; rfl, ?_, ?_, ?_⟩
        · rw [List.flatMap_cons, List.length_append, transportAccepts_add, ha, Bool.true_and]
          exact h3
        · rw [List.flatMap_cons, List.length_append, Nat.add_assoc, transportAccepts_add, ha, Bool.true_and]
          exact h4
        · rw [h5, State.stall_append ha]
          exact congrArg _ (State.loadCursor_loadCursor g.1 g'.1 ((s.sent g.2).stall (gs.flatMap Prod.snd)))

/-- What a completed command has in common with every other: its length on pc, and events at the end of the trace. -/
structure Completes (i : Instr) (s t : State) : Prop where
  pc : t.pc = s.pc + BitVec.ofNat 16 i.size
  cfg : t.cfg = s.cfg
  faulted : t.faulted = s.faulted
  wire : s.wire <+: t.wire
  waiting : t.waiting = s.waiting
  transport : s.transport = .ready → t.transport = .ready
  draw : t.fb.draw = s.fb.draw
  fcause : t.fcause = s.fcause
  fpcLo : t.fpcLo = s.fpcLo
  fpcHi : t.fpcHi = s.fpcHi
  fbWf : Memory.wf s.fb.mem → Memory.wf t.fb.mem
  modeBits : s.mode.extractLsb' 2 6 = 0 → t.mode.extractLsb' 2 6 = 0
  statusBits : s.status.extractLsb' 2 6 = 0 → t.status.extractLsb' 2 6 = 0

/-- What a command stuck at the transport has in common with every other: it has not moved on, and has written neither
the PixelBuffer nor RES nor the fault record (R59, R204). -/
structure Blocks (s t : State) : Prop where
  pc : t.pc = s.pc
  fb : t.fb = s.fb
  res : t.res = s.res
  cfg : t.cfg = s.cfg
  faulted : t.faulted = s.faulted
  wire : s.wire <+: t.wire
  waiting : t.waiting.isSome = true
  transport : t.transport = .accepts 0
  notReady : s.transport ≠ .ready
  fcause : t.fcause = s.fcause
  fpcLo : t.fpcLo = s.fpcLo
  fpcHi : t.fpcHi = s.fpcHi
  modeBits : s.mode.extractLsb' 2 6 = 0 → t.mode.extractLsb' 2 6 = 0
  statusBits : s.status.extractLsb' 2 6 = 0 → t.status.extractLsb' 2 6 = 0

theorem blocks_stall {s : State} {events : List WireEvent} (h : transportAccepts s.transport events.length = false) :
    Blocks s (s.stall events) :=
  ⟨rfl, rfl, rfl, rfl, rfl, List.prefix_append _ _, isSome_blockedEvent h, rfl, ne_ready_of_blocks h, rfl, rfl, rfl, id,
    id⟩

theorem PixelBuffer.draw_writeBit (b : PixelBuffer) (a k : Nat) (on : Bool) : (b.writeBit a k on).draw = b.draw := rfl

theorem PixelBuffer.draw_plot (points : List (Nat × Nat)) (b : PixelBuffer) : (b.plot points).draw = b.draw := by
  induction points generalizing b with
  | nil => rfl
  | cons p ps ih => exact ih _

theorem PixelBuffer.draw_store (stores : List (Nat × Byte)) (b : PixelBuffer) : (b.store stores).draw = b.draw := by
  induction stores generalizing b with
  | nil => rfl
  | cons p ps ih => exact ih _

theorem draw_hLine (x y length : Nat) (b : PixelBuffer) : (hLine x y length b).draw = b.draw := by
  have key : ∀ (l : List Nat) (b : PixelBuffer),
      (l.foldl (fun b xi => b.writeBit (addr xi y) (bitPos y) true) b).draw = b.draw := by
    intro l
    induction l with
    | nil => exact fun _ => rfl
    | cons xi l ih => exact fun b => ih _
  unfold hLine
  split
  · exact key _ _
  · rfl

theorem draw_drawLine (x1 y1 x2 y2 : Nat) (b : PixelBuffer) : (drawLine x1 y1 x2 y2 b).draw = b.draw := by
  unfold drawLine
  dsimp only
  split
  · exact draw_hLine _ _ _ _
  · split <;> exact PixelBuffer.draw_plot _ _

theorem ready_sent {s : State} {events : List WireEvent} (h : s.transport = .ready) :
    (s.sent events).transport = .ready := by
  rw [State.sent_transport, h]
  rfl

/-- A command that answers a next state has raised a fault, before changing anything, or completed, or is stuck at the
transport. -/
theorem exec_next_cases {i : Instr} {s t : State} (h : exec i s = .next t) :
    (∃ k, t = s.recordFault k) ∨ Completes i s t ∨ Blocks s t := by
  cases i <;> simp only [exec] at h
  case clear =>
    cases h
    exact .inr (.inl ⟨rfl, rfl, rfl, List.prefix_rfl, rfl, id, s.fb.draw_clear, rfl, rfl, rfl, fun _ => s.fb.wf_clear,
      id, id⟩)
  case setpix x y on =>
    simp only [execSetpix] at h
    split at h
    · cases h; exact .inl ⟨_, rfl⟩
    · cases h
      exact .inr (.inl ⟨rfl, rfl, rfl, List.prefix_rfl, rfl, id, rfl, rfl, rfl, rfl,
        fun hw => PixelBuffer.wf_setPixel hw _ _ _, id, id⟩)
  case getpix x y =>
    cases h
    exact .inr (.inl ⟨rfl, rfl, rfl, List.prefix_rfl, rfl, id, rfl, rfl, rfl, rfl, id, id, id⟩)
  case getbyte row x =>
    simp only [execGetbyte] at h
    split at h
    · cases h; exact .inl ⟨_, rfl⟩
    · cases h
      exact .inr (.inl ⟨rfl, rfl, rfl, List.prefix_rfl, rfl, id, rfl, rfl, rfl, rfl, id, id, id⟩)
  case setbyte row x v =>
    simp only [execSetbyte] at h
    split at h
    · cases h; exact .inl ⟨_, rfl⟩
    · rename_i hr
      cases h
      have hr' : row.toNat ≤ 5 ∧ x.toNat ≤ 83 := by simpa [stripOutOfRange] using hr
      exact .inr (.inl ⟨rfl, rfl, rfl, List.prefix_rfl, rfl, id, rfl, rfl, rfl, rfl,
        fun hw => PixelBuffer.wf_write hw (bAddr_lt hr'.1 hr'.2) _, id, id⟩)
  case hline x y n =>
    cases h
    exact .inr (.inl ⟨rfl, rfl, rfl, List.prefix_rfl, rfl, id, draw_hLine _ _ _ _, rfl, rfl, rfl,
      fun hw => wf_hLine hw _ _ _, id, id⟩)
  case vline x y n =>
    cases h
    exact .inr (.inl ⟨rfl, rfl, rfl, List.prefix_rfl, rfl, id, PixelBuffer.draw_plot _ _, rfl, rfl, rfl,
      fun hw => wf_vLine hw _ _ _, id, id⟩)
  case line x1 y1 x2 y2 =>
    cases h
    exact .inr (.inl ⟨rfl, rfl, rfl, List.prefix_rfl, rfl, id, draw_drawLine _ _ _ _ _, rfl, rfl, rfl,
      fun hw => wf_drawLine hw _ _ _ _, id, id⟩)
  case rect x1 y1 x2 y2 =>
    cases h
    refine .inr (.inl ⟨rfl, rfl, rfl, List.prefix_rfl, rfl, id, ?_, rfl, rfl, rfl, fun hw => wf_drawRect hw _ _ _ _, id,
      id⟩)
    simp [drawRect, draw_drawLine]
  case printch c =>
    simp only [execPrintch] at h
    split at h
    · cases h; exact .inl ⟨_, rfl⟩
    · split at h
      · cases h
      · split at h
        · rcases State.transmit_next_cases h with ⟨-, h⟩ | ⟨hb, rfl⟩
          · cases h
            exact .inr (.inl ⟨rfl, rfl, rfl, List.prefix_append _ _, rfl, ready_sent, rfl, rfl, rfl, rfl, id, id, id⟩)
          · exact .inr (.inr (blocks_stall hb))
        · cases h
          exact .inr (.inl ⟨rfl, rfl, rfl, List.prefix_rfl, rfl, id, rfl, rfl, rfl, rfl, id, id, id⟩)
  case printstr x row fbase str =>
    simp only [execPrintstr] at h
    split at h
    · cases h; exact .inl ⟨_, rfl⟩
    · rename_i f hf
      rcases State.sendGlyphs_cases _ _ _ s with
        ⟨-, hg⟩ | ⟨hb, _, g, _, -, -, -, hg⟩
      · rw [hg] at h
        cases h
        exact .inr (.inl ⟨rfl, rfl, State.faulted_loadCursor _ _, List.prefix_append _ _, rfl, ready_sent, rfl, rfl,
          rfl, rfl, id, id, hardwired_withBit _ _ _ (by omega)⟩)
      · rw [hg] at h
        cases h
        exact .inr (.inr ⟨rfl, rfl, rfl, rfl, State.faulted_loadCursor _ _, List.prefix_append _ _,
          isSome_blockedEvent hb, rfl, ne_ready_of_blocks hb, rfl, rfl, rfl, id, hardwired_withBit _ _ _ (by omega)⟩)
  case printstrb x row fbase str =>
    simp only [execPrintstrb] at h
    split at h
    · cases h; exact .inl ⟨_, rfl⟩
    · rename_i f hf
      cases h
      refine .inr (.inl ⟨rfl, rfl, State.faulted_loadCursor _ _, List.prefix_rfl, rfl, id, ?_, rfl, rfl, rfl,
        fun hw => ?_, id, hardwired_withBit _ _ _ (by omega)⟩)
      · exact textLoop_induction f _ (fun b : PixelBuffer => b.draw = s.fb.draw)
          (fun p c out _ _ ho => (PixelBuffer.draw_store _ _).trans ho) _ _ _ rfl
      · exact textLoop_induction f _ (fun b : PixelBuffer => Memory.wf b.mem)
          (fun p c out _ hg ho => PixelBuffer.wf_store _ ho fun q hq =>
            lt_trans (glyphStores_lt _ _ _ _ _ hg q hq) (by omega)) _ _ _ hw
  case init =>
    rcases State.transmit_next_cases h with ⟨-, h⟩ | ⟨hb, rfl⟩
    · cases h
      exact .inr (.inl ⟨rfl, rfl, rfl, List.prefix_append _ _, rfl, ready_sent, s.fb.draw_clear, rfl, rfl, rfl,
        fun _ => s.fb.wf_clear,
        fun hm => hardwired_withBit _ _ _ (by omega) (hardwired_withBit _ _ _ (by omega) hm), id⟩)
    · exact .inr (.inr (blocks_stall hb))
  case setdinv flag =>
    simp only [execSetdinv] at h
    split at h
    · cases h; exact .inl ⟨_, rfl⟩
    · rcases State.transmit_next_cases h with ⟨-, h⟩ | ⟨hb, rfl⟩
      · cases h
        exact .inr (.inl ⟨rfl, rfl, rfl, List.prefix_append _ _, rfl, ready_sent, rfl, rfl, rfl, rfl, id,
          hardwired_withBit _ _ _ (by omega), id⟩)
      · exact .inr (.inr ⟨rfl, rfl, rfl, rfl, rfl, List.prefix_append _ _, isSome_blockedEvent hb, rfl,
          ne_ready_of_blocks hb, rfl, rfl, rfl, hardwired_withBit _ _ _ (by omega), id⟩)
  case settinv flag =>
    simp only [execSettinv] at h
    split at h
    · cases h; exact .inl ⟨_, rfl⟩
    · cases h
      exact .inr (.inl ⟨rfl, rfl, rfl, List.prefix_rfl, rfl, id, rfl, rfl, rfl, rfl, id,
        hardwired_withBit _ _ _ (by omega), id⟩)
  case goto x row =>
    simp only [execGoto] at h
    split at h
    · cases h; exact .inl ⟨_, rfl⟩
    · rcases State.transmit_next_cases h with ⟨-, h⟩ | ⟨hb, rfl⟩
      · cases h
        exact .inr (.inl ⟨rfl, rfl, rfl, List.prefix_append _ _, rfl, ready_sent, rfl, rfl, rfl, rfl, id, id, id⟩)
      · exact .inr (.inr (blocks_stall hb))
  case refresh =>
    rcases State.transmit_next_cases h with ⟨-, h⟩ | ⟨hb, rfl⟩
    · cases h
      exact .inr (.inl ⟨rfl, rfl, rfl, List.prefix_append _ _, rfl, ready_sent, rfl, rfl, rfl, rfl, id, id, id⟩)
    · exact .inr (.inr (blocks_stall hb))
  case refreshr xmin ymin xmax ymax =>
    simp only [execRefreshr] at h
    split at h
    · cases h; exact .inl ⟨_, rfl⟩
    · rcases State.transmit_next_cases h with ⟨-, h⟩ | ⟨hb, rfl⟩
      · cases h
        exact .inr (.inl ⟨rfl, rfl, rfl, List.prefix_append _ _, rfl, ready_sent, rfl, rfl, rfl, rfl, id, id, id⟩)
      · exact .inr (.inr (blocks_stall hb))

/-- What a step that answers a next state has done: the configuration is allowed, no fault was latched, nothing waits at
the transport, the stream was not exhausted, and either a fault of decoding was raised or the decoded command
answered. -/
theorem step_next_cases {s t : State} (h : step s = .next t) :
    s.cfg.wf = true ∧ s.faulted = false ∧ s.waiting = none ∧ s.pc.toNat < s.cfg.cmd.length ∧
    ((∃ e, s.fetch = .error e ∧ t = s.recordFault (decodeFault e)) ∨
     (∃ i, s.fetch = .ok i ∧ exec i s = .next t)) := by
  unfold step at h
  split at h
  · cases h
  · rename_i hc
    split at h
    · cases h
    · rename_i hf
      split at h
      · cases h
      · rename_i hw
        split at h
        · cases h
        · rename_i hp
          refine ⟨by simpa using hc, by simpa using hf, by simpa using hw, by omega, ?_⟩
          split at h
          · rename_i e he
            cases h
            exact .inl ⟨e, he, rfl⟩
          · rename_i i hi
            exact .inr ⟨i, hi, h⟩

/-- The recorded cause tells the faults apart (R201, R202). -/
theorem State.recordFault_injective {s : State} {k l : FaultCause} (h : s.recordFault k = s.recordFault l) :
    k = l := by
  have h' := congrArg State.fcause h
  simp only [State.recordFault_fcause] at h'
  revert h'
  cases k <;> cases l <;> decide

/-- One step of a run, then the rest of it. -/
theorem run_next_iff (M : Host.Core) (k : Nat) (s t : M.State) :
    M.run (k + 1) s = .next t ↔ ∃ s', M.step s = .next s' ∧ M.run k s' = .next t := by
  simp only [Host.Core.run]
  cases M.step s <;> simp

/-- A run of one step more is a step and a run from where it leads (R12). -/
theorem runsTo_succ (k : Nat) (s t : State) : RunsTo (k + 1) s t ↔ ∃ s', step s = .next s' ∧ RunsTo k s' t :=
  run_next_iff core k s t

theorem runsTo_zero (s t : State) : RunsTo 0 s t ↔ s = t :=
  ⟨fun h => by cases h; rfl, fun h => by rw [h]; rfl⟩

end Sys2Proof.Machine
end

