-- ==== Sys2Proof/Laws/PerInstr.lean ====
section
/-! SUPPORT. Facts about every command as syntax, one lemma per constructor. -/

namespace Sys2Proof.Laws

/-- The encoding has the length R81 gives the command, and begins with its opcode. -/
def EncodedLength.Statement (i : Instr) : Prop := (encode i).length = i.size ∧ (encode i).head? = some i.opcode

namespace EncodedLength

theorem clear : Statement .clear := ⟨rfl, rfl⟩
theorem setpix (x y on : Byte) : Statement (.setpix x y on) := ⟨rfl, rfl⟩
theorem getpix (x y : Byte) : Statement (.getpix x y) := ⟨rfl, rfl⟩
theorem getbyte (row x : Byte) : Statement (.getbyte row x) := ⟨rfl, rfl⟩
theorem setbyte (row x value : Byte) : Statement (.setbyte row x value) := ⟨rfl, rfl⟩
theorem hline (x y length : Byte) : Statement (.hline x y length) := ⟨rfl, rfl⟩
theorem vline (x y length : Byte) : Statement (.vline x y length) := ⟨rfl, rfl⟩
theorem line (x1 y1 x2 y2 : Byte) : Statement (.line x1 y1 x2 y2) := ⟨rfl, rfl⟩
theorem rect (x1 y1 x2 y2 : Byte) : Statement (.rect x1 y1 x2 y2) := ⟨rfl, rfl⟩
theorem printch (c : Byte) : Statement (.printch c) := ⟨rfl, rfl⟩
theorem printstr (x row : Byte) (fbase : Word) (str : List Byte) : Statement (.printstr x row fbase str) :=
  ⟨by simp [encode, Instr.operandBytes, encodeFS, Instr.size]; omega, rfl⟩
theorem printstrb (x row : Byte) (fbase : Word) (str : List Byte) : Statement (.printstrb x row fbase str) :=
  ⟨by simp [encode, Instr.operandBytes, encodeFS, Instr.size]; omega, rfl⟩
theorem init : Statement .init := ⟨rfl, rfl⟩
theorem setdinv (flag : Byte) : Statement (.setdinv flag) := ⟨rfl, rfl⟩
theorem settinv (flag : Byte) : Statement (.settinv flag) := ⟨rfl, rfl⟩
theorem goto (x row : Byte) : Statement (.goto x row) := ⟨rfl, rfl⟩
theorem refresh : Statement .refresh := ⟨rfl, rfl⟩
theorem refreshr (xmin ymin xmax ymax : Byte) : Statement (.refreshr xmin ymin xmax ymax) := ⟨rfl, rfl⟩

end EncodedLength

end Sys2Proof.Laws
end

