-- ==== Sys2Proof/Laws/Screen.lean ====
section
/-! SUPPORT. The address bytes, the bands and the data streams of the ScreenController, and the assumed sink over a
stretch of events: each said once. -/

namespace Sys2Proof.Machine

/-- The OR of an X-address byte is a sum for a column that exists (R181). -/
theorem xAddress_eq : ∀ x : Byte, x.toNat ≤ 83 → 0x80 ||| x = BitVec.ofNat 8 (0x80 + x.toNat) := by decide

/-- The OR of a band-address byte is a sum for a band that exists (R181). -/
theorem bandAddress_eq : ∀ row : Byte, row.toNat ≤ 5 → 0x40 ||| row = BitVec.ofNat 8 (0x40 + row.toNat) := by decide

/-- The bands REFRESHR sends are `ymin div 8` to `ymax div 8` (R188). -/
theorem touchedBands_eq {ymin ymax : Nat} (h : ymin ≤ ymax) (hmax : ymax ≤ 47) :
    touchedBands ymin ymax = (List.range (ymax / 8 - ymin / 8 + 1)).map fun j => ymin / 8 + j := by
  revert h; revert ymin
  interval_cases ymax <;> (intro ymin h; interval_cases ymin <;> rfl)

theorem PixelBuffer.length_bytes (b : PixelBuffer) : b.bytes.length = 504 := by simp [PixelBuffer.bytes]

theorem length_dataEvents (bytes : List Byte) : (dataEvents bytes).length = bytes.length := by simp [dataEvents]

theorem length_goToEvents (x row : Byte) : (goToEvents x row).length = 2 := rfl

/-- The data events of the whole buffer, over a length given as a variable, so that no proof unfolds 504 of them. -/
theorem dataEvents_bytes (b : PixelBuffer) {n : Nat} (h : n = 504) :
    dataEvents b.bytes = (List.range' 0 n).map fun a => .data (b.read a) := by
  subst h
  simp only [dataEvents, PixelBuffer.bytes, List.map_map, List.range_eq_range']
  exact List.map_congr_left fun _ _ => rfl

/-- The sink receives one stretch of events after another (R64). -/
theorem Sink.receiveAll_append (es fs : List WireEvent) (k : Sink) :
    Sink.receiveAll (es ++ fs) k = (Sink.receiveAll es k).bind (Sink.receiveAll fs) := by
  induction es generalizing k with
  | nil => rfl
  | cons e es ih =>
    simp only [List.cons_append, Sink.receiveAll]
    cases k.receive e with
    | none => rfl
    | some k' => exact ih k'

end Sys2Proof.Machine
end

