-- ==== Sys2Proof/Tests/Slice0.lean ====
section
/-! SUPPORT. The model's own tests. Expected values are the spec's: the encodings of spec/30_encoding.md and of the
command rules, and the vectors of spec/95_test_vectors.md, named in each comment. At the end, for every statement with
hypotheses, a state and operands that meet them. -/

namespace Sys2Proof.Tests

open Sys2Proof Sys2Proof.Machine

-- One theorem after another: a hundred of them at once would need more threads than a small machine has.
set_option Elab.async false

/-! ### Ill-formed terms, refused by each check of WellFormed (R84, R85, R88) -/

theorem test_wellFormed_refuses_setpix_reserved_bit : (Instr.setpix 0 0 2).wellFormed = false := by decide
theorem test_wellFormed_refuses_setdinv_reserved_bit : (Instr.setdinv 0x80).wellFormed = false := by decide
theorem test_wellFormed_refuses_settinv_reserved_bit : (Instr.settinv 3).wellFormed = false := by decide
theorem test_wellFormed_refuses_long_printstr :
    (Instr.printstr 0 0 0 (List.replicate 256 0x41)).wellFormed = false := by decide +kernel
theorem test_wellFormed_refuses_long_printstrb :
    (Instr.printstrb 0 0 0 (List.replicate 256 0x41)).wellFormed = false := by decide +kernel
theorem test_encodable_refuses_long_string :
    (Instr.printstr 0 0 0 (List.replicate 256 0x41)).encodable = false ∧
    (Instr.printstrb 0 0 0 (List.replicate 256 0x41)).encodable = false := by decide +kernel
theorem test_wellFormed_accepts :
    (Instr.setpix 255 255 1).wellFormed = true ∧ (Instr.setdinv 1).wellFormed = true ∧
    (Instr.settinv 0).wellFormed = true ∧ (Instr.printstr 0 0 0 (List.replicate 255 0)).wellFormed = true := by
  decide +kernel

/-! ### Decoding: every command's bytes, written out from its rule -/

theorem test_decode_clear : decode [0x10] = .ok .clear := by decide
theorem test_decode_setpix : decode [0x11, 0x0A, 0x14, 0x01] = .ok (.setpix 10 20 1) := by decide
theorem test_decode_getpix : decode [0x12, 0x0A, 0x14] = .ok (.getpix 10 20) := by decide
theorem test_decode_getbyte : decode [0x13, 0x02, 0x0A] = .ok (.getbyte 2 10) := by decide
theorem test_decode_setbyte : decode [0x14, 0x05, 0x53, 0x80] = .ok (.setbyte 5 83 0x80) := by decide
theorem test_decode_hline : decode [0x20, 0x50, 0x2F, 0x0A] = .ok (.hline 80 47 10) := by decide
theorem test_decode_vline : decode [0x21, 0x03, 0x2C, 0x0A] = .ok (.vline 3 44 10) := by decide
theorem test_decode_line : decode [0x22, 0x5A, 0x05, 0x64, 0x06] = .ok (.line 90 5 100 6) := by decide
theorem test_decode_rect : decode [0x23, 0x46, 0x28, 0x64, 0x3C] = .ok (.rect 70 40 100 60) := by decide
theorem test_decode_printch : decode [0x30, 0x42] = .ok (.printch 0x42) := by decide
theorem test_decode_printstr :
    decode [0x31, 0x00, 0x01, 0x00, 0x01, 0x02, 0x48, 0x69] = .ok (.printstr 0 1 0x0100 [0x48, 0x69]) := by decide
theorem test_decode_printstrb :
    decode [0x32, 0x0A, 0x02, 0x0A, 0x00, 0x02, 0x30, 0x30] = .ok (.printstrb 10 2 0x000A [0x30, 0x30]) := by decide
theorem test_decode_init : decode [0x40] = .ok .init := by decide
theorem test_decode_setdinv : decode [0x41, 0x01] = .ok (.setdinv 1) := by decide
theorem test_decode_settinv : decode [0x42, 0x01] = .ok (.settinv 1) := by decide
theorem test_decode_goto : decode [0x43, 0x0A, 0x02] = .ok (.goto 10 2) := by decide
theorem test_decode_refresh : decode [0x44] = .ok .refresh := by decide
theorem test_decode_refreshr : decode [0x45, 0x05, 0x07, 0x06, 0x08] = .ok (.refreshr 5 7 6 8) := by decide

/-- R86: 0x00 and 0xFF, and the values next to the defined ones. -/
theorem test_decode_illegal : ∀ op ∈ [0x00#8, 0xFF#8, 0x0F#8, 0x15#8, 0x1F#8, 0x24#8, 0x2F#8, 0x33#8, 0x3F#8, 0x46#8],
    decode [op, 0, 0, 0, 0, 0, 0] = .error .illegalOpcode := by decide

/-- V-E4, V-E7, V-E8, V-E9: cut in the fixed part, and in the string. -/
theorem test_decode_truncated :
    decode [0x20, 0x00, 0x00] = .error .truncated ∧ decode [0x31, 0x00, 0x00, 0x00, 0x00] = .error .truncated ∧
    decode [0x31, 0x00, 0x00, 0x00, 0x00, 0x05, 0x41, 0x42] = .error .truncated ∧
    decode [0x31, 0x00, 0x00, 0x0F, 0x00, 0x05, 0x41] = .error .truncated := by decide

/-- R85: a byte 0x00 inside the string does not end it, and what follows the string is not read. -/
theorem test_decode_string_holds_zero :
    decode [0x31, 0, 0, 0, 0, 2, 0x00, 0x41, 0x42] = .ok (.printstr 0 0 0 [0x00, 0x41]) := by decide

/-- The encoder writes the bytes of the R91 example. -/
theorem test_encode_printstr :
    encode (.printstr 0 1 0x0100 [0x48, 0x69]) = [0x31, 0x00, 0x01, 0x00, 0x01, 0x02, 0x48, 0x69] := by decide

/-- Byte 0 in bits 7..0, the next byte in bits 15..8, and so on; bits above `nbits` are 0. -/
theorem test_tableWord_setpix : decodeTableWord 32 0x01140A11 = some (.setpix 10 20 1) := by decide +kernel
theorem test_tableWord_opcode_only : decodeTableWord 8 0x23 = some (.rect 0 0 0 0) := by decide +kernel
theorem test_tableWord_illegal : decodeTableWord 8 0x15 = none := by decide +kernel

/-- From reset, the very next step fetches the word placed. -/
theorem test_withFetchWord :
    (State.reset.withFetchWord 32 0x01140A11).fetch = .ok (.setpix 10 20 1) ∧
    (State.reset.withFetchWord 8 0x45).fetch = .ok (.refreshr 0 0 0 0) := by decide +kernel

/-- A stream that needs a default font gets the smallest one (R6), so PRINTCH runs; any other leaves FONT as it is. -/
theorem test_withFetchWord_printch :
    (State.reset.withFetchWord 16 0x4230).cfg.wf = true ∧
    (match step (State.reset.withFetchWord 16 0x4230) with | .next t => some t.pc | _ => none) = some 2 ∧
    (State.reset.withFetchWord 8 0x10).cfg.font = [] := by decide +kernel

/-! ### Configurations (R6) -/

/-- The program of a stream ends where the bytes are no command, so the last 0x30 0x41 is not in it. -/
theorem test_program :
    ({ font := [], defaultFontBase := 0, cmd := [0x10, 0x43, 1, 2, 0x00, 0x30, 0x41] } : RunConfig).program =
      [.clear, .goto 1 2] := by decide

/-! ### The assembler (R91, R92) -/

theorem test_assemble_setpix :
    assembleLine ['S','E','T','P','I','X',' ','1','0',',',' ','2','0',',',' ','1',' ',';',' ','x'] =
      some (some (.setpix 10 20 1)) := by decide
theorem test_assemble_printstr :
    assembleLine ['P','R','I','N','T','S','T','R',' ','0',',','1',',','0','x','0','1','0','0',',','"','H','i','"'] =
      some (some (.printstr 0 1 0x0100 [0x48, 0x69])) := by decide
theorem test_assemble_char : assembleLine ['P','R','I','N','T','C','H',' ','\'','A','\''] =
    some (some (.printch 0x41)) := by decide
theorem test_assemble_pseudo :
    assemble .home [] = some (.goto 0 0) ∧ assemble .pset [.number 3, .number 4] = some (.setpix 3 4 1) ∧
    assemble .pclr [.number 3, .number 4] = some (.setpix 3 4 0) := by decide
theorem test_assemble_rejects :
    assemble .setpix [.number 0, .number 0, .number 2] = none ∧ assemble .getpix [.number 256, .number 0] = none ∧
    assemble .printstr [.number 0, .number 0, .number 65536, .string []] = none ∧ assemble .clear [.number 0] = none :=
  by decide

/-! ### One step of each command -/

/-- The FONT space of spec/95_test_vectors.md section 1: table T1 at 0, table T2 at 0x0A. -/
def testFont : List Byte :=
  [0x03, 0x08, 0x41, 0x02, 0x7E, 0x09, 0x7E, 0x7F, 0x49, 0x36, 0x02, 0x10, 0x30, 0x01, 0xFF, 0x01, 0x0F, 0xF0]

/-- After reset, with the test configuration, a command stream and some bytes of the PixelBuffer written. -/
def start (cells : Memory) (cmd : List Byte := []) : State :=
  { State.reset with
    fb := { mem := cells, draw := 0 }
    cfg := { font := testFont, defaultFontBase := 0, cmd := cmd } }

/-- Some bytes of the PixelBuffer, all zero. -/
def zeroAt (addresses : List Nat) : Memory := addresses.map fun a => (a, 0#8)

/-- A field of the next state, where there is one. -/
def after {α : Type} (o : Result) (field : State → α) : Option α :=
  match o with
  | .next t => some (field t)
  | .fault _ | .refused _ => none

/-- The written bytes after a command. -/
def memAfter (i : Instr) (s : State) : Option Memory := after (exec i s) fun t => t.fb.mem

/-- The trace after a command. -/
def wireAfter (i : Instr) (s : State) : Option (List WireEvent) := after (exec i s) fun t => t.wire

/-- The cursor after a command: CUR_X, CUR_ROW, FAILED. -/
def cursorAfter (i : Instr) (s : State) : Option (Byte × Byte × Bool) :=
  after (exec i s) fun t => (t.curX, t.curRow, t.failed)

/-- A command byte, a data byte. -/
def c (b : Byte) : WireEvent := .command b
def d (b : Byte) : WireEvent := .data b

/-- V-P17. -/
theorem test_clear : after (exec .clear (start [(0, 0x5A), (503, 0x5A)]))
    (fun t => (t.fb.read 0, t.fb.read 250, t.fb.read 503, t.pc)) = some (0, 0, 0, 1) := by decide +kernel

/-- V-P2; V-P6: both coordinates clamped. -/
theorem test_setpix_clamps : memAfter (.setpix 255 255 1) (start (zeroAt [503])) = some [(503, 0x80)] := by decide
/-- V-P5: clearing keeps the other bits. -/
theorem test_setpix_clears : memAfter (.setpix 0 0 0) (start [(0, 0xFF)]) = some [(0, 0xFE)] := by decide
/-- V-P10. -/
theorem test_getpix_on : after (exec (.getpix 10 20) (start [(178, 0x10)])) (·.res) = some 1 := by decide
theorem test_getpix_off : after (exec (.getpix 10 21) (start [(178, 0x10)])) (·.res) = some 0 := by decide
/-- V-P11. -/
theorem test_getbyte : after (exec (.getbyte 2 10) (start [(178, 0x10)])) (·.res) = some 0x10 := by decide
/-- V-P15: row and column are tested apart. -/
theorem test_getbyte_faults : after (exec (.getbyte 0 84) (start [])) (fun t => (t.faulted, t.fcause, t.res, t.pc)) =
    some (true, 3, 0, 0) := by decide
/-- V-P12. -/
theorem test_setbyte : memAfter (.setbyte 5 83 0x80) (start []) = some [(503, 0x80)] := by decide
/-- V-P16. -/
theorem test_setbyte_faults : after (exec (.setbyte 0 100 0xFF) (start [(100, 7)])) (fun t => (t.fb.mem, t.fcause)) =
    some ([(100, 7)], 3) := by decide
/-- V-L1: clamped at column 83, and no byte of another band touched. -/
theorem test_hline : memAfter (.hline 80 47 10) (start (zeroAt [500, 501, 502, 503])) =
    some [(500, 0x80), (501, 0x80), (502, 0x80), (503, 0x80)] := by decide
/-- V-L2, V-L4. -/
theorem test_hline_draws_nothing :
    memAfter (.hline 84 0 3) (start []) = some [] ∧ memAfter (.hline 83 0 0) (start []) = some [] := by decide
/-- V-L8: eleven points, seven of them clamped onto row 47. -/
theorem test_vline : memAfter (.vline 3 44 10) (start (zeroAt [423])) = some [(423, 0xF0)] := by decide
/-- V-L9: length 0 draws one pixel, the column clamped. -/
theorem test_vline_zero : memAfter (.vline 200 5 0) (start (zeroAt [83])) = some [(83, 0x20)] := by decide
/-- V-L14 (P2 of section 8): the second swap fires and x steps down. -/
theorem test_line_xmajor : memAfter (.line 0 5 10 0) (start (zeroAt (List.range 11))) =
    some [(0, 0x20), (1, 0x20), (2, 0x10), (3, 0x10), (4, 0x08), (5, 0x08), (6, 0x04), (7, 0x04), (8, 0x02), (9, 0x02),
      (10, 0x01)] := by decide +kernel
/-- V-L17: y-major with a negative dx. -/
theorem test_line_ymajor : memAfter (.line 3 0 0 6) (start (zeroAt [0, 1, 2, 3])) =
    some [(0, 0x40), (1, 0x30), (2, 0x0C), (3, 0x03)] := by decide +kernel
/-- S7. -/
theorem test_rect : memAfter (.rect 2 2 10 10) (start (zeroAt (List.range' 2 9 ++ List.range' 86 9))) =
    some ([(2, 0xFC)] ++ (List.range' 3 7).map (fun a => (a, 0x04)) ++ [(10, 0xFC), (86, 0x07)] ++
      (List.range' 87 7).map (fun a => (a, 0x04)) ++ [(94, 0x07)]) := by decide +kernel
/-- V-L32: no bottom side, the right side on column 83. -/
theorem test_rect_offscreen : memAfter (.rect 70 40 100 60) (start (zeroAt (List.range' 490 14))) =
    some ([(490, 0xFF)] ++ (List.range' 491 12).map (fun a => (a, 0x01)) ++ [(503, 0xFF)]) := by decide +kernel
/-- V-F22. -/
theorem test_printch : wireAfter (.printch 0x42) (start []) = some [d 0x7F, d 0x49, d 0x36] := by decide
/-- V-F23; V-F24: outside the font. -/
theorem test_printch_inverted :
    wireAfter (.printch 0x41) ((start []).setTi true) = some [d 0x81, d 0xF6, d 0x81] ∧
    wireAfter (.printch 0x43) (start []) = some [] ∧ wireAfter (.printch 0x40) (start []) = some [] := by decide
/-- V-F2. -/
theorem test_printstr : wireAfter (.printstr 78 4 0 [0x41, 0x42, 0x41]) ((start []).setTi true) =
      some [c 0x44, c 0xCE, d 0x81, d 0xF6, d 0x81, c 0x80, c 0x40, c 0x44, c 0xD1, d 0x80, d 0xB6, d 0xC9, c 0x80, c 0x40] ∧
    cursorAfter (.printstr 78 4 0 [0x41, 0x42, 0x41]) ((start []).setTi true) = some (0, 5, true) := by decide +kernel
/-- V-F18: a two-band font that wraps. -/
theorem test_printstr_two_bands : wireAfter (.printstr 82 0 0x000A [0x30, 0x30]) (start []) =
      some [c 0x40, c 0xD2, d 0xFF, d 0x0F, c 0x41, c 0xD2, d 0x01, d 0xF0, c 0x80, c 0x40, c 0x42, c 0x80, d 0xFF, d 0x0F,
        c 0x43, c 0x80, d 0x01, d 0xF0, c 0x80, c 0x40] ∧
    cursorAfter (.printstr 82 0 0x000A [0x30, 0x30]) (start []) = some (2, 2, false) := by decide +kernel
/-- V-F19. -/
theorem test_printstrb : memAfter (.printstrb 10 2 0x000A [0x30, 0x30]) (start []) =
      some [(178, 0xFF), (179, 0x0F), (180, 0xFF), (181, 0x0F), (262, 0x01), (263, 0xF0), (264, 0x01), (265, 0xF0)] ∧
    cursorAfter (.printstrb 10 2 0x000A [0x30, 0x30]) (start []) = some (14, 2, false) := by decide +kernel
/-- S9: the glyphs stored before the failure stay. -/
theorem test_printstrb_fails : memAfter (.printstrb 78 4 0 [0x41, 0x42, 0x41]) (start []) =
      some [(414, 0x7E), (415, 0x09), (416, 0x7E), (417, 0x7F), (418, 0x49), (419, 0x36)] ∧
    cursorAfter (.printstrb 78 4 0 [0x41, 0x42, 0x41]) (start []) = some (0, 5, true) := by decide +kernel
/-- V-S1. -/
theorem test_init : after (exec .init (((start [(0, 0x5A)]).setTi true).setDi true))
      (fun t => (t.wire, t.mode, t.fb.read 0)) =
    some ([.rst, c 0x21, c 0xCC, c 0x04, c 0x14, c 0x20, c 0x0C], 0, 0) := by decide +kernel
/-- V-S2, V-S4. -/
theorem test_setdinv : after (exec (.setdinv 1) (start [])) (fun t => (t.wire, t.mode)) = some ([c 0x0D], 0x01) ∧
    after (exec (.setdinv 0) ((start []).setDi true)) (fun t => (t.wire, t.mode)) = some ([c 0x0C], 0x00) := by decide
/-- V-E6. -/
theorem test_setdinv_faults : after (exec (.setdinv 3) (start [])) (fun t => (t.wire, t.mode, t.fcause)) =
    some ([], 0, 3) := by decide
/-- V-S5, V-S6. -/
theorem test_settinv : after (exec (.settinv 1) ((start []).setDi true)) (fun t => (t.wire, t.mode)) = some ([], 0x03) ∧
    after (exec (.settinv 0) (((start []).setDi true).setTi true)) (·.mode) = some 0x01 := by decide
/-- V-S8. -/
theorem test_goto : wireAfter (.goto 83 5) (start []) = some [c 0xD3, c 0x45] := by decide
/-- V-S9. -/
theorem test_goto_faults : after (exec (.goto 84 0) (start [])) (fun t => (t.wire, t.fcause)) = some ([], 3) ∧
    after (exec (.goto 0 6) (start [])) (fun t => (t.wire, t.fcause)) = some ([], 3) := by decide
/-- V-S10. -/
theorem test_refresh : after (exec .refresh (start [(0, 0xAA), (503, 0x55)]))
      (fun t => (t.wire.length, t.wire.take 3, t.wire.drop 505)) =
    some (506, [c 0x80, c 0x40, d 0xAA], [d 0x55]) := by decide +kernel
/-- V-S13: the region straddles two bands. -/
theorem test_refreshr : wireAfter (.refreshr 5 7 6 8) (start [(5, 1), (6, 2), (89, 3), (90, 4)]) =
    some [c 0x85, c 0x40, d 1, d 2, c 0x85, c 0x41, d 3, d 4] := by decide
/-- V-S17 to V-S20. -/
theorem test_refreshr_faults : ∀ i ∈ [Instr.refreshr 5 0 4 0, .refreshr 0 0 84 0, .refreshr 0 48 0 48, .refreshr 0 9 0 8],
    after (exec i (start [])) (fun t => (t.wire, t.fcause)) = some ([], 3) := by decide

/-- V-E2 and V-E3's second step: FPC is the address of the opcode byte. -/
theorem test_step_illegal : after (step { start [] [0x10, 0x00] with pc := 1 })
      (fun t => (t.pc, t.readSR 1, t.readSR 5, t.readSR 6, t.readSR 7)) = some (1, 0x02, 1, 1, 0) := by decide
/-- V-E9: a truncated command with a bad font base reports the truncation. -/
theorem test_step_priority : after (step (start [] [0x31, 0x00, 0x00, 0x0F, 0x00, 0x05, 0x41])) (·.fcause) = some 2 := by
  decide
/-- V-F26, V-F28: FontBounds with an empty string, and for entries that run beyond FONT. -/
theorem test_fontBounds : after (exec (.printstr 0 0 0x0010 []) (start [])) (·.fcause) = some 4 ∧
    parseFont (testFont.set 0x0D 2) 0x000A = none := by decide
/-- V-F27: the check is about the FONT space only. -/
theorem test_font_overlap : wireAfter (.printstr 0 0 0 [0x43])
      { start [] with cfg := { font := testFont.set 3 3, defaultFontBase := 0, cmd := [] } } =
    some [c 0x40, c 0x80, d 0x02, d 0x10, d 0x30, c 0x80, c 0x40] := by decide +kernel
/-- V-F13 and V-F14: 140 glyphs fill five rows; the next one fails. -/
theorem test_string_to_the_end :
    cursorAfter (.printstr 0 0 0 (List.replicate 140 0x41)) (start []) = some (0, 5, false) ∧
    cursorAfter (.printstr 0 0 0 (List.replicate 141 0x41)) (start []) = some (0, 5, true) := by decide +kernel

/-! ### Witnesses: for each statement with hypotheses, a state and operands that meet them -/

/-- The outcome is a next state. -/
def isNext (o : Result) : Bool := (after o fun _ => ()).isSome

theorem exists_next {o : Result} (h : isNext o = true) : ∃ t, o = .next t := by
  cases o with
  | next t => exact ⟨t, rfl⟩
  | fault r => cases h
  | refused r => cases h

/-- The outcome is a next state in which no command waits at the transport. -/
def isDone (o : Result) : Bool := (after o fun t => t.waiting.isNone) = some true

theorem exists_done {o : Result} (h : isDone o = true) : ∃ t, o = .next t ∧ t.waiting = none := by
  cases o with
  | next t => exact ⟨t, rfl, by simpa [isDone, after] using h⟩
  | fault r => cases h
  | refused r => cases h

/-- A state with the test configuration and a stream of at most 65535 bytes meets the invariant. -/
theorem inv_start {cells : Memory} {cmd : List Byte} (h : Memory.wf cells) (hc : cmd.length ≤ 65535) :
    (start cells cmd).Inv where
  fbWf := h
  modeBits := (by decide : State.reset.mode.extractLsb' 2 6 = 0)
  statusBits := (by decide : State.reset.status.extractLsb' 2 6 = 0)
  pcInStream := Nat.zero_le _
  cfgWf := by
    have hf : testFont.length ≤ 65536 := by decide
    have hd : (start cells cmd).cfg.defaultFontOk = true :=
      (RunConfig.defaultFontOk_iff _).2
        ⟨⟨0, 3, 8, 0x41, 2⟩, (by decide : parseFont testFont 0 = some ⟨0, 3, 8, 0x41, 2⟩), by decide⟩
    rw [RunConfig.wf, hd, Bool.or_true, Bool.and_true]
    simp [RunConfig.sizesOk, start, hc, hf]
  noFault := fun _ => ⟨rfl, rfl, rfl⟩
  fault := fun h => absurd h (by decide : ¬ State.reset.faulted = true)
  stuck := fun h => absurd h (by decide : ¬ State.reset.isStuck = true)

theorem witness_DecodeOfEncodeIsTheCommand :
    (Instr.printstr 255 0 0xFFFF (List.replicate 255 0)).encodable = true := by decide +kernel
theorem witness_EncodeOfDecodeIsTheBytes : decode [0x45, 1, 2, 3, 4, 5] = .ok (.refreshr 1 2 3 4) := by decide
theorem witness_EveryProperPrefixIsTruncated :
    (Instr.printstr 0 0 0 [1, 2]).encodable = true ∧ 0 < (Instr.printstr 0 0 0 [1, 2]).size ∧
    7 < (Instr.printstr 0 0 0 [1, 2]).size := by decide
theorem witness_AssembledCommandsAreWellFormed :
    assemble .setdinv [.number 1] = some (.setdinv 1) := by decide
/-- Each branch of the step: the last one of an allowed configuration at `pc = CMD_LEN`, and a refused one. -/
theorem witness_StepRunsTheDecodedCommand :
    ((start [] [0x10]).faulted = false ∧ (start [] [0x10]).pc.toNat < (start [] [0x10]).cfg.cmd.length ∧
      decode ((start [] [0x10]).cfg.cmd.drop (start [] [0x10]).pc.toNat) = .ok .clear) ∧
    ((start [] [0xFF]).faulted = false ∧ (start [] [0xFF]).pc.toNat < (start [] [0xFF]).cfg.cmd.length ∧
      decode ((start [] [0xFF]).cfg.cmd.drop (start [] [0xFF]).pc.toNat) = .error .illegalOpcode) ∧
    ((start [] [0x20, 0, 0]).faulted = false ∧
      (start [] [0x20, 0, 0]).pc.toNat < (start [] [0x20, 0, 0]).cfg.cmd.length ∧
      decode ((start [] [0x20, 0, 0]).cfg.cmd.drop (start [] [0x20, 0, 0]).pc.toNat) = .error .truncated) ∧
    ((start []).recordFault .operandRange).faulted = true ∧
    (start []).faulted = false ∧ (start []).cfg.cmd.length ≤ (start []).pc.toNat ∧ (start []).waiting = none ∧
    (start []).cfg.wf = true ∧ ((start []).stall [.rst]).faulted = false ∧
    (State.stall [.rst] { start [] with transport := .accepts 0 }).waiting ≠ none ∧
    ({ font := [], defaultFontBase := 0, cmd := [0x30, 0] } : RunConfig).wf = false := by decide
/-- A command that leaves FAULT set where it was clear. -/
theorem witness_RaisingRecordsTheFaultAndNothingElse :
    (start []).faulted = false ∧ ∃ t, exec (.goto 84 0) (start []) = .next t ∧ t.faulted = true :=
  ⟨by decide, _, rfl, by decide⟩
/-- An enabled state for each cause, with the cause raised there. -/
theorem witness_EachFaultIsRaisedExactlyWhereListed :
    ((start [] [0xFF]).enabled = true ∧ raisedAt (start [] [0xFF]) .illegalOpcode) ∧
    ((start [] [0x20, 0, 0]).enabled = true ∧ raisedAt (start [] [0x20, 0, 0]) .truncatedCommand) ∧
    ((start [] [0x13, 6, 0]).enabled = true ∧ raisedAt (start [] [0x13, 6, 0]) .operandRange) ∧
    ((start [] [0x31, 0, 0, 15, 0, 0]).enabled = true ∧ raisedAt (start [] [0x31, 0, 0, 15, 0, 0]) .fontBounds) :=
  ⟨⟨by decide, by unfold raisedAt; decide⟩, ⟨by decide, by unfold raisedAt; decide⟩,
    ⟨by decide, .getbyte 6 0, by decide, .inl (by decide)⟩,
    ⟨by decide, .printstr 0 0 15 [], by decide, .inl (by decide)⟩⟩
/-- A step that faults, one that completes, and one that leaves the core stuck. -/
theorem witness_EveryStepFaultsPreciselyOrAdvances :
    (∃ t, step (start [] [0xFF]) = .next t) ∧ (∃ t, step (start [] [0x42, 1]) = .next t) ∧
    ∃ t, step { start [] [0x41, 1] with transport := .accepts 0 } = .next t :=
  ⟨exists_next (by decide), exists_next (by decide), exists_next (by decide)⟩
theorem witness_EveryStepAppendsToTheWire : ∃ t, step (start [] [0x43, 83, 5]) = .next t := exists_next (by decide)
theorem witness_EveryStepKeepsTheInvariant :
    (start [(0, 1), (503, 2)] [0x14, 5, 83, 7]).Inv ∧ ∃ t, step (start [(0, 1), (503, 2)] [0x14, 5, 83, 7]) = .next t :=
  ⟨inv_start (by decide) (by decide), exists_next (by decide)⟩
theorem witness_EveryRunEnds : (start [] [0x10, 0x10]).Inv := inv_start (by decide) (by decide)
/-- The four outcomes; then a PRINTCH that a run from the stream's start never fetches, refused. -/
theorem witness_EveryStateHasOneOutcome :
    ((start []).Inv ∧ (start []).isFinal = true) ∧
    ((start [] [0x44]).Inv ∧ (start [] [0x44]).enabled = true ∧ ∃ t, step (start [] [0x44]) = .next t) ∧
    ((State.stall [.rst] { start [] [0x40] with transport := .accepts 0 }).isStuck = true) ∧
    (step { start [] with pc := 2, cfg := { font := testFont, defaultFontBase := 10, cmd := [0x14, 0, 0x30, 0x41] } }
      matches .refused .defaultFontNotSingleBand) ∧
    (step ((start [] [0x44]).recordFault .illegalOpcode) matches .fault .halted) :=
  ⟨⟨inv_start (by decide) (by decide), by decide⟩,
    ⟨inv_start (by decide) (by decide), by decide, exists_next (by decide)⟩, by decide, by decide, by decide⟩
/-- SETDINV sends one event: a transport that will accept one lets it complete, one that will accept none does not. -/
theorem witness_AStalledTransportStallsTheCommand :
    (∃ t, exec (.setdinv 1) { start [] with transport := .ready } = .next t) ∧
    (∃ t, exec (.setdinv 1) { start [] with transport := .accepts 1 } = .next t ∧ t.waiting = none) ∧
    after (exec (.setdinv 1) { start [] with transport := .accepts 0 }) (fun t => (t.waiting, t.di, t.pc)) =
      some (some (c 0x0D), true, 0) :=
  ⟨exists_next (by decide), exists_done (by decide), by decide⟩
/-- R59: a REFRESH cut at the fourth event. INIT cut at its last has cleared nothing. -/
theorem test_stuck :
    after (exec .refresh { start [(0, 0xAA), (1, 0x55)] with transport := .accepts 3 })
      (fun t => (t.wire, t.waiting, t.pc)) = some ([c 0x80, c 0x40, d 0xAA], some (d 0x55), 0) ∧
    after (exec .init { start [(0, 0xAA)] with transport := .accepts 6 })
      (fun t => (t.wire.length, t.waiting, t.fb.mem)) = some (6, some (c 0x0C), [(0, 0xAA)]) := by decide +kernel
/-- A refused configuration; its run is refused at once. -/
theorem witness_ConfigurationsThatViolateTheirConstraintsAreRefused :
    RunsTo 0 { start [] with cfg := { font := testFont, defaultFontBase := 10, cmd := [0x10, 0x30, 0] } }.hardwareReset
      { start [] with cfg := { font := testFont, defaultFontBase := 10, cmd := [0x10, 0x30, 0] } }.hardwareReset ∧
    step { start [] with cfg := { font := testFont, defaultFontBase := 10, cmd := [0x10, 0x30, 0] } }.hardwareReset =
      .refused .configurationNotAllowed ∧
    ({ font := testFont, defaultFontBase := 10, cmd := [0x10, 0x30, 0] } : RunConfig).program = [.clear, .printch 0] :=
  ⟨rfl, rfl, by decide⟩
theorem witness_StateIsWrittenOnlyByItsCommands : ∃ t, exec (.getbyte 5 83) (start []) = .next t := ⟨_, rfl⟩
/-- A final state, a faulted one, and one that is neither. -/
theorem witness_TheHostReadsOnlyAtTheEnd :
    (start []).pc.toNat = (start []).cfg.cmd.length ∧ ((start [] [0xFF]).recordFault .illegalOpcode).faulted = true ∧
    (start [] [0x10]).faulted = false ∧ (start [] [0x10]).pc.toNat ≠ (start [] [0x10]).cfg.cmd.length := by decide
/-- The two clauses of SETPIX, and those of SetdinvSelectsThePolarity and SettinvSelectsTheTextInversion: at 1 and at 2. -/
theorem witness_SetpixWritesTheClampedPixel : (1 : Byte).toNat < 2 ∧ 2 ≤ (2 : Byte).toNat := by decide
/-- The clauses of GetbyteReadsAStripOrFaults, SetbyteWritesAStripOrFaults and GotoSendsTheTwoAddresses where they meet:
band 5 and column 83; band 6; column 84. -/
theorem witness_strip_ranges :
    ((5 : Byte).toNat ≤ 5 ∧ (83 : Byte).toNat ≤ 83) ∧ ((6 : Byte).toNat > 5 ∨ (0 : Byte).toNat > 83) ∧
    ((0 : Byte).toNat > 5 ∨ (84 : Byte).toNat > 83) := by decide
/-- Operands that meet every premise of the six laws at once, with the two steps of law (f). -/
theorem witness_PixelBufferFamilyLaws :
    (1 : Byte).toNat < 2 ∧ (5 : Byte).toNat ≤ 5 ∧ (83 : Byte).toNat ≤ 83 ∧ (47 : Byte).toNat ≤ 47 ∧
    (∃ t u, exec .clear (start []) = .next t ∧ exec .clear t = .next u) :=
  ⟨by decide, by decide, by decide, by decide, _, _, rfl, rfl⟩
/-- Both clauses at the last pixel of the display: a horizontal line, and a vertical one. -/
theorem witness_AnAxisAlignedLineDrawsItsRun : (47 : Byte) = 47 ∧ (46 : Byte) ≠ 47 ∧ (83 : Byte) = 83 := by decide
/-- Both axes, and the tie. -/
theorem witness_LineEngineRoundsTheMinorCoordinate :
    ((0 : Byte).toNat < (5 : Byte).toNat ∧ (0 : Byte) ≠ 10) ∧ ((0 : Byte).toNat < (6 : Byte).toNat ∧ (3 : Byte) ≠ 0) ∧
    ((0 : Byte).toNat < (10 : Byte).toNat ∧ (0 : Byte) ≠ 10) := by decide
/-- A horizontal line whose left end is just in bounds. -/
theorem witness_LineLaws :
    ¬ ((47 : Byte) = 47 ∧ (min (83 : Byte).toNat (100 : Byte).toNat > 83 ∨ (47 : Byte).toNat > 47)) := by decide
theorem witness_RectDrawsTheOutline : onOutline 0 0 83 47 83 47 := .inl (by decide)
/-- Table T2 ends exactly at `FONT_SIZE`; one base further the header does not fit. -/
theorem witness_ParseFontChecksTheWholeTable :
    parseFont testFont 10 = some ⟨10, 2, 16, 0x30, 1⟩ ∧ parseFont testFont 15 = none := by decide
theorem witness_GlyphBytesLieInTheFont :
    parseFont testFont 10 = some ⟨10, 2, 16, 0x30, 1⟩ ∧ FontTable.inFont ⟨10, 2, 16, 0x30, 1⟩ 0x30 = true ∧
    1 < 2 ∧ 1 < (16 + 7) / 8 := by decide
/-- An in-font character with a transport that will accept just its three bytes; one outside; a table too long. -/
theorem witness_PrintchSendsTheDefaultGlyph :
    parseFont (start []).cfg.font (start []).cfg.defaultFontBase.toNat = some ⟨0, 3, 8, 0x41, 2⟩ ∧
    FontTable.rows ⟨0, 3, 8, 0x41, 2⟩ = 1 ∧ FontTable.inFont ⟨0, 3, 8, 0x41, 2⟩ 0x42 = true ∧
    transportAccepts (.accepts 3) 3 = true ∧ FontTable.inFont ⟨0, 3, 8, 0x41, 2⟩ 0x43 = false ∧
    fontTooLong [] 0 := ⟨by decide, by decide, by decide, by decide, by decide, .inl (by decide)⟩
theorem witness_PrintchRefusesAMultiBandDefaultFont :
    parseFont testFont 10 = some ⟨10, 2, 16, 0x30, 1⟩ ∧ FontTable.rows ⟨10, 2, 16, 0x30, 1⟩ ≠ 1 := by decide
/-- A run of the cursor machine with every rule in it: along, skip, wrap, stop. It is the premise of
GlyphsStayOnTheDisplay, and of PrintstrFollowsTheCursorMachine and PrintstrbFollowsTheCursorMachine. -/
theorem witness_TextRuns : TextRuns ⟨0, 3, 8, 0x41, 2⟩ [0x41, 0x7A, 0x42, 0x41] ⟨78, 4, false⟩
    [(⟨78, 4, false⟩, 0x41), (⟨81, 4, false⟩, 0x42)] ⟨0, 5, true⟩ :=
  .along (by decide) (by decide) (by decide) (by decide) (by decide)
    (.skip (by decide) (.wrap (by decide) (by decide) (by decide) (by decide) (by decide)
      (.stop (by decide) (by decide) (.inr (by decide)))))
/-- The other premises of the two string statements: a string that fits its length byte, the font, and a transport that
will accept just the 14 events of the run above. -/
theorem witness_PrintstrFollowsTheCursorMachine :
    [0x41#8, 0x7A#8, 0x42#8, 0x41#8].length < 256 ∧
    parseFont testFont 0 = some ⟨0, 3, 8, 0x41, 2⟩ ∧
    transportAccepts (.accepts 14) (([((⟨78, 4, false⟩ : Cursor), (0x41 : Byte)), (⟨81, 4, false⟩, 0x42)].flatMap fun g =>
      glyphEvents testFont false ⟨0, 3, 8, 0x41, 2⟩ g.1 g.2).length) = true := by decide
/-- The last clause of AStalledTransportStallsTheCommand: the second glyph of the run above, cut at its first event and at
its last. -/
theorem witness_AStalledTransportStallsTheCommand_printstr : ∀ k ∈ [7, 13],
    (([((⟨78, 4, false⟩ : Cursor), (0x41 : Byte))].flatMap fun g =>
      glyphEvents testFont false ⟨0, 3, 8, 0x41, 2⟩ g.1 g.2).length) ≤ k ∧
    k < (([((⟨78, 4, false⟩ : Cursor), (0x41 : Byte))].flatMap fun g =>
      glyphEvents testFont false ⟨0, 3, 8, 0x41, 2⟩ g.1 g.2).length) +
        (glyphEvents testFont false ⟨0, 3, 8, 0x41, 2⟩ ⟨81, 4, false⟩ 0x42).length := by decide
/-- The last place a one-band glyph fits: column 81 of band 4. -/
theorem witness_PrintstrbStoresOneGlyph :
    parseFont testFont 0 = some ⟨0, 3, 8, 0x41, 2⟩ ∧ FontTable.inFont ⟨0, 3, 8, 0x41, 2⟩ 0x41 = true ∧
    (81 : Byte).toNat + 3 ≤ 84 ∧ (4 : Byte).toNat + FontTable.rows ⟨0, 3, 8, 0x41, 2⟩ < 6 := by decide
theorem witness_AGlyphIsSentBandByBand : 81 + 3 ≤ 84 ∧ 4 + FontTable.rows ⟨0, 3, 8, 0x41, 2⟩ < 6 := by decide
/-- The last clause of PRINTCH, PRINTSTR and PRINTSTRB: the header does not fit; it fits and the entries do not (V-F28). -/
theorem witness_text_commands_fontTooLong :
    fontTooLong testFont 15 ∧ fontTooLong (testFont.set 0x0D 2) 0x000A := ⟨.inl (by decide), .inr (by decide)⟩
/-- 25 glyphs from column 6 end flush: one more would still fit. -/
theorem witness_AStringThatFitsEndsAfterItsGlyphs :
    parseFont testFont 0 = some ⟨0, 3, 8, 0x41, 2⟩ ∧
    (∀ c ∈ List.replicate 25 (0x41 : Byte), FontTable.inFont ⟨0, 3, 8, 0x41, 2⟩ c = true) ∧
    (6 : Byte).toNat + 3 * (List.replicate 25 (0x41 : Byte)).length + 3 ≤ 84 ∧
    (4 : Byte).toNat + FontTable.rows ⟨0, 3, 8, 0x41, 2⟩ < 6 ∧ (start []).transport = .ready := by decide
theorem witness_BothStringCommandsEndAtTheSameCursor :
    (∃ t, exec (.printstr 78 4 0 [0x41]) (start []) = .next t ∧ t.waiting = none) ∧
    ∃ u, exec (.printstrb 78 4 0 [0x41]) (start []) = .next u :=
  ⟨exists_done (by decide), exists_next (by decide)⟩
theorem witness_CharactersOutsideTheFontAreSkipped :
    parseFont testFont 0 = some ⟨0, 3, 8, 0x41, 2⟩ ∧ (start []).transport = .ready := by decide
theorem witness_TheBottomBandIsOutOfReachOfStrings :
    (∃ t, exec (.printstrb 81 4 0 [0x41]) (start []) = .next t) ∧ 420 ≤ 420 := ⟨exists_next (by decide), le_rfl⟩
/-- For InitConfiguresAndClears, SetdinvSelectsThePolarity, GotoSendsTheTwoAddresses, RefreshSendsTheWholeBuffer and
RefreshrSendsTheTouchedBands: transports that will accept just the events of the command. -/
theorem witness_transports :
    transportAccepts (.accepts 7) 7 = true ∧ transportAccepts (.accepts 1) 1 = true ∧
    transportAccepts (.accepts 2) 2 = true ∧ transportAccepts (.accepts 506) 506 = true ∧
    transportAccepts (.accepts 516) ((2 + 83 - 0 + 1) * (47 / 8 - 0 / 8 + 1)) = true := by decide
/-- Both clauses of REFRESHR where they meet: the whole display, and each bound passed by one. -/
theorem witness_RefreshrSendsTheTouchedBands :
    ((0 : Byte).toNat ≤ (83 : Byte).toNat ∧ (83 : Byte).toNat ≤ 83 ∧ (0 : Byte).toNat ≤ (47 : Byte).toNat ∧
      (47 : Byte).toNat ≤ 47) ∧
    (1 : Byte).toNat > (0 : Byte).toNat ∧ (84 : Byte).toNat > 83 ∧ (48 : Byte).toNat > 47 := by decide
theorem witness_ScreenControllerEventCounts :
    (∃ t, exec .init (start []) = .next t ∧ t.waiting = none) ∧
    (∃ t, exec (.setdinv 1) (start []) = .next t ∧ t.waiting = none) ∧
    (∃ t, exec (.settinv 1) (start []) = .next t) ∧
    (∃ t, exec (.goto 83 5) (start []) = .next t ∧ t.waiting = none) ∧
    (∃ t, exec .refresh (start []) = .next t ∧ t.waiting = none) ∧
    ∃ t, exec (.refreshr 0 0 83 47) (start []) = .next t ∧ t.waiting = none :=
  ⟨exists_done (by decide), exists_done (by decide), exists_next (by decide), exists_done (by decide),
    exists_done (by decide), exists_done (by decide)⟩
/-- A command that sends two command bytes, and the one that resets the controller. -/
theorem witness_OnlyTheListedCommandBytesAreSent :
    (∃ t, exec (.goto 83 5) (start []) = .next t) ∧ ∃ t, exec .init (start []) = .next t :=
  ⟨exists_next (by decide), exists_next (by decide)⟩
/-- A sink in the basic set with horizontal addressing, for the statements about the assumed controller. -/
def testSink : Sink :=
  { dd := { mem := [], draw := 0 }, x := 83, y := 5, ext := false, vertical := false, powerDown := false,
    display := .normal, tempCoef := 0, bias := 4, vop := 0x4C }
/-- The premises of InitConfiguresTheAssumedSink, RefreshCopiesTheBufferToTheAssumedSink and
RefreshrCopiesItsRegionToTheAssumedSink, the region being the last pixel of the display. -/
theorem witness_assumed_sink :
    testSink.ext = false ∧ testSink.vertical = false ∧ (∃ t, exec .refresh (start []) = .next t ∧ t.waiting = none) ∧
    (∃ t, exec (.refreshr 83 47 83 47) (start []) = .next t ∧ t.waiting = none) ∧
    ∃ t, exec .init (start []) = .next t ∧ t.waiting = none :=
  ⟨rfl, rfl, exists_done (by decide), exists_done (by decide), exists_done (by decide)⟩
/-- A string that sends something, in both commands, with a font at least one column wide. -/
theorem witness_PrintstrShowsWhatPrintstrbStores :
    parseFont (start []).cfg.font 0 = some ⟨0, 3, 8, 0x41, 2⟩ ∧ 1 ≤ 3 ∧ testSink.ext = false ∧ testSink.vertical = false ∧
    (∃ t, exec (.printstr 81 4 0 [0x41]) (start []) = .next t ∧ t.waiting = none ∧ t.wire ≠ (start []).wire) ∧
    ∃ u, exec (.printstrb 81 4 0 [0x41]) { start [] with fb := testSink.dd } = .next u :=
  ⟨by decide, by decide, rfl, rfl, ⟨_, rfl, rfl, by decide⟩, exists_next (by decide)⟩
/-- R64: a data byte in the last column of the last band goes home; an address command that names no column is not described. -/
theorem test_sink_wraps :
    ((Sink.receive testSink (d 7)).map fun k => (k.x, k.y, k.dd.mem)) = some (0, 0, [(503, 7)]) ∧
    (Sink.receive testSink (c 0xD4)).isNone = true := by decide

end Sys2Proof.Tests
end

section
/-! SUPPORT. What a step, a refusal and a run can be, said once, and what each of them keeps. -/

namespace Sys2Proof.Machine

/-! ### The step: a fault, a completed command, or a stuck one -/

/-- A step raises a fault, or the command it fetched completes, or that command is stuck at the transport
(R80, R202, R204). -/
theorem step_outcomes {s t : State} (h : step s = .next t) :
    (∃ k, t = s.recordFault k) ∨ ∃ i, s.fetch = .ok i ∧ (Completes i s t ∨ Blocks s t) := by
  obtain ⟨-, -, -, -, ⟨e, -, ht⟩ | ⟨i, hfetch, hexec⟩⟩ := step_next_cases h
  · exact .inl ⟨_, ht⟩
  · obtain hfault | hdone := exec_next_cases hexec
    · exact .inl hfault
    · exact .inr ⟨i, hfetch, hdone⟩

/-- The command fetched in an allowed configuration ends within the stream, so `pc` does not wrap past it (R6, R21). -/
theorem toNat_pc_add_size {s : State} {i : Instr} (hc : s.cfg.wf = true) (hi : s.fetch = .ok i) :
    (s.pc + BitVec.ofNat 16 i.size).toNat = s.pc.toNat + i.size ∧ s.pc.toNat + i.size ≤ s.cfg.cmd.length := by
  obtain ⟨-, hcmd, -⟩ := s.cfg.wf_iff.1 hc
  obtain ⟨hle, hpos, -⟩ := size_of_decode hi
  rw [List.length_drop] at hle
  have hend : s.pc.toNat + i.size ≤ s.cfg.cmd.length := by omega
  refine ⟨?_, hend⟩
  rw [BitVec.toNat_add, BitVec.toNat_ofNat]
  omega

/-- No step writes the configuration (R32). -/
theorem step_cfg {s t : State} (h : step s = .next t) : t.cfg = s.cfg := by
  obtain ⟨k, rfl⟩ | ⟨i, -, hd | hb⟩ := step_outcomes h
  · rfl
  · exact hd.cfg
  · exact hb.cfg

/-- A step leaves `pc` at its command or moves it past that command's bytes (R21, R80, R202). -/
theorem step_pc_cases {s t : State} (h : step s = .next t) :
    t.pc = s.pc ∨ ∃ i, s.fetch = .ok i ∧ t.pc.toNat = s.pc.toNat + i.size ∧ t.pc.toNat ≤ s.cfg.cmd.length := by
  have hc := (step_next_cases h).1
  obtain ⟨k, rfl⟩ | ⟨i, hi, hd | hb⟩ := step_outcomes h
  · exact .inl rfl
  · obtain ⟨hpc, hle⟩ := toNat_pc_add_size hc hi
    rw [← hd.pc] at hpc
    exact .inr ⟨i, hi, hpc, hpc ▸ hle⟩
  · exact .inl hb.pc

/-! ### The invariant, case by case -/

/-- The four codes of R201. -/
theorem FaultCause.code_range (k : FaultCause) : 1 ≤ k.code.toNat ∧ k.code.toNat ≤ 4 := by
  cases k <;> decide

theorem State.isStuck_of_waiting_none {s t : State} (hs : s.waiting = none) (ht : t.waiting = s.waiting) :
    t.isStuck = false := by
  rw [State.isStuck, ht, hs]
  rfl

/-- Raising a fault keeps the invariant where no command waits: it writes a consistent fault record (R202, R203). -/
theorem State.Inv.recordFault {s : State} (h : s.Inv) (hw : s.waiting = none) (k : FaultCause) :
    (s.recordFault k).Inv where
  fbWf := h.fbWf
  modeBits := h.modeBits
  statusBits := hardwired_withBit _ _ _ (by omega) h.statusBits
  pcInStream := h.pcInStream
  cfgWf := h.cfgWf
  noFault hf := by simp at hf
  fault _ := ⟨k.code_range, State.fpc_recordFault k s⟩
  stuck hs := by simp [State.isStuck_of_waiting_none hw (State.recordFault_waiting s k)] at hs

/-- A completed command keeps the invariant where no fault was latched and no command waits (R21, R30). -/
theorem State.Inv.completes {s t : State} {i : Instr} (h : s.Inv) (hf : s.faulted = false) (hw : s.waiting = none)
    (hi : s.fetch = .ok i) (hd : Completes i s t) : t.Inv where
  fbWf := hd.fbWf h.fbWf
  modeBits := hd.modeBits h.modeBits
  statusBits := hd.statusBits h.statusBits
  pcInStream := by
    obtain ⟨hpc, hle⟩ := toNat_pc_add_size h.cfgWf hi
    rw [hd.cfg, hd.pc, hpc]
    exact hle
  cfgWf := hd.cfg ▸ h.cfgWf
  noFault _ := by
    rw [hd.fcause, hd.fpcLo, hd.fpcHi]
    exact h.noFault hf
  fault ht := by simp [hd.faulted, hf] at ht
  stuck hs := by simp [State.isStuck_of_waiting_none hw hd.waiting] at hs

/-- A command stuck at the transport keeps the invariant where no fault was latched and the stream was not exhausted
(R59, R204). -/
theorem State.Inv.blocks {s t : State} (h : s.Inv) (hf : s.faulted = false) (hp : s.pc.toNat < s.cfg.cmd.length)
    (hb : Blocks s t) : t.Inv where
  fbWf := hb.fb ▸ h.fbWf
  modeBits := hb.modeBits h.modeBits
  statusBits := hb.statusBits h.statusBits
  pcInStream := by
    rw [hb.pc, hb.cfg]
    exact h.pcInStream
  cfgWf := hb.cfg ▸ h.cfgWf
  noFault _ := by
    rw [hb.fcause, hb.fpcLo, hb.fpcHi]
    exact h.noFault hf
  fault ht := by simp [hb.faulted, hf] at ht
  stuck _ := by
    rw [hb.faulted, hb.pc, hb.cfg]
    exact ⟨hf, hp, hb.transport⟩

/-! ### Refusals -/

/-- Sending events refuses only where the rest of the rule does. -/
theorem State.transmit_refused {events : List WireEvent} {done : State → Result} {s : State} {r : Refusal}
    (h : s.transmit events done = .refused r) : done (s.sent events) = .refused r := by
  cases ha : transportAccepts s.transport events.length with
  | true => exact (State.transmit_of_accepts ha).symm.trans h
  | false => rw [State.transmit_of_blocks ha] at h; cases h

/-- The one meaning that refuses is PRINTCH's, where the default font fits FONT and is not one band high
(R6, log entry 7). -/
theorem exec_refused {i : Instr} {s : State} {r : Refusal} (h : exec i s = .refused r) :
    r = .defaultFontNotSingleBand ∧ (∃ c, i = .printch c) ∧
      ∃ f, parseFont s.cfg.font s.cfg.defaultFontBase.toNat = some f ∧ f.rows ≠ 1 := by
  cases i <;> simp only [exec] at h
  case clear | getpix | hline | vline | line | rect => cases h
  case setpix => unfold execSetpix at h; split at h <;> cases h
  case getbyte => unfold execGetbyte at h; split at h <;> cases h
  case setbyte => unfold execSetbyte at h; split at h <;> cases h
  case settinv => unfold execSettinv at h; split at h <;> cases h
  case printch c =>
    unfold execPrintch at h
    split at h
    · cases h
    · rename_i f hf
      split at h
      · rename_i hrows
        cases h
        exact ⟨rfl, ⟨c, rfl⟩, f, hf, hrows⟩
      · split at h
        · cases State.transmit_refused h
        · cases h
  case printstr =>
    unfold execPrintstr at h
    split at h
    · cases h
    · rcases State.sendGlyphs_cases _ _ _ s with ⟨-, hg⟩ | ⟨-, _, _, _, -, -, -, hg⟩ <;> cases hg.symm.trans h
  case printstrb => unfold execPrintstrb at h; split at h <;> cases h
  case init | refresh => cases State.transmit_refused h
  case setdinv =>
    unfold execSetdinv at h
    split at h
    · cases h
    · cases State.transmit_refused h
  case goto =>
    unfold execGoto at h
    split at h
    · cases h
    · cases State.transmit_refused h
  case refreshr =>
    unfold execRefreshr at h
    split at h
    · cases h
    · cases State.transmit_refused h

/-- A step's refusal is the configuration's, or that of a fetched PRINTCH whose default font violates R6
(log entry 7). -/
theorem step_refused_cases {s : State} {r : Refusal} (h : step s = .refused r) :
    (s.cfg.wf = false ∧ r = .configurationNotAllowed) ∨
    (s.cfg.wf = true ∧ r = .defaultFontNotSingleBand ∧ s.cfg.defaultFontOk = false ∧
      ∃ c, s.fetch = .ok (.printch c)) := by
  unfold step at h
  split at h
  · rename_i hc
    cases h
    exact .inl ⟨by simpa using hc, rfl⟩
  · rename_i hc
    split at h
    · cases h
    split at h
    · cases h
    split at h
    · cases h
    split at h
    · cases h
    · rename_i i hi
      obtain ⟨hr, ⟨c, rfl⟩, f, hf, hrows⟩ := exec_refused h
      refine .inr ⟨by simpa using hc, hr, ?_, c, hi⟩
      simp [RunConfig.defaultFontOk, hf, hrows]

/-- A configuration that violates R6 is refused in every state (R6, U15). -/
theorem step_of_not_wf {s : State} (h : s.cfg.wf = false) : step s = .refused .configurationNotAllowed := by
  simp [step, h]

theorem step_eq_configurationNotAllowed_iff (s : State) :
    step s = .refused .configurationNotAllowed ↔ s.cfg.wf = false := by
  refine ⟨fun h => ?_, step_of_not_wf⟩
  obtain ⟨hwf, -⟩ | ⟨-, hr, -⟩ := step_refused_cases h
  · exact hwf
  · cases hr

/-! ### Runs -/

/-- What holds where a run begins and is kept by every step holds wherever the run comes to. -/
theorem RunsTo.induction {P : State → Prop} (hstep : ∀ {u v : State}, P u → step u = .next v → P v)
    {k : Nat} {s t : State} (h : RunsTo k s t) (hs : P s) : P t := by
  induction k generalizing s with
  | zero => exact (runsTo_zero s t).1 h ▸ hs
  | succ k ih =>
    obtain ⟨u, hu, hrest⟩ := (runsTo_succ k s t).1 h
    exact ih hrest (hstep hs hu)

/-- No run writes the configuration (R32). -/
theorem RunsTo.cfg {k : Nat} {s t : State} (h : RunsTo k s t) : t.cfg = s.cfg :=
  h.induction (P := fun u => u.cfg = s.cfg) (fun hu hstep => (step_cfg hstep).trans hu) rfl

/-- A run that makes a step has a configuration that R6 allows. -/
theorem RunsTo.wf_of_pos {k : Nat} {s t : State} (h : RunsTo k s t) (hk : k ≠ 0) : s.cfg.wf = true := by
  obtain ⟨k, rfl⟩ := Nat.exists_eq_succ_of_ne_zero hk
  obtain ⟨u, hu, -⟩ := (runsTo_succ k s t).1 h
  exact (step_next_cases hu).1

/-- `pc` stands where a command of the run from `CMD[0]` begins, or at the stream's end (R33, R90). -/
def State.AtCommandStart (s : State) : Prop := CommandStart s.cfg.cmd s.pc.toNat

theorem State.atCommandStart_hardwareReset (s : State) : s.hardwareReset.AtCommandStart := CommandStart.first

/-- Every step leaves `pc` where a command begins: there is no control transfer (R90). -/
theorem State.AtCommandStart.step {s t : State} (hs : s.AtCommandStart) (h : step s = .next t) :
    t.AtCommandStart := by
  unfold State.AtCommandStart
  rw [step_cfg h]
  obtain hpc | ⟨i, hi, hpc, -⟩ := step_pc_cases h
  · rw [hpc]
    exact hs
  · rw [hpc]
    exact CommandStart.next hs hi

/-- A command that is fetched where a command of the run begins is one of the program's (R6, R90). -/
theorem State.AtCommandStart.mem_program {s : State} {i : Instr} (hs : s.AtCommandStart) (hi : s.fetch = .ok i) :
    i ∈ s.cfg.program := CommandStart.mem_program hs hi

/-- In an allowed configuration no step is refused where a command of the run begins: a PRINTCH fetched there belongs to
the program, so the default font meets R6. -/
theorem State.AtCommandStart.step_ne_refused {s : State} (hs : s.AtCommandStart) (hc : s.cfg.wf = true) (r : Refusal) :
    Machine.step s ≠ .refused r := by
  intro h
  obtain ⟨hwf, -⟩ | ⟨-, -, hfont, c, hfetch⟩ := step_refused_cases h
  · simp [hc] at hwf
  · obtain ⟨-, -, hprintch⟩ := s.cfg.wf_iff.1 hc
    simp [hprintch ⟨c, hs.mem_program hfetch⟩] at hfont

/-- A run from hardware reset is refused before its first step or not at all (R6, log entry 7). -/
theorem RunsTo.refused_from_hardwareReset {k : Nat} {s t : State} {r : Refusal} (h : RunsTo k s.hardwareReset t)
    (hr : step t = .refused r) : k = 0 ∧ s.cfg.wf = false := by
  have ht : t.AtCommandStart := h.induction State.AtCommandStart.step s.atCommandStart_hardwareReset
  have hcfg : t.cfg = s.cfg := h.cfg
  have hwf : s.cfg.wf = false := by
    by_contra hne
    exact ht.step_ne_refused (by simpa [hcfg] using hne) r hr
  refine ⟨?_, hwf⟩
  by_contra hk
  have hwf' : s.cfg.wf = true := h.wf_of_pos hk
  simp [hwf] at hwf'

/-! ### The host's read -/

/-- What the host reads where it may read (R12). -/
def State.observation (s : State) : Observation :=
  { bytes := s.fb.bytes, status := (List.finRange 8).map s.readSR, wire := s.wire }

/-- By rewriting: comparing the two sides as they stand would unfold the 504 bytes. -/
theorem State.observation_bytes (s : State) : s.observation.bytes = s.fb.bytes := by rw [State.observation]
theorem State.observation_status (s : State) : s.observation.status = (List.finRange 8).map s.readSR := rfl
theorem State.observation_wire (s : State) : s.observation.wire = s.wire := rfl

/-- The host's read has a result exactly where the run is at its end, by exhaustion or by a fault (R12, R237). -/
theorem State.hostRead_eq (s : State) :
    s.hostRead = if s.pc.toNat = s.cfg.cmd.length ∨ s.faulted = true then some s.observation else none := by
  unfold State.hostRead State.isFinal State.observation
  cases s.faulted <;> simp

theorem PixelBuffer.getElem?_bytes (b : PixelBuffer) {a : Nat} (h : a < 504) : b.bytes[a]? = some (b.read a) := by
  simp [PixelBuffer.bytes, h]

/-- Entry `n` of the status list is SRn (R24). -/
theorem State.getElem?_observation_status (s : State) (n : Fin 8) :
    s.observation.status[n.val]? = some (s.readSR n) := by
  simp [State.observation_status]

/-! ### The obligations -/

/-- Settles O12: a step faults, completes or is stuck, and each of the three keeps the invariant. -/
theorem everyStepKeepsTheInvariant : Obligations.EveryStepKeepsTheInvariant := by
  intro s t hinv h
  obtain ⟨-, hf, hw, hp, -⟩ := step_next_cases h
  obtain ⟨k, rfl⟩ | ⟨i, hi, hd | hb⟩ := step_outcomes h
  · exact hinv.recordFault hw k
  · exact hinv.completes hf hw hi hd
  · exact hinv.blocks hf hp hb

/-- Settles O17: the refusal is the step's own, the check of R6 is spelled out, and a run keeps to the program's
commands, so a PRINTCH it meets was checked before the run. -/
theorem configurationsThatViolateTheirConstraintsAreRefused :
    Obligations.ConfigurationsThatViolateTheirConstraintsAreRefused := by
  refine fun s => ⟨step_eq_configurationNotAllowed_iff s, ?_, fun k t r => RunsTo.refused_from_hardwareReset⟩
  rw [← RunConfig.defaultFontOk_iff]
  exact s.cfg.wf_iff

/-- Settles O22, from the one equation for the host's read. -/
theorem theHostReadsOnlyAtTheEnd : Obligations.TheHostReadsOnlyAtTheEnd := by
  refine fun s => ⟨fun hend => ⟨s.observation, ?_, s.observation_wire, ?_, fun a ha => ?_,
    s.getElem?_observation_status⟩, fun hf hpc => ?_⟩
  · rw [s.hostRead_eq, if_pos hend]
  · rw [State.observation_bytes, PixelBuffer.length_bytes]
  · rw [State.observation_bytes, PixelBuffer.getElem?_bytes _ ha]
  · rw [s.hostRead_eq, if_neg (by simp [hf, hpc])]

/-- Settles O39, by the one arm of PRINTCH that refuses. -/
theorem printchRefusesAMultiBandDefaultFont : Obligations.PrintchRefusesAMultiBandDefaultFont := by
  intro s c f hf hrows
  change execPrintch c s = _
  simp only [execPrintch, hf, if_pos hrows]

end Sys2Proof.Machine
end

section
/-! SUPPORT. What each command may write, what the fields of the status registers are, and what a run of the cursor
machine keeps. -/

namespace Sys2Proof.Machine

/-! ### The fields of SR0 and SR1 under the updates that write the other field -/

@[simp] theorem State.di_setTi (on : Bool) (s : State) : (s.setTi on).di = s.di := by
  simp only [State.di, State.setTi_mode]
  rw [getLsbD_withBit _ _ _ _ (by omega), if_neg (by omega)]

@[simp] theorem State.ti_setDi (on : Bool) (s : State) : (s.setDi on).ti = s.ti := by
  simp only [State.ti, State.setDi_mode]
  rw [getLsbD_withBit _ _ _ _ (by omega), if_neg (by omega)]

@[simp] theorem State.failed_recordFault (k : FaultCause) (s : State) : (s.recordFault k).failed = s.failed := by
  simp only [State.failed, State.recordFault_status]
  rw [getLsbD_withBit _ _ _ _ (by omega), if_neg (by omega)]

/-! ### What a command may write -/

/-- What the command of opcode `op` can make of `s`: one rule for each group of commands that write the same state. -/
inductive Effect (op : Byte) (s : State) : State → Prop where
  /-- A fault is recorded and nothing else is done (R202). -/
  | faults (k : FaultCause) : Effect op s (s.recordFault k)
  /-- CLEAR, SETPIX, SETBYTE and the rasterizer commands write the PixelBuffer. -/
  | draws (b : PixelBuffer) (n : Nat) (hop : op ∈ [0x10#8, 0x11#8, 0x14#8, 0x20#8, 0x21#8, 0x22#8, 0x23#8]) :
      Effect op s ((s.setFb b).advance n)
  /-- GETPIX and GETBYTE write RES. -/
  | reads (v : Byte) (n : Nat) (hop : op ∈ [0x12#8, 0x13#8]) : Effect op s ((s.setRes v).advance n)
  /-- PRINTCH, GOTO, REFRESH and REFRESHR send events. -/
  | sends (events : List WireEvent) (n : Nat) (hop : op ∈ [0x30#8, 0x43#8, 0x44#8, 0x45#8]) :
      Effect op s ((s.sent events).advance n)
  /-- They and INIT can be stuck with nothing done but the accepted events. -/
  | stalls (events : List WireEvent) (hop : op ∈ [0x30#8, 0x40#8, 0x43#8, 0x44#8, 0x45#8]) :
      Effect op s (s.stall events)
  /-- PRINTSTR sends its glyphs and leaves the final cursor. -/
  | prints (events : List WireEvent) (q : Cursor) (n : Nat) (hop : op = 0x31) :
      Effect op s (((s.sent events).loadCursor q).advance n)
  /-- PRINTSTR can be stuck in a glyph, with that glyph's cursor. -/
  | printStalls (events : List WireEvent) (p : Cursor) (hop : op = 0x31) :
      Effect op s ((s.stall events).loadCursor p)
  /-- PRINTSTRB stores its glyphs and leaves the final cursor. -/
  | stores (b : PixelBuffer) (q : Cursor) (n : Nat) (hop : op = 0x32) :
      Effect op s (((s.setFb b).loadCursor q).advance n)
  /-- INIT sends its events and writes the PixelBuffer, TI and DI. -/
  | initializes (events : List WireEvent) (b : PixelBuffer) (ti di : Bool) (n : Nat) (hop : op = 0x40) :
      Effect op s (((((s.sent events).setFb b).setTi ti).setDi di).advance n)
  /-- SETDINV writes DI and sends its event. -/
  | setsDi (on : Bool) (events : List WireEvent) (n : Nat) (hop : op = 0x41) :
      Effect op s (((s.setDi on).sent events).advance n)
  /-- SETDINV can be stuck with DI written. -/
  | setDiStalls (on : Bool) (events : List WireEvent) (hop : op = 0x41) : Effect op s ((s.setDi on).stall events)
  /-- SETTINV writes TI. -/
  | setsTi (on : Bool) (n : Nat) (hop : op = 0x42) : Effect op s ((s.setTi on).advance n)

section inversion
variable {op : Byte} {s t : State}

/-- A command that tests its operands first raises its fault or goes on with its rule. -/
theorem Effect.of_guarded {bad : Bool} {k : FaultCause} {rule : Result}
    (h : (if bad then s.raise k else rule) = .next t) (hrule : rule = .next t → Effect op s t) : Effect op s t := by
  cases bad with
  | true => cases h; exact .faults k
  | false => exact hrule h

/-- A command that only sends events completes, or is stuck in them. -/
theorem Effect.of_transmit {events : List WireEvent} {n : Nat}
    (h : s.transmit events (fun u => .next (u.advance n)) = .next t)
    (hop : op ∈ [0x30#8, 0x43#8, 0x44#8, 0x45#8]) : Effect op s t := by
  obtain ⟨-, h⟩ | ⟨-, rfl⟩ := State.transmit_next_cases h
  · cases h; exact .sends _ _ hop
  · exact .stalls _ (List.subset_def.1 (by decide) hop)

theorem effect_printch {c : Byte} (h : execPrintch c s = .next t) : Effect 0x30 s t := by
  unfold execPrintch at h
  split at h
  · cases h; exact .faults _
  · split at h
    · cases h
    · split at h
      · exact .of_transmit h (by decide)
      · cases h
        have hskip : Effect 0x30 s ((s.sent []).advance 2) := .sends [] 2 (by decide)
        rwa [State.sent_nil] at hskip

theorem effect_printstr {x row : Byte} {fbase : Word} {str : List Byte} (h : execPrintstr x row fbase str s = .next t) :
    Effect 0x31 s t := by
  unfold execPrintstr at h
  split at h
  · cases h; exact .faults _
  · obtain ⟨-, hg⟩ | ⟨-, _, _, _, -, -, -, hg⟩ := State.sendGlyphs_cases _ _ _ s
    · cases hg.symm.trans h; exact .prints _ _ _ rfl
    · cases hg.symm.trans h; exact .printStalls _ _ rfl

theorem effect_printstrb {x row : Byte} {fbase : Word} {str : List Byte}
    (h : execPrintstrb x row fbase str s = .next t) : Effect 0x32 s t := by
  unfold execPrintstrb at h
  split at h
  · cases h; exact .faults _
  · cases h; exact .stores _ _ _ rfl

theorem effect_init (h : execInit s = .next t) : Effect 0x40 s t := by
  obtain ⟨-, h⟩ | ⟨-, rfl⟩ := State.transmit_next_cases h
  · cases h; exact .initializes _ _ _ _ _ rfl
  · exact .stalls _ (by decide)

theorem effect_setdinv {flag : Byte} (h : execSetdinv flag s = .next t) : Effect 0x41 s t :=
  .of_guarded h fun h => by
    obtain ⟨-, h⟩ | ⟨-, rfl⟩ := State.transmit_next_cases h
    · cases h; exact .setsDi _ _ _ rfl
    · exact .setDiStalls _ _ rfl

/-- Every next state that a command answers is one of its group's. -/
theorem exec_effect {i : Instr} (h : exec i s = .next t) : Effect i.opcode s t := by
  cases i <;> simp only [exec, Instr.opcode] at h ⊢
  case clear | hline | vline | line | rect => cases h; exact .draws _ _ (by decide)
  case setpix | setbyte => exact .of_guarded h fun h => by cases h; exact .draws _ _ (by decide)
  case getpix => cases h; exact .reads _ _ (by decide)
  case getbyte => exact .of_guarded h fun h => by cases h; exact .reads _ _ (by decide)
  case printch => exact effect_printch h
  case printstr => exact effect_printstr h
  case printstrb => exact effect_printstrb h
  case init => exact effect_init h
  case setdinv => exact effect_setdinv h
  case settinv => exact .of_guarded h fun h => by cases h; exact .setsTi _ _ rfl
  case goto | refreshr => exact .of_guarded h fun h => .of_transmit h (by decide)
  case refresh => exact .of_transmit h (by decide)

end inversion

/-! ### The writers of each field -/

section writers
variable {op : Byte} {s t : State}

/-- RES is written by GETPIX and GETBYTE (R29). -/
theorem Effect.res_writer (h : Effect op s t) (hne : t.res ≠ s.res) : op ∈ [0x12#8, 0x13#8] := by
  cases h with
  | reads _ _ hop => exact hop
  | _ => exact absurd rfl hne

/-- The cursor and FAILED are written by the string commands (R23, R27). -/
theorem Effect.cursor_writer (h : Effect op s t)
    (hne : t.curX ≠ s.curX ∨ t.curRow ≠ s.curRow ∨ t.failed ≠ s.failed) : op ∈ [0x31#8, 0x32#8] := by
  cases h with
  | prints _ _ _ hop | printStalls _ _ hop => rw [hop]; decide
  | stores _ _ _ hop => rw [hop]; decide
  | faults k => simp at hne
  | _ => simp [State.failed] at hne

/-- DI is written by INIT and SETDINV (R25). -/
theorem Effect.di_writer (h : Effect op s t) (hne : t.di ≠ s.di) : op ∈ [0x40#8, 0x41#8] := by
  cases h with
  | initializes _ _ _ _ _ hop => rw [hop]; decide
  | setsDi _ _ _ hop | setDiStalls _ _ hop => rw [hop]; decide
  | setsTi on => exact absurd (State.di_setTi on s) hne
  | _ => exact absurd rfl hne

/-- TI is written by INIT and SETTINV (R25). -/
theorem Effect.ti_writer (h : Effect op s t) (hne : t.ti ≠ s.ti) : op ∈ [0x40#8, 0x42#8] := by
  cases h with
  | initializes _ _ _ _ _ hop => rw [hop]; decide
  | setsTi _ _ hop => rw [hop]; decide
  | setsDi on | setDiStalls on => exact absurd (State.ti_setDi on s) hne
  | _ => exact absurd rfl hne

/-- The PixelBuffer is written by CLEAR, SETPIX, SETBYTE, the rasterizer commands, PRINTSTRB and INIT (R22, R50). -/
theorem Effect.fb_writer (h : Effect op s t) (hne : t.fb ≠ s.fb) :
    op ∈ [0x10#8, 0x11#8, 0x14#8, 0x20#8, 0x21#8, 0x22#8, 0x23#8, 0x32#8, 0x40#8] := by
  cases h with
  | draws _ _ hop => exact List.subset_def.1 (by decide) hop
  | stores _ _ _ hop => rw [hop]; decide
  | initializes _ _ _ _ _ hop => rw [hop]; decide
  | _ => exact absurd rfl hne

/-- The wire and the event on offer are written by the commands that send events. -/
theorem Effect.wire_writer (h : Effect op s t) (hne : t.waiting ≠ s.waiting ∨ t.wire ≠ s.wire) :
    op ∈ [0x30#8, 0x31#8, 0x40#8, 0x41#8, 0x43#8, 0x44#8, 0x45#8] := by
  cases h with
  | sends _ _ hop => exact List.subset_def.1 (by decide) hop
  | stalls _ hop => exact List.subset_def.1 (by decide) hop
  | prints _ _ _ hop | printStalls _ _ hop => rw [hop]; decide
  | initializes _ _ _ _ _ hop => rw [hop]; decide
  | setsDi _ _ _ hop | setDiStalls _ _ hop => rw [hop]; decide
  | _ => simp at hne

end writers

/-! ### The cursor machine -/

section cursor
variable {f : FontTable} {str : List Byte} {p q : Cursor} {gs : List (Cursor × Byte)}

/-- Every glyph of a run that starts with FAILED clear has passed the guard, is in the font, and is emitted with FAILED
clear: FAILED is set by the last rule alone (R155, R161 (b)). -/
theorem TextRuns.emitted (h : TextRuns f str p gs q) (hp : p.failed = false) :
    ∀ g ∈ gs, g.1.x + f.gw ≤ 84 ∧ g.1.row + f.rows ≤ 5 ∧ f.inFont g.2 = true ∧ g.1.failed = false := by
  induction h with
  | done | stop => simp
  | skip _ _ ih => exact ih hp
  | along hoff hcnt hx hrow _ _ ih | wrap hoff hcnt hx hrow _ _ ih =>
    exact List.forall_mem_cons.2 ⟨⟨hx, Nat.le_of_lt_succ hrow, (f.inFont_iff _).2 ⟨hoff, hcnt⟩, hp⟩, ih hp⟩

/-- A run that starts where the 8-bit cursor registers can stand ends where they can (R27). -/
theorem TextRuns.final_fits (h : TextRuns f str p gs q) (hx : p.x < 256) (hrow : p.row < 256) :
    q.x < 256 ∧ q.row < 256 := by
  induction h with
  | done | stop => exact ⟨hx, hrow⟩
  | skip _ _ ih => exact ih hx hrow
  | along _ _ hcol _ _ _ ih => exact ih (by dsimp only; omega) hrow
  | wrap _ _ _ hband _ _ ih => exact ih (by dsimp only; omega) (by dsimp only; omega)

end cursor

/-! ### The status registers as numbers -/

/-- The two low bits of a byte, as the host reads SR0 and SR1 (R24). -/
theorem toNat_and_three (v : Byte) : (v &&& 0x03).toNat = (v.getLsbD 0).toNat + 2 * (v.getLsbD 1).toNat := by
  revert v; decide

/-- FPC is FPC_HI * 256 + FPC_LO (R24). -/
theorem State.toNat_fpc (s : State) : s.fpc.toNat = s.fpcHi.toNat * 256 + s.fpcLo.toNat := by
  rw [State.fpc, BitVec.toNat_append, ← Nat.shiftLeft_add_eq_or_of_lt s.fpcLo.isLt, Nat.shiftLeft_eq]

/-! ### The obligations -/

/-- Settles O11: a recorded fault, a completed command and a stuck one each keep the three. -/
theorem everyStepAppendsToTheWire : Obligations.EveryStepAppendsToTheWire := by
  intro s t h
  obtain ⟨k, rfl⟩ | ⟨i, -, hd | hb⟩ := step_outcomes h
  · exact ⟨List.prefix_rfl, rfl, rfl⟩
  · exact ⟨hd.wire, hd.cfg, hd.draw⟩
  · exact ⟨hb.wire, hb.cfg, congrArg PixelBuffer.draw hb.fb⟩

/-- Settles O18: each field's writers, read off the effect of the command. -/
theorem stateIsWrittenOnlyByItsCommands : Obligations.StateIsWrittenOnlyByItsCommands := by
  intro i s t h
  have he : Effect i.opcode s t := exec_effect h
  exact ⟨he.res_writer, he.cursor_writer, he.di_writer, he.ti_writer, he.fb_writer,
    fun hne => he.wire_writer (.inl hne), fun hne => he.wire_writer (.inr hne)⟩

/-- Settles O44: byte operands fit the registers and FAILED starts clear (R158). -/
theorem glyphsStayOnTheDisplay : Obligations.GlyphsStayOnTheDisplay :=
  fun _ _ x row _ _ h => ⟨h.emitted rfl, h.final_fits x.isLt row.isLt⟩

/-- Settles O13: no cell is written, every register is zero, and the empty configuration holds no PRINTCH. -/
theorem resetMeetsTheInvariant : Obligations.ResetMeetsTheInvariant where
  fbWf := ⟨.nil, by simp [State.reset]⟩
  modeBits := rfl
  statusBits := rfl
  pcInStream := Nat.zero_le _
  cfgWf := by decide
  noFault _ := ⟨rfl, rfl, rfl⟩
  fault h := absurd h (by decide)
  stuck h := absurd h (by decide)

/-- Settles O19: the reset state's fields, and each of the eight registers read from them. -/
theorem resetClearsRegistersAndWire : Obligations.ResetClearsRegistersAndWire :=
  ⟨rfl, by decide, rfl, rfl, by decide, rfl⟩

/-- Settles O21: SR0 and SR1 by their two low bits, FPC as the two bytes it is made of; the rest read one field each. -/
theorem statusRegistersReadTheirFields : Obligations.StatusRegistersReadTheirFields :=
  fun s => ⟨toNat_and_three s.mode, toNat_and_three s.status, rfl, rfl, rfl, rfl, s.toNat_fpc⟩

end Sys2Proof.Machine
end

section
/-! SUPPORT. What the assumed display controller of R64 does with addresses, runs of data bytes and stretches of both,
and the statements about it. -/

namespace Sys2Proof.Machine

/-! ### A command that is not stuck -/

/-- Where the transport does not accept all the events, one of them waits (R59). -/
theorem State.stall_waiting_ne_none {events : List WireEvent} {s : State}
    (h : transportAccepts s.transport events.length = false) : (s.stall events).waiting ≠ none :=
  Option.isSome_iff_ne_none.1 (isSome_blockedEvent h)

/-- A stretch of a rule after which nothing waits has sent all its events and gone on (R58, R59). -/
theorem State.transmit_completed {events : List WireEvent} {done : State → Result} {s t : State}
    (h : s.transmit events done = .next t) (hw : t.waiting = none) : done (s.sent events) = .next t := by
  obtain ⟨-, h⟩ | ⟨hb, rfl⟩ := State.transmit_next_cases h
  · exact h
  · exact absurd hw (State.stall_waiting_ne_none hb)

/-- A completed command that only sends has its events at the end of the trace. -/
theorem State.wire_of_transmit {events : List WireEvent} {n : Nat} {s t : State}
    (h : s.transmit events (fun u => .next (u.advance n)) = .next t) (hw : t.waiting = none) :
    t.wire = s.wire ++ events := by
  cases State.transmit_completed h hw
  rfl

/-! ### Stores -/

theorem PixelBuffer.store_append (ss ts : List (Nat × Byte)) (b : PixelBuffer) :
    b.store (ss ++ ts) = (b.store ss).store ts := List.foldl_append

/-- The stores of `n` bytes at rising addresses from `a` on. -/
def runStores (a : Nat) (v : Nat → Byte) (n : Nat) : List (Nat × Byte) := (List.range n).map fun i => (a + i, v i)

theorem runStores_succ (a : Nat) (v : Nat → Byte) (n : Nat) :
    runStores a v (n + 1) = runStores a v n ++ [(a + n, v n)] := by
  simp [runStores, List.range_succ]

theorem PixelBuffer.read_store_runStores (b : PixelBuffer) (a : Nat) (v : Nat → Byte) (n c : Nat) :
    (b.store (runStores a v n)).read c = if a ≤ c ∧ c < a + n then v (c - a) else b.read c := by
  induction n with
  | zero => rw [if_neg (by omega)]; rfl
  | succ n ih =>
    rw [runStores_succ, PixelBuffer.store_append]
    change (PixelBuffer.write _ (a + n) (v n)).read c = _
    rw [PixelBuffer.read_write, ih]
    by_cases hc : c = a + n
    · rw [if_pos hc, if_pos (by omega), hc, Nat.add_sub_cancel_left]
    · rw [if_neg hc]
      exact if_congr (by omega) rfl rfl

/-! ### The controller's RAM and cursor -/

/-- The controller with another RAM and cursor, everything else kept. -/
def Sink.put (k : Sink) (b : PixelBuffer) (x y : Nat) : Sink := { k with dd := b, x := x, y := y }

@[simp] theorem Sink.put_dd (k : Sink) (b : PixelBuffer) (x y : Nat) : (k.put b x y).dd = b := rfl

theorem Sink.receive_command {k : Sink} (hext : k.ext = false) (v : Byte) :
    k.receive (.command v) = k.basicCommand v := if_neg (by simp [hext])

/-- An X-address byte of an existing column, in the basic set (R64). -/
theorem Sink.receive_xAddress {k : Sink} (hext : k.ext = false) {x : Byte} (hx : x.toNat ≤ 83) :
    k.receive (.command (0x80 ||| x)) = some (k.put k.dd x.toNat k.y) := by
  have hv : (0x80 ||| x).toNat = 0x80 + x.toNat := by
    rw [xAddress_eq x hx, BitVec.toNat_ofNat]
    omega
  rw [Sink.receive_command hext, Sink.basicCommand, hv, if_pos (by omega), if_pos (by omega), Nat.add_sub_cancel_left]
  rfl

/-- A band-address byte of an existing band, in the basic set (R64). -/
theorem Sink.receive_bandAddress {k : Sink} (hext : k.ext = false) {row : Byte} (hrow : row.toNat ≤ 5) :
    k.receive (.command (0x40 ||| row)) = some (k.put k.dd k.x row.toNat) := by
  have hv : (0x40 ||| row).toNat = 0x40 + row.toNat := by
    rw [bandAddress_eq row hrow, BitVec.toNat_ofNat]
    omega
  rw [Sink.receive_command hext, Sink.basicCommand, hv, if_neg (by omega), if_pos (by omega),
    if_pos (by omega), Nat.add_sub_cancel_left]
  rfl

/-- Both addresses, X first (R64, R182). -/
theorem Sink.receiveAll_goToEvents {k : Sink} (hext : k.ext = false) {x row : Byte} (hx : x.toNat ≤ 83)
    (hrow : row.toNat ≤ 5) : Sink.receiveAll (goToEvents x row) k = some (k.put k.dd x.toNat row.toNat) := by
  have hband := Sink.receive_bandAddress (k := k.put k.dd x.toNat k.y) hext hrow
  simp only [goToEvents, Sink.receiveAll, Sink.receive_xAddress hext hx, Option.bind_some, hband]
  rfl

/-- Both addresses, the band first, as a glyph sends them (R64, R156). -/
theorem Sink.receiveAll_bandThenX {k : Sink} (hext : k.ext = false) {x row : Byte} (hx : x.toNat ≤ 83)
    (hrow : row.toNat ≤ 5) :
    Sink.receiveAll [.command (0x40 ||| row), .command (0x80 ||| x)] k = some (k.put k.dd x.toNat row.toNat) := by
  have hcol := Sink.receive_xAddress (k := k.put k.dd k.x row.toNat) hext hx
  simp only [Sink.receiveAll, Sink.receive_bandAddress hext hrow, Option.bind_some, hcol]
  rfl

/-- The controller with its cursor at RAM address `a`: horizontal addressing counts along the 504 bytes and goes home
after the last (R64). -/
def Sink.atAddress (k : Sink) (b : PixelBuffer) (a : Nat) : Sink := k.put b (a % 84) (a / 84 % 6)

theorem Sink.put_eq_atAddress (k : Sink) (b : PixelBuffer) {x y : Nat} (hx : x ≤ 83) (hy : y ≤ 5) :
    k.put b x y = k.atAddress b (bAddr y x) := by
  simp only [Sink.atAddress, bAddr]
  congr 1 <;> omega

/-- One data byte is stored at the cursor, which moves to the next address (R64). -/
theorem Sink.receive_data {k : Sink} (hv : k.vertical = false) (b : PixelBuffer) {a : Nat} (ha : a < 504) (v : Byte) :
    (k.atAddress b a).receive (.data v) = some (k.atAddress (b.write a v) (a + 1)) := by
  have hcursor : bAddr (a / 84 % 6) (a % 84) = a := by simp only [bAddr]; omega
  simp only [Sink.receive, Sink.dataByte, Sink.atAddress, Sink.put, hv, hcursor, Bool.false_eq_true, if_false]
  split <;> congr 2 <;> omega

/-- A run of data bytes is stored from the cursor on (R64). -/
theorem Sink.receiveAll_data {k : Sink} (hv : k.vertical = false) (b : PixelBuffer) (a : Nat) (v : Nat → Byte)
    {n : Nat} (h : a + n ≤ 504) :
    Sink.receiveAll ((List.range n).map fun i => .data (v i)) (k.atAddress b a) =
      some (k.atAddress (b.store (runStores a v n)) (a + n)) := by
  induction n with
  | zero => rfl
  | succ n ih =>
    rw [List.range_succ, List.map_append, Sink.receiveAll_append, ih (by omega), Option.bind_some, runStores_succ,
      PixelBuffer.store_append]
    simp only [List.map_cons, List.map_nil, Sink.receiveAll, Sink.receive_data hv _ (show a + n < 504 by omega)]
    rfl

/-! ### Stretches of events that store -/

/-- The controller in the basic set with horizontal addressing makes exactly these stores of the events, and keeps
everything but its RAM and cursor. -/
def SinkStores (events : List WireEvent) (stores : List (Nat × Byte)) : Prop :=
  ∀ k : Sink, k.ext = false → k.vertical = false →
    ∃ x y, Sink.receiveAll events k = some (k.put (k.dd.store stores) x y)

theorem SinkStores.nil : SinkStores [] [] := fun k _ _ => ⟨k.x, k.y, rfl⟩

theorem SinkStores.append {es fs : List WireEvent} {ss ts : List (Nat × Byte)} (he : SinkStores es ss)
    (hf : SinkStores fs ts) : SinkStores (es ++ fs) (ss ++ ts) := by
  intro k hext hv
  obtain ⟨x, y, hk⟩ := he k hext hv
  obtain ⟨x', y', hk'⟩ := hf (k.put (k.dd.store ss) x y) hext hv
  refine ⟨x', y', ?_⟩
  rw [Sink.receiveAll_append, hk, Option.bind_some, hk', PixelBuffer.store_append]
  rfl

theorem SinkStores.flatMap {α : Type} {l : List α} {ev : α → List WireEvent} {st : α → List (Nat × Byte)}
    (h : ∀ g ∈ l, SinkStores (ev g) (st g)) : SinkStores (l.flatMap ev) (l.flatMap st) := by
  induction l with
  | nil => exact .nil
  | cons g l ih =>
    obtain ⟨hg, hl⟩ := List.forall_mem_cons.1 h
    exact hg.append (ih hl)

/-- A stretch that ends with home leaves the cursor at (0, 0) (R235). -/
theorem SinkStores.receiveAll_home {es : List WireEvent} {ss : List (Nat × Byte)} (h : SinkStores es ss) {k : Sink}
    (hext : k.ext = false) (hv : k.vertical = false) :
    Sink.receiveAll (es ++ goToEvents 0 0) k = some (k.put (k.dd.store ss) 0 0) := by
  obtain ⟨x, y, hk⟩ := h k hext hv
  rw [Sink.receiveAll_append, hk, Option.bind_some,
    Sink.receiveAll_goToEvents (k := k.put _ x y) hext (by decide) (by decide)]
  rfl

/-- Going home stores nothing. -/
theorem SinkStores.home {es : List WireEvent} {ss : List (Nat × Byte)} (h : SinkStores es ss) :
    SinkStores (es ++ goToEvents 0 0) ss := fun _ hext hv => ⟨0, 0, h.receiveAll_home hext hv⟩

/-- A strip of one band: its address, in events that set the cursor there, then its bytes (R156, R188). -/
theorem SinkStores.strip {address : List WireEvent} {x row n : Nat} (v : Nat → Byte)
    (haddress : ∀ k : Sink, k.ext = false → Sink.receiveAll address k = some (k.put k.dd x row))
    (hx : x ≤ 83) (hn : x + n ≤ 84) (hrow : row ≤ 5) :
    SinkStores (address ++ (List.range n).map fun i => .data (v i)) (runStores (bAddr row x) v n) := by
  intro k hext hv
  have hdata := Sink.receiveAll_data hv k.dd (bAddr row x) v (show bAddr row x + n ≤ 504 by simp only [bAddr]; omega)
  rw [Sink.receiveAll_append, haddress k hext, Option.bind_some, Sink.put_eq_atAddress k k.dd hx hrow, hdata]
  exact ⟨_, _, rfl⟩

/-! ### The commands of the ScreenController -/

/-- R64's reading of the seven events of INIT (R183). -/
theorem Sink.receiveAll_initEvents (k : Sink) :
    Sink.receiveAll initEvents k = some { k.reset with
      powerDown := false, display := .normal, bias := 4, vop := 0x4C } := rfl

/-- One touched band of REFRESHR, as the controller stores it (R188). -/
theorem sinkStores_band (b : PixelBuffer) {xmin xmax : Byte} (hx : xmin.toNat ≤ xmax.toNat) (hmax : xmax.toNat ≤ 83)
    {row : Nat} (hrow : row ≤ 5) :
    SinkStores (goToEvents xmin (BitVec.ofNat 8 row) ++ dataEvents (bandBytes b xmin.toNat xmax.toNat row))
      (runStores (bAddr row xmin.toNat) (fun i => b.read (bAddr row (xmin.toNat + i)))
        (xmax.toNat + 1 - xmin.toNat)) := by
  have hrow' : (BitVec.ofNat 8 row).toNat = row := by rw [BitVec.toNat_ofNat]; omega
  have hdata : dataEvents (bandBytes b xmin.toNat xmax.toNat row) =
      (List.range (xmax.toNat + 1 - xmin.toNat)).map fun i => .data (b.read (bAddr row (xmin.toNat + i))) := by
    simp only [dataEvents, bandBytes, List.range'_eq_map_range, List.map_map]
    rfl
  rw [hdata]
  refine .strip _ (fun k hext => ?_) (by omega) (by omega) hrow
  rw [Sink.receiveAll_goToEvents hext (by omega) (by omega), hrow']

/-- The stores of `n` bands from `lo` on, each between the two columns. -/
def regionStores (b : PixelBuffer) (xmin xmax lo n : Nat) : List (Nat × Byte) :=
  (List.range n).flatMap fun j =>
    runStores (bAddr (lo + j) xmin) (fun i => b.read (bAddr (lo + j) (xmin + i))) (xmax + 1 - xmin)

/-- The stores of a region copy the bytes of its bands between its columns and no others. -/
theorem PixelBuffer.read_store_regionStores (b d : PixelBuffer) {xmin xmax : Nat} (lo n : Nat) (hx : xmin ≤ xmax)
    (hmax : xmax ≤ 83) {row x : Nat} (hcol : x ≤ 83) :
    (d.store (regionStores b xmin xmax lo n)).read (bAddr row x) =
      if lo ≤ row ∧ row < lo + n ∧ xmin ≤ x ∧ x ≤ xmax then b.read (bAddr row x) else d.read (bAddr row x) := by
  induction n with
  | zero => rw [if_neg (by omega)]; rfl
  | succ n ih =>
    rw [regionStores, List.range_succ, List.flatMap_append, PixelBuffer.store_append, ← regionStores,
      List.flatMap_singleton, PixelBuffer.read_store_runStores, ih]
    by_cases hband : row = lo + n ∧ xmin ≤ x ∧ x ≤ xmax
    · obtain ⟨rfl, hxx⟩ := hband
      rw [if_pos (by simp only [bAddr]; omega), if_pos (by omega)]
      congr 1
      simp only [bAddr]
      omega
    · rw [if_neg (by simp only [bAddr]; omega)]
      exact if_congr (by omega) rfl rfl

/-- The events of REFRESHR store its region (R188). -/
theorem sinkStores_regionEvents (b : PixelBuffer) {xmin ymin xmax ymax : Byte} (hx : xmin.toNat ≤ xmax.toNat)
    (hxmax : xmax.toNat ≤ 83) (hy : ymin.toNat ≤ ymax.toNat) (hymax : ymax.toNat ≤ 47) :
    SinkStores (regionEvents b xmin ymin xmax ymax)
      (regionStores b xmin.toNat xmax.toNat (ymin.toNat / 8) (ymax.toNat / 8 - ymin.toNat / 8 + 1)) := by
  rw [regionEvents, touchedBands_eq hy hymax, List.flatMap_map]
  refine .flatMap fun j hj => sinkStores_band b hx hxmax ?_
  have := List.mem_range.1 hj
  omega

/-! ### The obligations -/

/-- Settles O57: a completed INIT has sent its seven events, which R64 reads one by one. -/
theorem initConfiguresTheAssumedSink : Obligations.InitConfiguresTheAssumedSink := by
  intro s t k h hw
  have hdone := State.transmit_completed (show execInit s = .next t from h) hw
  have hwire : t.wire = s.wire ++ initEvents := by cases hdone; rfl
  rw [hwire, List.drop_left, k.receiveAll_initEvents]
  exact ⟨_, rfl, rfl, rfl, rfl, rfl, rfl, rfl, rfl, rfl, rfl⟩

/-- Settles O58: home, then a run of 504 data bytes, which fills the RAM and goes home. -/
theorem refreshCopiesTheBufferToTheAssumedSink : Obligations.RefreshCopiesTheBufferToTheAssumedSink := by
  intro s t k h hw hext hv
  have hdata : dataEvents s.fb.bytes = (List.range 504).map fun i => .data (s.fb.read i) := by
    rw [dataEvents_bytes s.fb rfl, List.range_eq_range']
  rw [State.wire_of_transmit h hw, List.drop_left, hdata, Sink.receiveAll_append,
    Sink.receiveAll_goToEvents hext (by decide) (by decide), Option.bind_some,
    Sink.put_eq_atAddress k k.dd (by decide) (by decide), Sink.receiveAll_data hv k.dd _ _ (by decide)]
  refine ⟨_, rfl, fun a ha => ?_, rfl, rfl⟩
  rw [Sink.atAddress, Sink.put_dd, show bAddr (0 : Byte).toNat (0 : Byte).toNat = 0 from rfl,
    PixelBuffer.read_store_runStores, if_pos (by omega), Nat.sub_zero]

/-- Settles O59: each touched band is a strip that the controller stores where it stands in the PixelBuffer. -/
theorem refreshrCopiesItsRegionToTheAssumedSink : Obligations.RefreshrCopiesItsRegionToTheAssumedSink := by
  intro s t k xmin ymin xmax ymax hx hxmax hy hymax h hw hext hv
  have hin : regionOutOfRange xmin ymin xmax ymax = false := by
    simp only [regionOutOfRange, Bool.or_eq_false_iff, decide_eq_false_iff_not]
    omega
  have h : s.transmit (regionEvents s.fb xmin ymin xmax ymax) (fun u => .next (u.advance 5)) = .next t := by
    rwa [exec, execRefreshr, hin] at h
  obtain ⟨x', y', hk⟩ := sinkStores_regionEvents s.fb hx hxmax hy hymax k hext hv
  rw [State.wire_of_transmit h hw, List.drop_left, hk]
  refine ⟨_, rfl, fun row x _ hcol => ?_⟩
  rw [Sink.put_dd]
  refine (PixelBuffer.read_store_regionStores s.fb k.dd _ _ hx hxmax hcol).trans (if_congr ?_ rfl rfl)
  omega

end Sys2Proof.Machine
end

section
/-! SUPPORT. The text commands through the runs of the cursor machine, and the statements about glyphs. -/

namespace Sys2Proof.Machine

/-! ### The loop and the cursor machine -/

/-- The advance stays on its row where the next glyph would fit there (R157). -/
theorem FontTable.advance_along {f : FontTable} {p : Cursor} (h : (p.x + f.gw : Int) ≤ 84 - f.gw) :
    f.advance p = { p with x := p.x + f.gw } := if_pos (by omega)

/-- Else the advance wraps to the next text line (R157). -/
theorem FontTable.advance_wrap {f : FontTable} {p : Cursor} (h : (84 - f.gw : Int) < p.x + f.gw) :
    f.advance p = { p with x := 0, row := p.row + f.rows } := if_neg (by omega)

/-- A glyph inside the display above the bottom band passes the guard (R155). -/
theorem FontTable.guardFails_eq_false {f : FontTable} {p : Cursor} (hcol : p.x + f.gw ≤ 84)
    (hband : p.row + f.rows < 6) : f.guardFails p = false := by
  rw [← Bool.not_eq_true, FontTable.guardFails_iff]
  omega

/-- Every string has a run from every cursor: each rule of the machine is one branch of the loop (R155 to R158). -/
theorem exists_textRuns (f : FontTable) (str : List Byte) (p : Cursor) : ∃ gs q, TextRuns f str p gs q := by
  induction str generalizing p with
  | nil => exact ⟨_, _, .done p⟩
  | cons c cs ih =>
    by_cases hc : f.off ≤ c.toNat ∧ c.toNat < f.off + f.cnt
    · obtain ⟨hoff, hcnt⟩ := hc
      by_cases hg : p.x + f.gw > 84 ∨ p.row + f.rows ≥ 6
      · exact ⟨_, _, .stop hoff hcnt hg⟩
      · obtain ⟨hcol, hband⟩ := not_or.1 hg
        by_cases hx : (p.x + f.gw : Int) ≤ 84 - f.gw
        · obtain ⟨gs, q, h⟩ := ih { p with x := p.x + f.gw }
          exact ⟨_, q, .along hoff hcnt (by omega) (by omega) hx h⟩
        · obtain ⟨gs, q, h⟩ := ih { p with x := 0, row := p.row + f.rows }
          exact ⟨_, q, .wrap hoff hcnt (by omega) (by omega) (by omega) h⟩
    · obtain ⟨gs, q, h⟩ := ih p
      exact ⟨gs, q, .skip hc h⟩

/-- The loop ends at the run's last cursor, with each of its glyphs emitted in order (R155 to R158). -/
theorem TextRuns.textLoop_eq {α : Type} {f : FontTable} {str : List Byte} {p q : Cursor} {gs : List (Cursor × Byte)}
    (h : TextRuns f str p gs q) (emit : Cursor → Byte → α → α) (out : α) :
    textLoop f emit str p out = (q, gs.foldl (fun out g => emit g.1 g.2 out) out) := by
  induction h generalizing out with
  | done => rfl
  | skip hc _ ih =>
    rw [textLoop_skip _ (by rwa [← Bool.not_eq_true, FontTable.inFont_iff]), ih]
  | stop hoff hcnt hg =>
    rw [textLoop_stop _ ((f.inFont_iff _).2 ⟨hoff, hcnt⟩) ((f.guardFails_iff _).2 hg)]
    rfl
  | along hoff hcnt hcol hband hx _ ih =>
    rw [textLoop_emit _ ((f.inFont_iff _).2 ⟨hoff, hcnt⟩) (FontTable.guardFails_eq_false hcol hband),
      FontTable.advance_along hx, ih]
    rfl
  | wrap hoff hcnt hcol hband hx _ ih =>
    rw [textLoop_emit _ ((f.inFont_iff _).2 ⟨hoff, hcnt⟩) (FontTable.guardFails_eq_false hcol hband),
      FontTable.advance_wrap hx, ih]
    rfl

/-! ### The text commands -/

/-- The glyphs of a run as PRINTSTR sends them, each with its cursor (R156, R158). -/
def sentGlyphs (font : List Byte) (ti : Bool) (f : FontTable) (gs : List (Cursor × Byte)) :
    List (Cursor × List WireEvent) := gs.map fun g => (g.1, glyphEvents font ti f g.1 g.2)

theorem sentGlyphs_events (font : List Byte) (ti : Bool) (f : FontTable) (gs : List (Cursor × Byte)) :
    (sentGlyphs font ti f gs).flatMap Prod.snd = gs.flatMap fun g => glyphEvents font ti f g.1 g.2 :=
  List.flatMap_map ..

theorem sentGlyphs_append_cons (font : List Byte) (ti : Bool) (f : FontTable) (before later : List (Cursor × Byte))
    (g : Cursor × Byte) :
    sentGlyphs font ti f (before ++ g :: later) =
      sentGlyphs font ti f before ++ (g.1, glyphEvents font ti f g.1 g.2) :: sentGlyphs font ti f later :=
  List.map_append

section text
variable {s : State} {x row : Byte} {fbase : Word} {str : List Byte} {f : FontTable} {gs : List (Cursor × Byte)}
  {q : Cursor}

theorem exec_printch_of_none {c : Byte} (hf : parseFont s.cfg.font s.cfg.defaultFontBase.toNat = none) :
    exec (.printch c) s = .next (s.recordFault .fontBounds) := by
  simp [exec, execPrintch, hf]

/-- PRINTCH of a character outside the default font does nothing but move on (R160). -/
theorem exec_printch_of_skip {c : Byte} (hf : parseFont s.cfg.font s.cfg.defaultFontBase.toNat = some f)
    (hrows : f.rows = 1) (hc : f.inFont c = false) : exec (.printch c) s = .next (s.advance 2) := by
  simp [exec, execPrintch, hf, hrows, hc]

/-- PRINTCH of a character of the default font sends its one band (R160). -/
theorem exec_printch_of_inFont {c : Byte} (hf : parseFont s.cfg.font s.cfg.defaultFontBase.toNat = some f)
    (hrows : f.rows = 1) (hc : f.inFont c = true) :
    exec (.printch c) s =
      s.transmit ((List.range f.gw).map fun i => .data (textInv s.ti (glyphByte s.cfg.font f c i 0)))
        (fun u => .next (u.advance 2)) := by
  simp [exec, execPrintch, hf, hrows, hc]

theorem exec_printstr_of_none (hf : parseFont s.cfg.font fbase.toNat = none) :
    exec (.printstr x row fbase str) s = .next (s.recordFault .fontBounds) := by
  simp [exec, execPrintstr, hf]

theorem exec_printstrb_of_none (hf : parseFont s.cfg.font fbase.toNat = none) :
    exec (.printstrb x row fbase str) s = .next (s.recordFault .fontBounds) := by
  simp [exec, execPrintstrb, hf]

/-- PRINTSTR sends the glyphs of its run (R158). -/
theorem exec_printstr_of_textRuns (hf : parseFont s.cfg.font fbase.toNat = some f)
    (h : TextRuns f str (startCursor x row) gs q) :
    exec (.printstr x row fbase str) s =
      s.sendGlyphs (sentGlyphs s.cfg.font s.ti f gs) (finishString q (6 + str.length)) := by
  simp only [exec, execPrintstr, hf, h.textLoop_eq, sentGlyphs, List.map_eq_flatMap, List.flatMap_eq_foldl]

/-- PRINTSTRB stores the glyphs of its run (R159). -/
theorem exec_printstrb_of_textRuns (hf : parseFont s.cfg.font fbase.toNat = some f)
    (h : TextRuns f str (startCursor x row) gs q) :
    exec (.printstrb x row fbase str) s =
      finishString q (6 + str.length)
        (s.setFb (s.fb.store (gs.flatMap fun g => glyphStores s.cfg.font s.ti f g.1 g.2))) := by
  simp only [exec, execPrintstrb, hf, h.textLoop_eq, PixelBuffer.store, List.foldl_flatMap]

/-- A PRINTSTR that is not stuck has sent every glyph of its run. -/
theorem wire_of_printstr {t : State} (hf : parseFont s.cfg.font fbase.toNat = some f)
    (h : TextRuns f str (startCursor x row) gs q) (ht : exec (.printstr x row fbase str) s = .next t)
    (hw : t.waiting = none) : t.wire = s.wire ++ gs.flatMap fun g => glyphEvents s.cfg.font s.ti f g.1 g.2 := by
  rw [exec_printstr_of_textRuns hf h] at ht
  rw [← sentGlyphs_events]
  obtain ⟨-, hg⟩ | ⟨hb, _, _, _, -, -, -, hg⟩ :=
    State.sendGlyphs_cases (sentGlyphs s.cfg.font s.ti f gs) q (6 + str.length) s
  · cases hg.symm.trans ht
    rfl
  · cases hg.symm.trans ht
    exact absurd hw (State.stall_waiting_ne_none hb)

end text

/-! ### A glyph at the assumed controller -/

/-- The bands of a glyph, before the home that ends it (R156). -/
def glyphBands (font : List Byte) (ti : Bool) (f : FontTable) (p : Cursor) (c : Byte) : List WireEvent :=
  (List.range f.rows).flatMap fun r =>
    [.command (0x40 ||| BitVec.ofNat 8 (p.row + r)), .command (0x80 ||| BitVec.ofNat 8 p.x)] ++
    (List.range f.gw).map fun i => .data (textInv ti (glyphByte font f c i r))

theorem glyphEvents_eq (font : List Byte) (ti : Bool) (f : FontTable) (p : Cursor) (c : Byte) :
    glyphEvents font ti f p c = glyphBands font ti f p c ++ goToEvents 0 0 := rfl

/-- A glyph's stores, band by band (R159). -/
theorem glyphStores_eq (font : List Byte) (ti : Bool) (f : FontTable) (p : Cursor) (c : Byte) :
    glyphStores font ti f p c = (List.range f.rows).flatMap fun r =>
      runStores (bAddr (p.row + r) p.x) (fun i => textInv ti (glyphByte font f c i r)) f.gw := by
  simp only [glyphStores, runStores, bAddr, Nat.add_assoc]

/-- The controller stores the bands of a glyph where PRINTSTRB stores them, for a glyph inside the display that has a
column (R156, R159). -/
theorem sinkStores_glyphBands (font : List Byte) (ti : Bool) {f : FontTable} {p : Cursor} (c : Byte) (hgw : 1 ≤ f.gw)
    (hcol : p.x + f.gw ≤ 84) (hband : p.row + f.rows ≤ 5) :
    SinkStores (glyphBands font ti f p c) (glyphStores font ti f p c) := by
  rw [glyphStores_eq]
  refine .flatMap fun r hr => ?_
  have hr : r < f.rows := List.mem_range.1 hr
  have hx : (BitVec.ofNat 8 p.x).toNat = p.x := by rw [BitVec.toNat_ofNat]; omega
  have hrow : (BitVec.ofNat 8 (p.row + r)).toNat = p.row + r := by rw [BitVec.toNat_ofNat]; omega
  refine .strip _ (fun k hext => ?_) (by omega) hcol (by omega)
  rw [Sink.receiveAll_bandThenX hext (by omega) (by omega), hx, hrow]

/-! ### The obligations -/

/-- Settles O37: the declared glyph entries lie in FONT, and so does the address. -/
theorem glyphBytesLieInTheFont : Obligations.GlyphBytesLieInTheFont := by
  intro font B f c i r hf hc hi hr
  have hbase : f.base = B := by rw [(parseFont_eq_some hf).1]; rfl
  subst hbase
  exact fontByte_eq (FontTable.glyphAddr_lt hf hc hi hr)

/-- Settles O60: both commands run the same glyphs, and the controller stores each where PRINTSTRB does; the last one
ends with home. -/
theorem printstrShowsWhatPrintstrbStores : Obligations.PrintstrShowsWhatPrintstrbStores := by
  intro s t u k x row fbase str f hf hgw hext hv ht hw hu
  obtain ⟨gs, q, hrun⟩ := exists_textRuns f str (startCursor x row)
  have hbands : ∀ g ∈ gs,
      SinkStores (glyphBands s.cfg.font s.ti f g.1 g.2) (glyphStores s.cfg.font s.ti f g.1 g.2) := by
    intro g hg
    obtain ⟨hcol, hband, -, -⟩ := hrun.emitted rfl g hg
    exact sinkStores_glyphBands _ _ _ hgw hcol hband
  have hfb : u.fb = k.dd.store (gs.flatMap fun g => glyphStores s.cfg.font s.ti f g.1 g.2) := by
    cases (exec_printstrb_of_textRuns (s := s.setFb k.dd) hf hrun).symm.trans hu
    rfl
  rw [wire_of_printstr hf hrun ht hw, List.drop_left, hfb]
  rcases List.eq_nil_or_concat' gs with rfl | ⟨before, g, rfl⟩
  · exact ⟨k, rfl, fun _ _ => rfl, fun hne => absurd (List.append_nil _) hne⟩
  · have hbefore : SinkStores (before.flatMap fun g => glyphEvents s.cfg.font s.ti f g.1 g.2)
        (before.flatMap fun g => glyphStores s.cfg.font s.ti f g.1 g.2) :=
      .flatMap fun g' hg' => (hbands g' (List.mem_append_left _ hg')).home
    have hall := (hbefore.append (hbands g (by simp))).receiveAll_home hext hv
    rw [List.flatMap_append, List.flatMap_singleton, glyphEvents_eq, ← List.append_assoc, hall,
      List.flatMap_append, List.flatMap_singleton]
    exact ⟨_, rfl, fun _ _ => rfl, fun _ => ⟨rfl, rfl⟩⟩

end Sys2Proof.Machine
end

section
/-! SUPPORT. A command and its transport: what it delivers to any transport that accepts its events, and where one that
does not cuts it short. -/

namespace Sys2Proof.Machine

/-! ### A state with another transport -/

/-- The state with the transport `τ`, which is the environment's (R6). -/
def State.withTransport (τ : Transport) (s : State) : State := { s with transport := τ }

@[simp] theorem State.withTransport_cfg (τ : Transport) (s : State) : (s.withTransport τ).cfg = s.cfg := rfl

theorem transportAfter_zero (τ : Transport) : transportAfter τ 0 = τ := by cases τ <;> rfl

theorem transportAccepts_iff (n m : Nat) : transportAccepts (.accepts n) m = true ↔ m ≤ n := by
  simp [transportAccepts]

theorem transportAccepts_eq_false {n m : Nat} (h : n < m) : transportAccepts (.accepts n) m = false := by
  simp [transportAccepts, h]

/-! ### A command cut short -/

/-- `u` is where a command of opcode `op` stands after `n` of its events, of which the next is never accepted: from `s`,
where with every event accepted it would come to `t` (R59, R204; log entry 5). -/
structure CutShort (op : Byte) (s t : State) (events : List WireEvent) (n : Nat) (u : State) : Prop where
  /-- Only MODE, FAILED and the cursor can have changed besides the transport and its trace. -/
  frame : u = { s with
    mode := u.mode
    status := u.status
    curX := u.curX
    curRow := u.curRow
    wire := s.wire ++ events.take n
    waiting := events[n]?
    transport := .accepts 0 }
  /-- SETDINV has written DI before it sends. -/
  mode : u.mode = if op = 0x41#8 then t.mode else s.mode
  /-- PRINTSTR alone has written the cursor. -/
  cursor : op ≠ 0x31#8 → u.status = s.status ∧ u.curX = s.curX ∧ u.curRow = s.curRow
  faulted : u.faulted = s.faulted

/-- A command cut short has left the core stuck. -/
theorem CutShort.isStuck {op : Byte} {s t u : State} {events : List WireEvent} {n : Nat}
    (h : CutShort op s t events n u) (hn : n < events.length) : u.isStuck = true := by
  rw [State.isStuck, congrArg State.waiting h.frame]
  simp [hn]

/-- No step follows in the stuck core (R204). -/
theorem step_of_isStuck {s : State} (hc : s.cfg.wf = true) (hf : s.faulted = false) (hs : s.isStuck = true) :
    step s = .fault .transportStalled := by
  rw [State.isStuck] at hs
  simp [step, hc, hf, hs]

/-! ### What a command delivers -/

/-- Command `i` sends `events` and comes to `t`, whatever the transport, if it accepts them all, and is cut short by one
that does not. -/
structure Delivers (i : Instr) (s : State) (events : List WireEvent) (t : State) : Prop where
  wire : t.wire = s.wire ++ events
  waiting : t.waiting = s.waiting
  completes : ∀ τ, transportAccepts τ events.length = true →
    exec i (s.withTransport τ) = .next (t.withTransport (transportAfter τ events.length))
  cut : ∀ n, n < events.length →
    ∃ u, exec i (s.withTransport (.accepts n)) = .next u ∧ CutShort i.opcode s t events n u

section delivers
variable {i : Instr} {s t : State}

/-- A command that sends nothing. -/
theorem Delivers.silent (hexec : ∀ τ, exec i (s.withTransport τ) = .next (t.withTransport τ)) (hwire : t.wire = s.wire)
    (hwaiting : t.waiting = s.waiting) : Delivers i s [] t where
  wire := by rw [hwire, List.append_nil]
  waiting := hwaiting
  completes τ _ := by rw [List.length_nil, transportAfter_zero, hexec]
  cut _ hn := absurd hn (Nat.not_lt_zero _)

/-- A command whose rule is to send its events, after writing at most MODE, and then to go on. -/
theorem Delivers.sending {m : Byte} {events : List WireEvent} {done : State → Result}
    (hexec : ∀ τ, exec i (s.withTransport τ) = (State.withTransport τ { s with mode := m }).transmit events done)
    (hdone : ∀ τ, done ((State.withTransport τ { s with mode := m }).sent events) =
      .next (t.withTransport (transportAfter τ events.length)))
    (hwire : t.wire = s.wire ++ events) (hwaiting : t.waiting = s.waiting)
    (hmode : m = if i.opcode = 0x41#8 then t.mode else s.mode) : Delivers i s events t where
  wire := hwire
  waiting := hwaiting
  completes τ hτ := by rw [hexec, State.transmit_of_accepts hτ, hdone]
  cut n hn := ⟨_, (hexec _).trans (State.transmit_of_blocks (transportAccepts_eq_false hn)),
    ⟨rfl, hmode, fun _ => ⟨rfl, rfl, rfl⟩, rfl⟩⟩

/-- A command whose whole rule is to send its events. -/
theorem Delivers.onlySending {events : List WireEvent} {n : Nat} (hop : i.opcode ≠ 0x41#8)
    (hexec : ∀ τ, exec i (s.withTransport τ) =
      (s.withTransport τ).transmit events (fun u => .next (u.advance n))) :
    Delivers i s events ((s.sent events).advance n) :=
  .sending (m := s.mode) hexec (fun _ => rfl) rfl rfl (if_neg hop).symm

/-- A command that tests its operands first sends nothing where the test raises. -/
theorem exists_delivers_of_guarded {bad : Bool} {k : FaultCause} {rule : State → Result}
    (hexec : ∀ u, exec i u = if bad then u.raise k else rule u)
    (hrule : (∀ u, exec i u = rule u) → ∃ events t, Delivers i s events t) : ∃ events t, Delivers i s events t := by
  cases bad with
  | true => exact ⟨_, s.recordFault k, .silent (fun τ => hexec _) rfl rfl⟩
  | false => exact hrule hexec

/-- PRINTCH sends the default font's glyph, or nothing; where it is not refused with one transport, it is with none. -/
theorem exists_delivers_printch {c : Byte} (h : exec (.printch c) (s.withTransport .ready) = .next t) :
    ∃ events t, Delivers (.printch c) s events t := by
  cases hf : parseFont s.cfg.font s.cfg.defaultFontBase.toNat with
  | none => exact ⟨_, s.recordFault .fontBounds, .silent (fun _ => exec_printch_of_none hf) rfl rfl⟩
  | some f =>
    by_cases hrows : f.rows = 1
    · cases hc : f.inFont c with
      | false => exact ⟨_, s.advance 2, .silent (fun _ => exec_printch_of_skip hf hrows hc) rfl rfl⟩
      | true =>
        exact ⟨(List.range f.gw).map fun i => .data (textInv s.ti (glyphByte s.cfg.font f c i 0)), _,
          .onlySending (by simp [Instr.opcode]) fun τ => exec_printch_of_inFont (s := s.withTransport τ) hf hrows hc⟩
    · simp [exec, execPrintch, hf, hrows] at h

/-- PRINTSTR sends the glyphs of its run; cut in one of them it holds that glyph's cursor (R158). -/
theorem exists_delivers_printstr (s : State) (x row : Byte) (fbase : Word) (str : List Byte) :
    ∃ events t, Delivers (.printstr x row fbase str) s events t := by
  cases hf : parseFont s.cfg.font fbase.toNat with
  | none => exact ⟨_, s.recordFault .fontBounds, .silent (fun _ => exec_printstr_of_none hf) rfl rfl⟩
  | some f =>
    obtain ⟨gs, q, hrun⟩ := exists_textRuns f str (startCursor x row)
    have hcases (τ : Transport) := State.sendGlyphs_cases (sentGlyphs s.cfg.font s.ti f gs) q (6 + str.length)
      (s.withTransport τ)
    have hexec (τ : Transport) := exec_printstr_of_textRuns (s := s.withTransport τ) hf hrun
    refine ⟨(sentGlyphs s.cfg.font s.ti f gs).flatMap Prod.snd,
      ((s.sent ((sentGlyphs s.cfg.font s.ti f gs).flatMap Prod.snd)).loadCursor q).advance (6 + str.length),
      rfl, rfl, fun τ hτ => ?_, fun n hn => ?_⟩
    · obtain ⟨-, hg⟩ | ⟨hb, -⟩ := hcases τ
      · exact (hexec τ).trans hg
      · cases hτ.symm.trans hb
    · obtain ⟨ha, -⟩ | ⟨-, _, _, _, -, -, -, hg⟩ := hcases (.accepts n)
      · cases ha.symm.trans (transportAccepts_eq_false hn)
      · exact ⟨_, (hexec _).trans hg, ⟨rfl, rfl, fun hop => absurd rfl hop, State.faulted_loadCursor _ _⟩⟩

/-- PRINTSTRB sends nothing. -/
theorem exists_delivers_printstrb (s : State) (x row : Byte) (fbase : Word) (str : List Byte) :
    ∃ events t, Delivers (.printstrb x row fbase str) s events t := by
  cases hf : parseFont s.cfg.font fbase.toNat with
  | none => exact ⟨_, s.recordFault .fontBounds, .silent (fun _ => exec_printstrb_of_none hf) rfl rfl⟩
  | some f =>
    obtain ⟨gs, q, hrun⟩ := exists_textRuns f str (startCursor x row)
    exact ⟨_, ((s.setFb (s.fb.store (gs.flatMap fun g => glyphStores s.cfg.font s.ti f g.1 g.2))).loadCursor q).advance
        (6 + str.length),
      .silent (fun τ => exec_printstrb_of_textRuns (s := s.withTransport τ) hf hrun) rfl rfl⟩

end delivers

/-- Every command that is not refused delivers its events, to any transport. -/
theorem exists_delivers {i : Instr} {s t : State} (h : exec i (s.withTransport .ready) = .next t) :
    ∃ events t, Delivers i s events t := by
  cases i
  case clear => exact ⟨_, (s.setFb s.fb.clear).advance 1, .silent (fun _ => rfl) rfl rfl⟩
  case hline => exact ⟨_, (s.setFb (hLine _ _ _ s.fb)).advance 4, .silent (fun _ => rfl) rfl rfl⟩
  case vline => exact ⟨_, (s.setFb (vLine _ _ _ s.fb)).advance 4, .silent (fun _ => rfl) rfl rfl⟩
  case line => exact ⟨_, (s.setFb (drawLine _ _ _ _ s.fb)).advance 5, .silent (fun _ => rfl) rfl rfl⟩
  case rect => exact ⟨_, (s.setFb (drawRect _ _ _ _ s.fb)).advance 5, .silent (fun _ => rfl) rfl rfl⟩
  case getpix x y =>
    exact ⟨_, (s.setRes (BitVec.ofNat 8 (s.fb.pixel (clampX x.toNat) (clampY y.toNat)).toNat)).advance 3,
      .silent (fun _ => rfl) rfl rfl⟩
  case setpix =>
    exact exists_delivers_of_guarded (fun _ => rfl) fun hexec =>
      ⟨_, (s.setFb (s.fb.setPixel _ _ _)).advance 4, .silent (fun _ => hexec _) rfl rfl⟩
  case getbyte =>
    exact exists_delivers_of_guarded (fun _ => rfl) fun hexec =>
      ⟨_, (s.setRes (s.fb.read _)).advance 3, .silent (fun _ => hexec _) rfl rfl⟩
  case setbyte =>
    exact exists_delivers_of_guarded (fun _ => rfl) fun hexec =>
      ⟨_, (s.setFb (s.fb.write _ _)).advance 4, .silent (fun _ => hexec _) rfl rfl⟩
  case settinv =>
    exact exists_delivers_of_guarded (fun _ => rfl) fun hexec =>
      ⟨_, (s.setTi _).advance 2, .silent (fun _ => hexec _) rfl rfl⟩
  case printch => exact exists_delivers_printch h
  case printstr => exact exists_delivers_printstr s _ _ _ _
  case printstrb => exact exists_delivers_printstrb s _ _ _ _
  case init =>
    exact ⟨initEvents, ((((s.sent initEvents).setFb s.fb.clear).setTi false).setDi false).advance 1,
      .sending (m := s.mode) (done := fun u => .next ((((u.setFb u.fb.clear).setTi false).setDi false).advance 1))
        (fun _ => rfl) (fun _ => rfl) rfl rfl rfl⟩
  case setdinv =>
    exact exists_delivers_of_guarded (fun _ => rfl) fun hexec =>
      ⟨_, ((s.setDi _).sent _).advance 2, .sending (fun _ => hexec _) (fun _ => rfl) rfl rfl rfl⟩
  case goto =>
    exact exists_delivers_of_guarded (fun _ => rfl) fun hexec =>
      ⟨_, _, .onlySending (by simp [Instr.opcode]) fun _ => hexec _⟩
  case refresh =>
    exact ⟨goToEvents 0 0 ++ dataEvents s.fb.bytes, _, .onlySending (by simp [Instr.opcode]) fun _ => rfl⟩
  case refreshr xmin ymin xmax ymax =>
    exact exists_delivers_of_guarded (fun _ => rfl) fun hexec =>
      ⟨regionEvents s.fb xmin ymin xmax ymax, _, .onlySending (by simp [Instr.opcode]) fun _ => hexec _⟩

/-! ### A string cut in a given glyph -/

/-- The glyphs before it are accepted whole and glyph `g` is not: the core is stuck in it, with its position in the
cursor registers (R155 to R158). -/
theorem State.sendGlyphs_cut (before : List (Cursor × List WireEvent)) (g : Cursor × List WireEvent)
    (later : List (Cursor × List WireEvent)) (done : State → Result) (s : State)
    (ha : transportAccepts s.transport (before.flatMap Prod.snd).length = true)
    (hb : transportAccepts s.transport ((before.flatMap Prod.snd).length + g.2.length) = false) :
    s.sendGlyphs (before ++ g :: later) done =
      .next ((s.stall ((before ++ g :: later).flatMap Prod.snd)).loadCursor g.1) := by
  induction before generalizing s with
  | nil =>
    have hb' : transportAccepts s.transport g.2.length = false := by simpa using hb
    simp only [List.nil_append, State.sendGlyphs, List.flatMap_cons]
    rw [State.transmit_of_blocks (by exact hb'), State.stall_append_of_blocks hb']
    rfl
  | cons e before ih =>
    rw [List.flatMap_cons, List.length_append, transportAccepts_add, Bool.and_eq_true] at ha
    obtain ⟨he, ha⟩ := ha
    rw [List.flatMap_cons, List.length_append, Nat.add_assoc, transportAccepts_add, he, Bool.true_and] at hb
    simp only [List.cons_append, State.sendGlyphs, List.flatMap_cons]
    rw [State.transmit_of_accepts (by exact he), ih _ ha hb, State.stall_append he]
    exact congrArg _ (State.loadCursor_loadCursor e.1 g.1 ((s.sent e.2).stall _))

/-- The stuck state of a PRINTSTR, field by field: FAILED is clear in the glyph it is cut in (R155). -/
theorem State.loadCursor_stall_eq {s : State} {k : Nat} (hk : s.transport = .accepts k) {p : Cursor}
    (hp : p.failed = false) (events : List WireEvent) :
    (s.stall events).loadCursor p = { s with
      curX := BitVec.ofNat 8 p.x
      curRow := BitVec.ofNat 8 p.row
      status := s.status &&& 0xFE
      wire := s.wire ++ events.take k
      waiting := events[k]?
      transport := .accepts 0 } := by
  simp only [State.loadCursor, State.setFailed, State.stall, hk, hp, acceptedEvents, blockedEvent]
  rfl

/-! ### The obligations -/

/-- Settles O16: every command delivers its events to any transport, and a string is cut in the glyph that the count of
accepted events falls in. -/
theorem aStalledTransportStallsTheCommand : Obligations.AStalledTransportStallsTheCommand := by
  refine ⟨fun i s t n h => ?_, fun s x row fbase str f before later g q k hf hrun hk hle hlt => ?_⟩
  · obtain ⟨events, t', hd⟩ := exists_delivers h
    cases (hd.completes .ready rfl).symm.trans h
    refine ⟨events, hd.wire, hd.waiting, rfl, fun hle => hd.completes _ ((transportAccepts_iff _ _).2 hle),
      fun hlt => ?_⟩
    obtain ⟨u, hu, hcut⟩ := hd.cut n hlt
    refine ⟨u, hu, hcut.frame, fun hop => hcut.mode.trans (if_pos hop), fun hop => hcut.mode.trans (if_neg hop),
      hcut.cursor, hcut.faulted, hcut.isStuck hlt, fun hc hf => ?_⟩
    have hcfg : u.cfg = s.cfg := by rw [hcut.frame]
    exact step_of_isStuck (hcfg ▸ hc) (hcut.faulted.trans hf) (hcut.isStuck hlt)
  · obtain ⟨-, -, -, hfailed⟩ := hrun.emitted rfl g (by simp)
    have hcut := State.sendGlyphs_cut (sentGlyphs s.cfg.font s.ti f before)
      (g.1, glyphEvents s.cfg.font s.ti f g.1 g.2) (sentGlyphs s.cfg.font s.ti f later)
      (finishString q (6 + str.length)) s
      (by rwa [sentGlyphs_events, hk, transportAccepts_iff])
      (by rw [sentGlyphs_events, hk]; exact transportAccepts_eq_false hlt)
    rw [← sentGlyphs_append_cons, sentGlyphs_events, State.loadCursor_stall_eq hk hfailed] at hcut
    exact (exec_printstr_of_textRuns hf hrun).trans hcut

end Sys2Proof.Machine
end

section
/-! SUPPORT. The encoding of a command through its row of the opcode map: what a row writes, it reads back, and it reads
nothing else; and the statements about the decoder and the encoder. -/

namespace Sys2Proof

/-! ### What a row of the opcode map writes -/

/-- The operand bytes that a row of the opcode map writes for a command: one rule for each format of R81. -/
inductive Layout.Writes : Layout → List Byte → Instr → Prop where
  | f0 (mk : Instr) : Writes (.f0 mk) [] mk
  | f1 (mk : Byte → Instr) (a : Byte) : Writes (.f1 mk) [a] (mk a)
  | f2 (mk : Byte → Byte → Instr) (a b : Byte) : Writes (.f2 mk) [a, b] (mk a b)
  | f3 (mk : Byte → Byte → Byte → Instr) (a b c : Byte) : Writes (.f3 mk) [a, b, c] (mk a b c)
  | f4 (mk : Byte → Byte → Byte → Byte → Instr) (a b c d : Byte) : Writes (.f4 mk) [a, b, c, d] (mk a b c d)
  /-- The string fits its length byte (R85). -/
  | fs (mk : Byte → Byte → Word → List Byte → Instr) (a b : Byte) (p : Word) (str : List Byte)
      (hstr : str.length < 256) : Writes (.fs mk) (encodeFS a b p str) (mk a b p str)

theorem length_encodeFS (x row : Byte) (fbase : Word) (str : List Byte) :
    (encodeFS x row fbase str).length = 5 + str.length := by
  rw [encodeFS, List.length_append]
  rfl

section rows
variable {row : Layout} {operands : List Byte} {i : Instr}

/-- A row reads back what it writes, whatever follows (R81). -/
theorem Layout.Writes.decodeLayout_append (h : row.Writes operands i) (rest : List Byte) :
    decodeLayout row (operands ++ rest) = .ok i := by
  cases h with
  | fs mk a b p str hstr => exact decodeFS_encodeFS mk a b p str rest hstr
  | _ => rfl

/-- What a row writes, cut short, is truncated (R87). -/
theorem Layout.Writes.decodeLayout_take (h : row.Writes operands i) {k : Nat} (hk : k < operands.length) :
    decodeLayout row (operands.take k) = .error .truncated := by
  cases h with
  | f0 => exact absurd hk (Nat.not_lt_zero k)
  | f1 => match k, hk with | 0, _ => rfl
  | f2 => match k, hk with | 0, _ | 1, _ => rfl
  | f3 => match k, hk with | 0, _ | 1, _ | 2, _ => rfl
  | f4 => match k, hk with | 0, _ | 1, _ | 2, _ | 3, _ => rfl
  | fs mk a b p str hstr => exact decodeFS_take mk a b p str k hstr (length_encodeFS a b p str ▸ hk)

/-- What a row reads begins with what it writes for the command it has read (R81). -/
theorem Layout.exists_writes_of_decodeLayout {bs : List Byte} (h : decodeLayout row bs = .ok i) :
    ∃ operands, row.Writes operands i ∧ operands <+: bs := by
  cases row <;> simp only [decodeLayout] at h
  case f0 mk => cases h; exact ⟨[], .f0 _, List.nil_prefix⟩
  case f1 mk => obtain ⟨a, r, rfl, rfl⟩ := decodeF1_ok h; exact ⟨_, .f1 mk a, r, rfl⟩
  case f2 mk => obtain ⟨a, b, r, rfl, rfl⟩ := decodeF2_ok h; exact ⟨_, .f2 mk a b, r, rfl⟩
  case f3 mk => obtain ⟨a, b, c, r, rfl, rfl⟩ := decodeF3_ok h; exact ⟨_, .f3 mk a b c, r, rfl⟩
  case f4 mk => obtain ⟨a, b, c, d, r, rfl, rfl⟩ := decodeF4_ok h; exact ⟨_, .f4 mk a b c d, r, rfl⟩
  case fs mk =>
    obtain ⟨a, b, p, str, rfl, hstr, -, htake⟩ := decodeFS_ok h
    exact ⟨_, .fs mk a b p str hstr, htake ▸ List.take_prefix _ _⟩

end rows

/-! ### The encoder is the opcode map read the other way -/

/-- The opcode map has a row under an encodable command's opcode, and that row writes the command's operand bytes
(R82, R83). -/
theorem Instr.exists_row (i : Instr) (h : i.encodable = true) :
    ∃ row, opcodeTable.lookup i.opcode = some row ∧ row.Writes i.operandBytes i := by
  cases i
  case clear | init | refresh => exact ⟨_, rfl, .f0 _⟩
  case printch | setdinv | settinv => exact ⟨_, rfl, .f1 _ _⟩
  case getpix | getbyte | goto => exact ⟨_, rfl, .f2 _ _ _⟩
  case setpix | setbyte | hline | vline => exact ⟨_, rfl, .f3 _ _ _ _⟩
  case line | rect | refreshr => exact ⟨_, rfl, .f4 _ _ _ _ _⟩
  case printstr | printstrb => exact ⟨_, rfl, .fs _ _ _ _ _ (of_decide_eq_true h)⟩

/-- A row of the opcode map writes encodable commands alone, after its opcode the bytes that the encoder gives
(R82, R83). -/
theorem encode_of_mem_opcodeTable {op : Byte} {row : Layout} {operands : List Byte} {i : Instr}
    (hrow : (op, row) ∈ opcodeTable) (h : row.Writes operands i) :
    i.encodable = true ∧ encode i = op :: operands := by
  cases h <;> simp only [opcodeTable, List.mem_cons, List.not_mem_nil, Prod.mk.injEq, Layout.f0.injEq, Layout.f1.injEq,
    Layout.f2.injEq, Layout.f3.injEq, Layout.f4.injEq, Layout.fs.injEq, reduceCtorEq, and_false, or_false,
    false_or] at hrow
  case f0 => obtain ⟨rfl, rfl⟩ | ⟨rfl, rfl⟩ | ⟨rfl, rfl⟩ := hrow <;> exact ⟨rfl, rfl⟩
  case f1 => obtain ⟨rfl, rfl⟩ | ⟨rfl, rfl⟩ | ⟨rfl, rfl⟩ := hrow <;> exact ⟨rfl, rfl⟩
  case f2 => obtain ⟨rfl, rfl⟩ | ⟨rfl, rfl⟩ | ⟨rfl, rfl⟩ := hrow <;> exact ⟨rfl, rfl⟩
  case f3 => obtain ⟨rfl, rfl⟩ | ⟨rfl, rfl⟩ | ⟨rfl, rfl⟩ | ⟨rfl, rfl⟩ := hrow <;> exact ⟨rfl, rfl⟩
  case f4 => obtain ⟨rfl, rfl⟩ | ⟨rfl, rfl⟩ | ⟨rfl, rfl⟩ := hrow <;> exact ⟨rfl, rfl⟩
  case fs hstr => obtain ⟨rfl, rfl⟩ | ⟨rfl, rfl⟩ := hrow <;> exact ⟨decide_eq_true hstr, rfl⟩

/-- The length of R81 is that of the encoding. -/
theorem length_encode (i : Instr) : (encode i).length = i.size := by
  cases i
  case printstr x row fbase str => exact (Laws.EncodedLength.printstr x row fbase str).1
  case printstrb x row fbase str => exact (Laws.EncodedLength.printstrb x row fbase str).1
  all_goals rfl

/-- The illegal opcodes are those under which the opcode map has no row (R86). -/
theorem decode_eq_illegalOpcode_iff (op : Byte) (rest : List Byte) :
    decode (op :: rest) = .error .illegalOpcode ↔ ∀ entry ∈ opcodeTable, op ≠ entry.1 := by
  have hlookup : decode (op :: rest) = .error .illegalOpcode ↔ opcodeTable.lookup op = none := by
    cases hrow : opcodeTable.lookup op with
    | none => simp [decode, decodeOpcode, hrow]
    | some row => simp [decode_of_lookup hrow, decodeLayout_ne_illegal]
  simp only [hlookup, List.lookup_eq_none_iff, bne_iff_ne]

/-! ### The obligations -/

/-- Settles O1: the command's row reads back what it has written. -/
theorem decodeOfEncodeIsTheCommand : Obligations.DecodeOfEncodeIsTheCommand := by
  intro i rest henc
  obtain ⟨row, hrow, hw⟩ := i.exists_row henc
  calc decode (encode i ++ rest)
      = decodeLayout row (i.operandBytes ++ rest) := decode_of_lookup hrow _
    _ = .ok i := hw.decodeLayout_append rest

/-- Settles O2: the bytes begin with what the row that has read the command writes, and that is the encoding. -/
theorem encodeOfDecodeIsTheBytes : Obligations.EncodeOfDecodeIsTheBytes := by
  intro bs i h
  cases bs with
  | nil => cases h
  | cons op rest =>
    obtain ⟨row, hrow, hi⟩ := decode_ok h
    obtain ⟨operands, hw, hprefix⟩ := Layout.exists_writes_of_decodeLayout hi
    obtain ⟨henc, hbytes⟩ := encode_of_mem_opcodeTable hrow hw
    have hp : encode i <+: op :: rest := hbytes ▸ (List.prefix_cons_inj op).2 hprefix
    rw [← length_encode]
    exact ⟨henc, hp.length_le, List.prefix_iff_eq_take.1 hp⟩

/-- Settles O3: the listed values are the opcode map's, in its order. -/
theorem onlyTheEighteenOpcodesAreDefined : Obligations.OnlyTheEighteenOpcodesAreDefined := by
  intro op rest
  have hvalues : [0x10, 0x11, 0x12, 0x13, 0x14, 0x20, 0x21, 0x22, 0x23, 0x30, 0x31, 0x32,
      0x40, 0x41, 0x42, 0x43, 0x44, 0x45] = opcodeTable.map fun entry => entry.1.toNat := rfl
  rw [decode_eq_illegalOpcode_iff, hvalues]
  simp only [List.mem_map, BitVec.toNat_inj, not_exists, not_and, ne_comm]

/-- Settles O4: without its opcode nothing is decoded (log entry 11), and with it the row lacks an operand byte. -/
theorem everyProperPrefixIsTruncated : Obligations.EveryProperPrefixIsTruncated := by
  intro i k henc hk
  obtain ⟨row, hrow, hw⟩ := i.exists_row henc
  rw [← length_encode] at hk
  cases k with
  | zero => rfl
  | succ k =>
    calc decode ((encode i).take (k + 1))
        = decodeLayout row (i.operandBytes.take k) := decode_of_lookup hrow _
      _ = .error .truncated := hw.decodeLayout_take (Nat.lt_of_succ_lt_succ hk)

/-- Settles O5: each of the eight is a closed computation of the decoder. -/
theorem specWordsDecode : Obligations.SpecWordsDecode := ⟨rfl, rfl, rfl, rfl, rfl, rfl, rfl, rfl⟩

end Sys2Proof
end

section
/-! SUPPORT. What the assembler accepts, the command step branch by branch, and the events a command can send; and the
statements about them. -/

namespace Sys2Proof.Machine

/-! ### The assembler -/

section assembler
variable {ops : List AsmOperand} {i : Instr}

/-- A mnemonic without operands makes its one command (R91). -/
theorem asm0_ok {mk : Instr} (h : (if ops = [] then some mk else none) = some i) : i = mk := by
  obtain ⟨-, hmk⟩ := Option.ite_none_right_eq_some.1 h
  exact (Option.some.inj hmk).symm

theorem assemble_setpix_ok (h : assemble .setpix ops = some i) :
    ∃ x y on, i = .setpix x y on ∧ boolByteOk on = true := by
  match ops, h with
  | [_, _, _], h =>
    obtain ⟨on, hon, h⟩ := Option.bind_eq_some_iff.1 h
    obtain ⟨x, y, rfl⟩ := asm2_ok h
    exact ⟨x, y, on, rfl, asmBool_ok hon⟩
  | [], h | [_], h | [_, _], h | _ :: _ :: _ :: _ :: _, h => cases h

/-- The operand of a flag command is a Boolean (R91). -/
theorem asmFlag_ok {mk : Byte → Instr} {o : AsmOperand} (h : (asmBool o).map mk = some i) :
    ∃ flag, i = mk flag ∧ boolByteOk flag = true := by
  obtain ⟨flag, hok, rfl⟩ := Option.map_eq_some_iff.1 h
  exact ⟨flag, rfl, asmBool_ok hok⟩

end assembler

/-! ### The command step, branch by branch -/

section step
variable {s : State}

/-- A faulted core executes nothing (R203). -/
theorem step_of_faulted (hc : s.cfg.wf = true) (hf : s.faulted = true) : step s = .fault .halted := by
  simp [step, hc, hf]

/-- An exhausted stream enables no step (R12, R80). -/
theorem step_of_exhausted (hc : s.cfg.wf = true) (hf : s.faulted = false) (hw : s.waiting = none)
    (hp : s.cfg.cmd.length ≤ s.pc.toNat) : step s = .fault .streamExhausted := by
  simp [step, hc, hf, hw, hp]

/-- Bytes that are no command raise the fault of their error (R80). -/
theorem step_of_fetch_error {e : DecodeError} (hc : s.cfg.wf = true) (hf : s.faulted = false) (hw : s.waiting = none)
    (hp : s.pc.toNat < s.cfg.cmd.length) (hfetch : s.fetch = .error e) :
    step s = .next (s.recordFault (decodeFault e)) := by
  simp [step, hc, hf, hw, Nat.not_le.2 hp, hfetch]

/-- A fetched command runs, and nothing is added around it (R80). -/
theorem step_of_fetch_ok {i : Instr} (hc : s.cfg.wf = true) (hf : s.faulted = false) (hw : s.waiting = none)
    (hp : s.pc.toNat < s.cfg.cmd.length) (hfetch : s.fetch = .ok i) : step s = exec i s := by
  simp [step, hc, hf, hw, Nat.not_le.2 hp, hfetch]

end step

/-! ### The events a command sends -/

/-- The command bytes of R181: those of INIT and SETDINV, an X address of 0 to 84, a band address of 0 to 5. -/
def ListedCommandByte (b : Byte) : Prop :=
  b.toNat ∈ [0x21, 0xCC, 0x04, 0x14, 0x20, 0x0C, 0x0D] ∨
  (0x80 ≤ b.toNat ∧ b.toNat ≤ 0x80 + 84) ∨ (0x40 ≤ b.toNat ∧ b.toNat ≤ 0x40 + 5)

/-- The events that R89, R181 and R230 allow command `i`: the reset for INIT alone, a listed command byte, any data. -/
def Listed (i : Instr) : WireEvent → Prop
  | .rst => i = .init
  | .command b => ListedCommandByte b
  | .data _ => True

/-- From `s` to `t`, events that command `i` may send were appended to the trace, and no others. -/
def AppendsListed (i : Instr) (s t : State) : Prop := ∃ events, t.wire = s.wire ++ events ∧ ∀ e ∈ events, Listed i e

/-- The X address byte of a column, or of one past the last, which a font of width 0 can give (R162, R181). -/
theorem listed_xAddress {i : Instr} {x : Nat} (hx : x ≤ 84) : Listed i (.command (0x80 ||| BitVec.ofNat 8 x)) := by
  have hbyte : ∀ v : Byte, v.toNat ≤ 84 → 0x80 ≤ (0x80 ||| v).toNat ∧ (0x80 ||| v).toNat ≤ 0x80 + 84 := by decide
  exact .inr (.inl (hbyte _ (by rw [BitVec.toNat_ofNat]; omega)))

/-- The band address byte of a band that exists (R181). -/
theorem listed_bandAddress {i : Instr} {row : Nat} (hrow : row ≤ 5) :
    Listed i (.command (0x40 ||| BitVec.ofNat 8 row)) := by
  have hbyte : ∀ v : Byte, v.toNat ≤ 5 → 0x40 ≤ (0x40 ||| v).toNat ∧ (0x40 ||| v).toNat ≤ 0x40 + 5 := by decide
  exact .inr (.inr (hbyte _ (by rw [BitVec.toNat_ofNat]; omega)))

theorem listed_goToEvents {i : Instr} {x row : Byte} (hx : x.toNat ≤ 83) (hrow : row.toNat ≤ 5) :
    ∀ e ∈ goToEvents x row, Listed i e := by
  have hcol := listed_xAddress (i := i) (x := x.toNat) (by omega)
  have hband := listed_bandAddress (i := i) hrow
  rw [BitVec.ofNat_toNat, BitVec.setWidth_eq] at hcol hband
  exact List.forall_mem_cons.2 ⟨hcol, List.forall_mem_singleton.2 hband⟩

theorem listed_map_data {α : Type} {i : Instr} (l : List α) (v : α → Byte) :
    ∀ e ∈ l.map fun a => WireEvent.data (v a), Listed i e :=
  List.forall_mem_map.2 fun _ _ => trivial

theorem listed_initEvents : ∀ e ∈ initEvents, Listed .init e := by
  simp [initEvents, Listed, ListedCommandByte]

/-- A glyph that has passed the guard is addressed at columns up to 84 and bands up to 5 (R155, R156, R162). -/
theorem listed_glyphEvents {i : Instr} (font : List Byte) (ti : Bool) {f : FontTable} {p : Cursor} (c : Byte)
    (hcol : p.x + f.gw ≤ 84) (hband : p.row + f.rows ≤ 5) : ∀ e ∈ glyphEvents font ti f p c, Listed i e := by
  refine List.forall_mem_append.2 ⟨List.forall_mem_flatMap.2 fun r hr => ?_, listed_goToEvents (by decide) (by decide)⟩
  have hr : r < f.rows := List.mem_range.1 hr
  refine List.forall_mem_append.2 ⟨List.forall_mem_cons.2 ⟨listed_bandAddress (by omega), ?_⟩, listed_map_data _ _⟩
  exact List.forall_mem_singleton.2 (listed_xAddress (by omega))

/-- Each touched band of a region is addressed at its first column (R188). -/
theorem listed_regionEvents {i : Instr} (b : PixelBuffer) {xmin ymin xmax ymax : Byte}
    (h : regionOutOfRange xmin ymin xmax ymax = false) : ∀ e ∈ regionEvents b xmin ymin xmax ymax, Listed i e := by
  simp only [regionOutOfRange, Bool.or_eq_false_iff, decide_eq_false_iff_not] at h
  refine List.forall_mem_flatMap.2 fun row hrow => List.forall_mem_append.2 ⟨?_, listed_map_data _ _⟩
  have hrow : row < 6 := List.mem_range.1 (List.takeWhile_subset _ (List.mem_of_mem_filter hrow))
  exact listed_goToEvents (by omega) (by rw [BitVec.toNat_ofNat]; omega)

section appends
variable {i : Instr} {s t : State} {events : List WireEvent}

theorem AppendsListed.of_wire_eq (h : t.wire = s.wire) : AppendsListed i s t := ⟨[], by rw [h, List.append_nil], by simp⟩

theorem AppendsListed.of_sent (he : ∀ e ∈ events, Listed i e) (h : t.wire = s.wire ++ events) : AppendsListed i s t :=
  ⟨events, h, he⟩

/-- The events accepted before a stall are among those offered (R59). -/
theorem acceptedEvents_subset (τ : Transport) (events : List WireEvent) : acceptedEvents τ events ⊆ events := by
  cases τ with
  | ready => exact List.Subset.refl _
  | accepts k => exact List.take_subset k events

theorem AppendsListed.of_stall (he : ∀ e ∈ events, Listed i e)
    (h : t.wire = s.wire ++ acceptedEvents s.transport events) : AppendsListed i s t :=
  ⟨_, h, fun e hmem => he e (acceptedEvents_subset _ _ hmem)⟩

/-- Listed events sent before a rest of the rule that sends nothing (R58, R59). -/
theorem AppendsListed.of_transmit {done : State → Result} (h : s.transmit events done = .next t)
    (he : ∀ e ∈ events, Listed i e) (hdone : ∀ u, done u = .next t → t.wire = u.wire) : AppendsListed i s t := by
  obtain ⟨-, h⟩ | ⟨-, rfl⟩ := State.transmit_next_cases h
  · exact .of_sent he (hdone _ h)
  · exact .of_stall he rfl

/-- A command that tests its operands first appends nothing where it faults (R202). -/
theorem AppendsListed.of_guarded {bad : Bool} {k : FaultCause} {rule : Result}
    (h : (if bad then s.raise k else rule) = .next t)
    (hrule : bad = false → rule = .next t → AppendsListed i s t) : AppendsListed i s t := by
  cases bad with
  | true => cases h; exact .of_wire_eq rfl
  | false => exact hrule rfl h

theorem appendsListed_printch {c : Byte} (h : execPrintch c s = .next t) : AppendsListed (.printch c) s t := by
  unfold execPrintch at h
  split at h
  · cases h; exact .of_wire_eq rfl
  · split at h
    · cases h
    · split at h
      · exact .of_transmit h (listed_map_data _ _) fun u hu => by cases hu; rfl
      · cases h; exact .of_wire_eq rfl

/-- Every glyph that PRINTSTR sends has passed the guard (R155, R158). -/
theorem appendsListed_printstr {x row : Byte} {fbase : Word} {str : List Byte}
    (h : exec (.printstr x row fbase str) s = .next t) : AppendsListed (.printstr x row fbase str) s t := by
  cases hf : parseFont s.cfg.font fbase.toNat with
  | none => cases (exec_printstr_of_none hf).symm.trans h; exact .of_wire_eq rfl
  | some f =>
    obtain ⟨gs, q, hrun⟩ := exists_textRuns f str (startCursor x row)
    have he : ∀ e ∈ (sentGlyphs s.cfg.font s.ti f gs).flatMap Prod.snd, Listed (.printstr x row fbase str) e := by
      rw [sentGlyphs_events]
      refine List.forall_mem_flatMap.2 fun g hg => ?_
      obtain ⟨hcol, hband, -, -⟩ := hrun.emitted rfl g hg
      exact listed_glyphEvents _ _ _ hcol hband
    rw [exec_printstr_of_textRuns hf hrun] at h
    obtain ⟨-, hg⟩ | ⟨-, _, _, _, -, -, -, hg⟩ := State.sendGlyphs_cases (sentGlyphs s.cfg.font s.ti f gs) q _ s
    · cases hg.symm.trans h; exact .of_sent he rfl
    · cases hg.symm.trans h; exact .of_stall he rfl

/-- Whatever a command comes to, the events it has appended are listed ones (R89, R181). -/
theorem exec_appendsListed (h : exec i s = .next t) : AppendsListed i s t := by
  have hsilent : i.opcode ∉ [0x30#8, 0x31#8, 0x40#8, 0x41#8, 0x43#8, 0x44#8, 0x45#8] → AppendsListed i s t :=
    fun hop => .of_wire_eq (by_contra fun hne => hop ((exec_effect h).wire_writer (.inr hne)))
  cases i
  case clear | setpix | getpix | getbyte | setbyte | hline | vline | line | rect | printstrb | settinv =>
    exact hsilent (by simp [Instr.opcode])
  case printch => exact appendsListed_printch h
  case printstr => exact appendsListed_printstr h
  case init =>
    exact .of_transmit (show execInit s = .next t from h) listed_initEvents fun u hu => by cases hu; rfl
  case setdinv flag =>
    refine .of_guarded h fun _ h => .of_transmit (s := s.setDi _) h ?_ fun u hu => by cases hu; rfl
    cases boolOperand flag <;> simp [Listed, ListedCommandByte]
  case goto x row =>
    refine .of_guarded h fun hin h => .of_transmit h ?_ fun u hu => by cases hu; rfl
    simp only [stripOutOfRange, Bool.or_eq_false_iff, decide_eq_false_iff_not] at hin
    exact listed_goToEvents (by omega) (by omega)
  case refresh =>
    have hevents : ∀ e ∈ goToEvents 0 0 ++ dataEvents s.fb.bytes, Listed .refresh e :=
      List.forall_mem_append.2 ⟨listed_goToEvents (by decide) (by decide), listed_map_data _ _⟩
    exact .of_transmit (show execRefresh s = .next t from h) hevents fun u hu => by cases hu; rfl
  case refreshr =>
    exact .of_guarded h fun hin h => .of_transmit h (listed_regionEvents _ hin) fun u hu => by cases hu; rfl

end appends

/-! ### The obligations -/

/-- Settles O6: by the operand form of each mnemonic; only Booleans and strings have something to check (R91). -/
theorem assembledCommandsAreWellFormed : Obligations.AssembledCommandsAreWellFormed := by
  intro m ops i h
  cases m
  case clear | init | refresh | home => rw [asm0_ok h]; rfl
  case printch => obtain ⟨a, rfl⟩ := asm1_ok h; rfl
  case getpix | getbyte | goto | pset | pclr => obtain ⟨a, b, rfl⟩ := asm2_ok h; rfl
  case setbyte | hline | vline => obtain ⟨a, b, c, rfl⟩ := asm3_ok h; rfl
  case line | rect | refreshr => obtain ⟨a, b, c, d, rfl⟩ := asm4_ok h; rfl
  case printstr | printstrb => obtain ⟨a, b, p, str, rfl, hstr⟩ := asmText_ok h; exact hstr
  case setpix => obtain ⟨x, y, on, rfl, hon⟩ := assemble_setpix_ok h; exact hon
  case setdinv | settinv =>
    match ops, h with
    | [_], h => obtain ⟨flag, rfl, hflag⟩ := asmFlag_ok h; exact hflag
    | [], h | _ :: _ :: _, h => cases h

/-- Settles O10: a command runs only where no fault is latched and nothing waits, and it keeps both unless it is stuck. -/
theorem everyStepFaultsPreciselyOrAdvances : Obligations.EveryStepFaultsPreciselyOrAdvances := by
  intro s t h
  obtain ⟨-, hf, hw, -, -⟩ := step_next_cases h
  obtain hfault | ⟨i, hi, hd | hb⟩ := step_outcomes h
  · exact .inl hfault
  · exact .inr (.inl ⟨i, hi, hd.faulted.trans hf, hd.waiting.trans hw, hd.pc⟩)
  · exact .inr (.inr ⟨i, hi, hb.faulted.trans hf, Option.isSome_iff_ne_none.1 hb.waiting, hb.pc, hb.notReady⟩)

/-- Settles O56: what a command has appended is what it has sent, and every event it sends is listed. -/
theorem onlyTheListedCommandBytesAreSent : Obligations.OnlyTheListedCommandBytesAreSent := by
  intro i s t h e he
  obtain ⟨events, hwire, hlisted⟩ := exec_appendsListed h
  rw [hwire, List.drop_left] at he
  have hl : Listed i e := hlisted e he
  exact ⟨fun hrst => by subst hrst; exact hl, fun b hb => by subst hb; exact hl⟩

/-- Settles O7: the branches of the step, its fetch being the decoding of the stream from `pc` on (R54, R80). -/
theorem stepRunsTheDecodedCommand : Obligations.StepRunsTheDecodedCommand := by
  refine fun s => ⟨fun hc => ⟨fun i hf hw hp hi => ?_, fun hf hw hp he => ?_, fun hf hw hp he => ?_, ?_, ?_, ?_⟩, ?_⟩
  · exact step_of_fetch_ok hc hf hw hp hi
  · exact step_of_fetch_error hc hf hw hp he
  · exact step_of_fetch_error hc hf hw hp he
  · exact step_of_faulted hc
  · exact fun hf hw => step_of_isStuck hc hf (Option.isSome_iff_ne_none.2 hw)
  · exact step_of_exhausted hc
  · exact step_of_not_wf

end Sys2Proof.Machine
end

section
/-! SUPPORT. What each PixelBuffer command comes to, one equation for each case of its rule, and that a repeated write
of the PixelBuffer writes nothing new; and the statements about the PixelBuffer commands. -/

namespace Sys2Proof.Machine

/-! ### The operands -/

/-- A number below 256 is the value of its byte. -/
theorem toNat_byte_of_lt {n : Nat} (h : n < 256) : (BitVec.ofNat 8 n).toNat = n := by
  rw [BitVec.toNat_ofNat, Nat.mod_eq_of_lt h]

theorem reservedBitSet_eq_false {on : Byte} (h : on.toNat < 2) : reservedBitSet on = false := by
  rw [← Bool.not_eq_true, reservedBitSet_iff]
  omega

/-- A Boolean operand with its reserved bits clear is the byte of its value (R84). -/
theorem ite_boolOperand_of_lt {on : Byte} (h : on.toNat < 2) : (if boolOperand on then 1 else 0) = on := by
  revert on; decide

/-- The range test of GETBYTE and SETBYTE tests the band and the column apart (R114, R115). -/
theorem stripOutOfRange_iff (row x : Byte) : stripOutOfRange row x = true ↔ row.toNat > 5 ∨ x.toNat > 83 := by
  simp [stripOutOfRange]

theorem stripOutOfRange_eq_false {row x : Byte} (hrow : row.toNat ≤ 5) (hx : x.toNat ≤ 83) :
    stripOutOfRange row x = false := by
  rw [← Bool.not_eq_true, stripOutOfRange_iff]
  omega

/-! ### The pixel primitive -/

/-- A bit position is one of the eight of a byte (R10). -/
theorem bitPos_lt (y : Nat) : bitPos y < 8 := Nat.mod_lt y (by omega)

@[simp] theorem PixelBuffer.pixel_setPixel_same (b : PixelBuffer) (x y : Nat) (on : Bool) :
    (b.setPixel x y on).pixel (min x 83) (min y 47) = on := by
  rw [PixelBuffer.pixel_setPixel _ _ _ _ (min_le_right _ _), if_pos ⟨rfl, rfl⟩]

/-- Bit for bit, the byte of the clamped pixel after the pixel primitive (R110). -/
theorem PixelBuffer.getLsbD_read_setPixel (b : PixelBuffer) (x y k : Nat) (on : Bool) :
    ((b.setPixel x y on).read (addr (min x 83) (min y 47))).getLsbD k =
      if k = bitPos (min y 47) then on else (b.read (addr (min x 83) (min y 47))).getLsbD k := by
  simp only [PixelBuffer.setPixel, clampX, clampY, PixelBuffer.read_writeBit, if_true]
  exact getLsbD_withBit _ _ _ _ (bitPos_lt _)

/-- The pixel primitive clamps its own coordinates, so clamping them before makes no difference (R110). -/
theorem PixelBuffer.setPixel_min (b : PixelBuffer) (x y : Nat) (on : Bool) :
    b.setPixel (min x 83) (min y 47) on = b.setPixel x y on := by
  simp only [PixelBuffer.setPixel, clampX, clampY, min_assoc, min_self]

/-! ### Writing twice is writing once -/

theorem PixelBuffer.write_write (b : PixelBuffer) (a : Nat) (v w : Byte) : (b.write a v).write a w = b.write a w := by
  simp only [PixelBuffer.write, Memory.insert_insert]

theorem PixelBuffer.setPixel_setPixel (b : PixelBuffer) (x y : Nat) (on : Bool) :
    (b.setPixel x y on).setPixel x y on = b.setPixel x y on := by
  simp only [PixelBuffer.setPixel, PixelBuffer.writeBit, PixelBuffer.read_write_same, PixelBuffer.write_write,
    withBit_withBit _ _ _ _ (bitPos_lt _)]

theorem PixelBuffer.clear_clear (b : PixelBuffer) : b.clear.clear = b.clear := rfl

/-- A command whose every next state holds the buffer that `f` makes, `f` being idempotent, writes nothing new when it
is repeated (R116). -/
theorem fb_of_exec_exec {i : Instr} {f : PixelBuffer → PixelBuffer} (hidem : ∀ b, f (f b) = f b)
    (hfb : ∀ {s t : State}, exec i s = .next t → t.fb = f s.fb) {s t u : State} (ht : exec i s = .next t)
    (hu : exec i t = .next u) : u.fb = t.fb := by
  rw [hfb hu, hfb ht, hidem]

/-! ### The commands, case by case -/

section commands
variable (s : State) {row x y on : Byte}

theorem exec_clear : exec .clear s = .next ((s.setFb s.fb.clear).advance 1) := rfl

theorem exec_setpix_of_lt (h : on.toNat < 2) : exec (.setpix x y on) s =
    .next ((s.setFb (s.fb.setPixel x.toNat y.toNat (boolOperand on))).advance 4) :=
  if_neg (by simp [reservedBitSet_eq_false h])

theorem exec_setpix_of_le (h : 2 ≤ on.toNat) : exec (.setpix x y on) s = .next (s.recordFault .operandRange) :=
  if_pos ((reservedBitSet_iff on).2 h)

theorem exec_getpix : exec (.getpix x y) s =
    .next ((s.setRes (if s.fb.pixel (min x.toNat 83) (min y.toNat 47) then 1 else 0)).advance 3) := by
  have hbyte : ∀ p : Bool, BitVec.ofNat 8 p.toNat = if p then 1 else 0 := by decide
  simp only [exec, execGetpix, clampX, clampY, hbyte]

theorem exec_getbyte_of_le (hrow : row.toNat ≤ 5) (hx : x.toNat ≤ 83) : exec (.getbyte row x) s =
    .next ((s.setRes (s.fb.read (bAddr row.toNat x.toNat))).advance 3) :=
  if_neg (by simp [stripOutOfRange_eq_false hrow hx])

theorem exec_getbyte_of_gt (h : row.toNat > 5 ∨ x.toNat > 83) :
    exec (.getbyte row x) s = .next (s.recordFault .operandRange) :=
  if_pos ((stripOutOfRange_iff row x).2 h)

theorem exec_setbyte_of_le {value : Byte} (hrow : row.toNat ≤ 5) (hx : x.toNat ≤ 83) :
    exec (.setbyte row x value) s = .next ((s.setFb (s.fb.write (bAddr row.toNat x.toNat) value)).advance 4) :=
  if_neg (by simp [stripOutOfRange_eq_false hrow hx])

theorem exec_setbyte_of_gt {value : Byte} (h : row.toNat > 5 ∨ x.toNat > 83) :
    exec (.setbyte row x value) s = .next (s.recordFault .operandRange) :=
  if_pos ((stripOutOfRange_iff row x).2 h)

end commands

/-! ### What a command reads after another, and the clamp (R116 (a), (c), (d), (e)) -/

section laws
variable {x y on row v : Byte} (s : State)

/-- Read after write (R116 (a)). -/
theorem exec_getpix_setpix (h : on.toNat < 2) :
    ∃ t u, exec (.setpix x y on) s = .next t ∧ exec (.getpix x y) t = .next u ∧ u.res = on := by
  refine ⟨_, _, exec_setpix_of_lt s h, exec_getpix _, ?_⟩
  simp only [State.advance_res, State.setRes_res, State.advance_fb, State.setFb_fb, PixelBuffer.pixel_setPixel_same]
  exact ite_boolOperand_of_lt h

/-- SETPIX with clamped coordinates (R116 (c)). -/
theorem exec_setpix_clamped (h : on.toNat < 2) :
    exec (.setpix (BitVec.ofNat 8 (min x.toNat 83)) (BitVec.ofNat 8 (min y.toNat 47)) on) s =
      exec (.setpix x y on) s := by
  rw [exec_setpix_of_lt s h, exec_setpix_of_lt s h, toNat_byte_of_lt (by omega), toNat_byte_of_lt (by omega),
    PixelBuffer.setPixel_min]

/-- Byte read after byte write (R116 (d)). -/
theorem exec_getbyte_setbyte (hrow : row.toNat ≤ 5) (hx : x.toNat ≤ 83) :
    ∃ t u, exec (.setbyte row x v) s = .next t ∧ exec (.getbyte row x) t = .next u ∧ u.res = v :=
  ⟨_, _, exec_setbyte_of_le s hrow hx, exec_getbyte_of_le _ hrow hx, PixelBuffer.read_write_same _ _ _⟩

/-- The pixel and byte views of the buffer (R116 (e)). -/
theorem exec_getpix_getbyte (hx : x.toNat ≤ 83) (hy : y.toNat ≤ 47) :
    ∃ t u, exec (.getpix x y) s = .next t ∧ exec (.getbyte (BitVec.ofNat 8 (y.toNat / 8)) x) s = .next u ∧
      t.res = if u.res.getLsbD (y.toNat % 8) then 1 else 0 := by
  have hband : (BitVec.ofNat 8 (y.toNat / 8)).toNat = y.toNat / 8 := toNat_byte_of_lt (by omega)
  have haddr : bAddr (y.toNat / 8) x.toNat = addr x.toNat y.toNat := Nat.add_comm _ _
  refine ⟨_, _, exec_getpix s, exec_getbyte_of_le s (by omega) hx, ?_⟩
  simp only [State.advance_res, State.setRes_res, hband, haddr, min_eq_left hx, min_eq_left hy]
  rfl

end laws

/-! ### Repeating a command that writes the buffer (R116 (f)) -/

section repetition
variable {x y on row v : Byte} {s t u : State}

theorem fb_of_setpix_setpix (h : on.toNat < 2) (ht : exec (.setpix x y on) s = .next t)
    (hu : exec (.setpix x y on) t = .next u) : u.fb = t.fb :=
  fb_of_exec_exec (f := fun b => b.setPixel x.toNat y.toNat (boolOperand on))
    (fun b => b.setPixel_setPixel _ _ _) (fun ht => by cases (exec_setpix_of_lt _ h).symm.trans ht; rfl) ht hu

/-- In range the byte is written twice; out of range the buffer is never written (R115, R202). -/
theorem fb_of_setbyte_setbyte (ht : exec (.setbyte row x v) s = .next t)
    (hu : exec (.setbyte row x v) t = .next u) : u.fb = t.fb := by
  by_cases h : row.toNat > 5 ∨ x.toNat > 83
  · exact fb_of_exec_exec (f := id) (fun _ => rfl)
      (fun ht => by cases (exec_setbyte_of_gt _ h).symm.trans ht; rfl) ht hu
  · exact fb_of_exec_exec (f := fun b => b.write (bAddr row.toNat x.toNat) v) (fun b => b.write_write _ _ _)
      (fun ht => by cases (exec_setbyte_of_le _ (by omega) (by omega)).symm.trans ht; rfl) ht hu

theorem fb_of_clear_clear (ht : exec .clear s = .next t) (hu : exec .clear t = .next u) :
    u.fb = t.fb :=
  fb_of_exec_exec (f := PixelBuffer.clear) PixelBuffer.clear_clear
    (fun ht => by cases (exec_clear _).symm.trans ht; rfl) ht hu

end repetition

/-! ### The obligations -/

/-- Settles O24: where `on` is a Boolean the command is the pixel primitive. -/
theorem setpixWritesTheClampedPixel : Obligations.SetpixWritesTheClampedPixel := by
  intro s x y on
  refine ⟨fun _ => rfl, fun h => ⟨_, exec_setpix_of_lt s h, rfl, fun px py hpx _ => ?_, fun a ha => ?_⟩,
    exec_setpix_of_le s⟩
  · rw [← boolOperand_of_lt h]
    exact s.fb.pixel_setPixel x.toNat y.toNat _ (Nat.le_of_lt_succ hpx)
  · exact s.fb.read_setPixel_other x.toNat y.toNat _ ha

/-- Settles O28, law by law; the frame of SETPIX is that of the pixel primitive, byte by byte and then bit by bit. -/
theorem pixelBufferFamilyLaws : Obligations.PixelBufferFamilyLaws := by
  intro s x y on row v hon
  refine ⟨exec_getpix_setpix s hon, ⟨_, exec_setpix_of_lt s hon, fun a ha => ?_, fun k _ hk => ?_⟩,
    (exec_setpix_clamped s hon).symm, exec_getbyte_setbyte s, exec_getpix_getbyte s, ?_⟩
  · exact s.fb.read_setPixel_other x.toNat y.toNat _ ha
  · exact (s.fb.getLsbD_read_setPixel x.toNat y.toNat k _).trans (if_neg hk)
  · simp only [List.forall_mem_cons, List.not_mem_nil, false_implies, implies_true, and_true]
    exact ⟨fun _ _ => fb_of_setpix_setpix hon, fun _ _ => fb_of_setbyte_setbyte, fun _ _ => fb_of_clear_clear⟩

/-- Settles O23, by the fill of R111. -/
theorem clearZeroesEveryByte : Obligations.ClearZeroesEveryByte :=
  fun s => ⟨fun _ => rfl, _, exec_clear s, fun _ ha => s.fb.read_clear ha, rfl⟩

/-- Settles O25: the pixel is the bit of R52. -/
theorem getpixReadsTheClampedPixel : Obligations.GetpixReadsTheClampedPixel :=
  fun s _ _ => ⟨fun _ => rfl, exec_getpix s⟩

/-- Settles O26, by the two cases of the range test. -/
theorem getbyteReadsAStripOrFaults : Obligations.GetbyteReadsAStripOrFaults :=
  fun s _ _ => ⟨fun _ => rfl, exec_getbyte_of_le s, exec_getbyte_of_gt s⟩

/-- Settles O27, by the two cases of the range test and the byte's read after its write. -/
theorem setbyteWritesAStripOrFaults : Obligations.SetbyteWritesAStripOrFaults :=
  fun s _ _ value => ⟨fun _ => rfl,
    fun hrow hx => ⟨_, exec_setbyte_of_le s hrow hx, rfl, s.fb.read_write_same _ _,
      fun _ ha => s.fb.read_write_other value ha⟩,
    exec_setbyte_of_gt s⟩

end Sys2Proof.Machine
end

section
/-! SUPPORT. What a drawing command turns on, as one relation between the buffers before and after it; the pixels of
each form of LINE; and the statements about the Rasterizer. -/

namespace Sys2Proof.Machine

/-! ### Drawing: pixels turned on, and every other byte kept -/

/-- `c` is `b` with the existing pixels of `P` turned on, and no byte without such a pixel is written (R52, R57). -/
structure Draws (P : Nat → Nat → Prop) (b c : PixelBuffer) : Prop where
  /-- A pixel is on exactly if it was on or is drawn. -/
  pixel : ∀ {px py : Nat}, px < 84 → py < 48 → (c.pixel px py = true ↔ b.pixel px py = true ∨ P px py)
  /-- A byte that holds no drawn pixel reads as before. -/
  read : ∀ {a : Nat}, (∀ px py, px < 84 → py < 48 → P px py → a ≠ addr px py) → c.read a = b.read a

section draws
variable {P Q : Nat → Nat → Prop} {b c d : PixelBuffer}

/-- Drawing is about existing pixels alone. -/
theorem Draws.congr (h : Draws P b c) (hPQ : ∀ px py, px < 84 → py < 48 → (P px py ↔ Q px py)) : Draws Q b c where
  pixel hpx hpy := (h.pixel hpx hpy).trans (or_congr_right (hPQ _ _ hpx hpy))
  read ha := h.read fun px py hpx hpy hP => ha px py hpx hpy ((hPQ px py hpx hpy).1 hP)

/-- Two figures drawn one after the other are the union of their pixels. -/
theorem Draws.trans (h : Draws P b c) (h' : Draws Q c d) : Draws (fun px py => P px py ∨ Q px py) b d where
  pixel hpx hpy := by rw [h'.pixel hpx hpy, h.pixel hpx hpy, or_assoc]
  read ha := by
    rw [h'.read fun px py hpx hpy hQ => ha px py hpx hpy (.inr hQ),
      h.read fun px py hpx hpy hP => ha px py hpx hpy (.inl hP)]

/-- Bit `k` of the byte at `a` is a pixel, where the byte exists (R52). -/
theorem PixelBuffer.getLsbD_read (b : PixelBuffer) (a : Nat) {k : Nat} (hk : k < 8) :
    (b.read a).getLsbD k = b.pixel (a % 84) (a / 84 * 8 + k) := by
  have haddr : addr (a % 84) (a / 84 * 8 + k) = a := by simp only [addr, band]; omega
  have hbit : bitPos (a / 84 * 8 + k) = k := by simp only [bitPos]; omega
  rw [PixelBuffer.pixel, haddr, hbit]

/-- Drawing only sets bits: the new byte is the old one `|` a mask (R135 (c)). A byte that exists gains the bits that
are drawn; any other is not written. -/
theorem Draws.exists_or (h : Draws P b c) (a : Nat) : ∃ m, c.read a = b.read a ||| m := by
  by_cases ha : a < 504
  · refine ⟨c.read a, byte_ext fun k hk => ?_⟩
    have hpix := h.pixel (px := a % 84) (py := a / 84 * 8 + k) (by omega) (by omega)
    rw [BitVec.getLsbD_or, PixelBuffer.getLsbD_read _ _ hk, PixelBuffer.getLsbD_read _ _ hk, Bool.eq_iff_iff,
      Bool.or_eq_true, hpix]
    tauto
  · refine ⟨0#8, ?_⟩
    rw [BitVec.or_zero, h.read (a := a) fun px py hpx hpy _ hpa => ha (hpa ▸ addr_lt (by omega) (by omega))]

/-- A plotted list of points turns on its points, each clamped (R110). -/
theorem draws_plot (points : List (Nat × Nat)) (b : PixelBuffer) :
    Draws (fun px py => ∃ p ∈ points, px = min p.1 83 ∧ py = min p.2 47) b (b.plot points) where
  pixel hpx _ := by rw [b.pixel_plot points (by omega), Bool.or_eq_true, decide_eq_true_iff]
  read ha := b.read_plot_other points fun p hp => ha _ _ (by omega) (by omega) ⟨p, hp, rfl, rfl⟩

/-- `HLine` turns on the existing pixels of its run (R130). -/
theorem draws_hLine (x y length : Nat) (b : PixelBuffer) :
    Draws (fun px py => py = y ∧ x ≤ px ∧ px < x + length) b (hLine x y length b) where
  pixel hpx hpy := by
    rw [pixel_hLine b x y length (by omega), Bool.or_eq_true, decide_eq_true_iff]
    refine or_congr_right ?_
    omega
  read ha := read_hLine_other b x y length fun ⟨hy, px, hx, hlt, hpx, hpa⟩ =>
    ha px y (by omega) (by omega) ⟨rfl, hx, hlt⟩ hpa

/-- `VLine` turns on the pixels of its clamped column (R132). -/
theorem draws_vLine (x y length : Nat) (b : PixelBuffer) :
    Draws (fun px py => px = min x 83 ∧ min y 47 ≤ py ∧ py ≤ min (y + length) 47) b (vLine x y length b) where
  pixel hpx _ := by rw [pixel_vLine b x y length (by omega), Bool.or_eq_true, decide_eq_true_iff]
  read ha := read_vLine_other b x y length fun i hi =>
    ha _ _ (by omega) (by omega) ⟨rfl, by omega, by omega⟩

end draws

/-! ### The pixels of LINE -/

/-- The pixels that `Line(x1, y1, x2, y2)` turns on (R133): the run of a horizontal line, the clamped column of a
vertical one, else the clamped points of the line engine from the end with the smaller `y`. -/
def OnLine (x1 y1 x2 y2 px py : Nat) : Prop :=
  if y1 = y2 then py = y1 ∧ min x1 x2 ≤ px ∧ px ≤ max x1 x2
  else if x1 = x2 then px = min x1 83 ∧ min (min y1 y2) 47 ≤ py ∧ py ≤ max y1 y2
  else if y1 < y2 then ∃ p ∈ lineEnginePoints x1 y1 x2 y2, px = min p.1 83 ∧ py = min p.2 47
  else ∃ p ∈ lineEnginePoints x2 y2 x1 y1, px = min p.1 83 ∧ py = min p.2 47

section onLine
variable {x1 y1 x2 y2 px py : Nat}

theorem onLine_horizontal (x1 x2 y px py : Nat) :
    OnLine x1 y x2 y px py ↔ py = y ∧ min x1 x2 ≤ px ∧ px ≤ max x1 x2 := by
  rw [OnLine, if_pos rfl]

theorem onLine_vertical {x : Nat} (hy : y1 ≠ y2) :
    OnLine x y1 x y2 px py ↔ px = min x 83 ∧ min (min y1 y2) 47 ≤ py ∧ py ≤ max y1 y2 := by
  rw [OnLine, if_neg hy, if_pos rfl]

theorem onLine_sloped (hx : x1 ≠ x2) (hy : y1 < y2) :
    OnLine x1 y1 x2 y2 px py ↔ ∃ p ∈ lineEnginePoints x1 y1 x2 y2, px = min p.1 83 ∧ py = min p.2 47 := by
  rw [OnLine, if_neg hy.ne, if_neg hx, if_pos hy]

theorem onLine_sloped_up (hx : x1 ≠ x2) (hy : y2 < y1) :
    OnLine x1 y1 x2 y2 px py ↔ ∃ p ∈ lineEnginePoints x2 y2 x1 y1, px = min p.1 83 ∧ py = min p.2 47 := by
  rw [OnLine, if_neg hy.ne', if_neg hx, if_neg hy.not_gt]

end onLine

/-- `Line` turns on its pixels, in each of its forms (R133). -/
theorem draws_drawLine (x1 y1 x2 y2 : Nat) (b : PixelBuffer) :
    Draws (OnLine x1 y1 x2 y2) b (drawLine x1 y1 x2 y2 b) := by
  by_cases hy : y1 = y2
  · subst hy
    rw [drawLine_horizontal]
    refine (draws_hLine _ _ _ _).congr fun px py _ _ => ?_
    rw [onLine_horizontal]
    omega
  by_cases hx : x1 = x2
  · subst hx
    rw [drawLine_vertical _ _ _ _ hy]
    refine (draws_vLine _ _ _ _).congr fun px py _ _ => ?_
    rw [onLine_vertical hy]
    omega
  rw [drawLine_sloped _ _ _ _ _ hx hy]
  split
  case isTrue hlt => exact (draws_plot _ b).congr fun px py _ _ => (onLine_sloped hx hlt).symm
  case isFalse hge => exact (draws_plot _ b).congr fun px py _ _ => (onLine_sloped_up hx (by omega)).symm

/-- The canonical form depends only on the unordered pair of endpoints (R135 (a)). -/
theorem canonicalEndpoints_comm (x1 y1 x2 y2 : Nat) :
    canonicalEndpoints x1 y1 x2 y2 = canonicalEndpoints x2 y2 x1 y1 := by
  rw [canonicalEndpoints_eq, canonicalEndpoints_eq]
  by_cases heq : y1 = y2 ∧ x1 = x2
  · obtain ⟨rfl, rfl⟩ := heq
    rfl
  by_cases hfirst : y1 < y2 ∨ (y1 = y2 ∧ x1 ≤ x2)
  · rw [if_pos hfirst, if_neg (by omega)]
  · rw [if_neg hfirst, if_pos (by omega)]

theorem drawLine_comm (x1 y1 x2 y2 : Nat) (b : PixelBuffer) : drawLine x1 y1 x2 y2 b = drawLine x2 y2 x1 y1 b := by
  rw [drawLine, drawLine, canonicalEndpoints_comm]

/-! ### The line engine: the minor coordinate -/

/-- The minor coordinate at step `k` of `n` on the way from `a` to `b`: `a + k * (b - a) / n`, rounded (R134). -/
def minorCoordinate (a b n k : Nat) : Int := a + (2 * k * ((b : Int) - a) + n) / (2 * n)

section minor
variable {a b n k : Nat}

/-- The rounding of R134 is `floor(v + 1/2)` of the exact value `v`, multiplied out. -/
theorem eq_minorCoordinate_iff (hn : 0 < n) (Y : Int) :
    Y = minorCoordinate a b n k ↔
      2 * n * Y ≤ 2 * n * a + 2 * k * ((b : Int) - a) + n ∧
      2 * n * a + 2 * k * ((b : Int) - a) + n < 2 * n * (Y + 1) := by
  have hn' : (0 : Int) < 2 * n := by omega
  have hfloor : Y = minorCoordinate a b n k ↔
      Y - a ≤ (2 * k * ((b : Int) - a) + n) / (2 * n) ∧ (2 * k * ((b : Int) - a) + n) / (2 * n) < Y - a + 1 := by
    simp only [minorCoordinate]; omega
  rw [hfloor, Int.le_ediv_iff_mul_le hn', Int.ediv_lt_iff_lt_mul hn']
  refine and_congr ⟨fun hlo => ?_, fun hlo => ?_⟩ ⟨fun hhi => ?_, fun hhi => ?_⟩ <;> linarith

/-- No minor coordinate is negative: the exact value lies between `a` and `b`. -/
theorem minorCoordinate_nonneg (hn : 0 < n) (hk : k ≤ n) : 0 ≤ minorCoordinate a b n k := by
  have hbetween : (0 : Int) ≤ 2 * a * (n - k) + 2 * k * b :=
    add_nonneg (mul_nonneg (by positivity) (by omega)) (by positivity)
  have hfloor : -(a : Int) ≤ (2 * k * ((b : Int) - a) + n) / (2 * n) :=
    (Int.le_ediv_iff_mul_le (by omega)).2 (by linarith)
  simp only [minorCoordinate]
  omega

theorem minorCoordinate_first (hn : 0 < n) : minorCoordinate a b n 0 = a :=
  ((eq_minorCoordinate_iff hn _).2 (by constructor <;> push_cast <;> linarith)).symm

theorem minorCoordinate_last (hn : 0 < n) : minorCoordinate a b n n = b :=
  ((eq_minorCoordinate_iff hn _).2 (by constructor <;> linarith)).symm

end minor

/-! ### The line engine: its points -/

section points
variable {ax ay bx by' : Nat}

/-- No major x coordinate is negative: it lies between the ends. -/
theorem majorX_nonneg {k : Nat} (hk : k ≤ ((bx : Int) - ax).natAbs) : 0 ≤ ax + k * ((bx : Int) - ax).sign := by
  obtain hlt | heq | hgt := lt_trichotomy ((bx : Int) - ax) 0
  · rw [Int.sign_eq_neg_one_of_neg hlt]; omega
  · rw [heq]; simp
  · rw [Int.sign_eq_one_of_pos hgt]; omega

/-- A point given by two integers that are not negative. -/
theorem toNat_pair_eq_iff {X Y : Int} (hX : 0 ≤ X) (hY : 0 ≤ Y) (p : Nat × Nat) :
    (X.toNat, Y.toNat) = p ↔ (p.1 : Int) = X ∧ (p.2 : Int) = Y := by
  rw [Prod.ext_iff]
  simp only
  omega

/-- The points along a major x axis (R134). -/
theorem mem_lineEnginePoints_xMajor (h : ((by' : Int) - ay).natAbs < ((bx : Int) - ax).natAbs) (p : Nat × Nat) :
    p ∈ lineEnginePoints ax ay bx by' ↔ ∃ k ≤ ((bx : Int) - ax).natAbs,
      (p.1 : Int) = ax + k * ((bx : Int) - ax).sign ∧
      (p.2 : Int) = minorCoordinate ay by' ((bx : Int) - ax).natAbs k := by
  simp only [lineEnginePoints, gt_iff_lt, if_pos h, List.mem_map, List.mem_range, Nat.lt_succ_iff]
  refine exists_congr fun k => and_congr_right fun hk => ?_
  exact toNat_pair_eq_iff (majorX_nonneg hk) (minorCoordinate_nonneg (by omega) hk) p

/-- The points along a major y axis, a tie among them (R134). -/
theorem mem_lineEnginePoints_yMajor (hy : ay < by') (h : ((bx : Int) - ax).natAbs ≤ by' - ay) (p : Nat × Nat) :
    p ∈ lineEnginePoints ax ay bx by' ↔ ∃ k ≤ by' - ay,
      (p.1 : Int) = minorCoordinate ax bx (by' - ay) k ∧ (p.2 : Int) = ay + k := by
  have hn : ((by' : Int) - ay).natAbs = by' - ay := by omega
  have hdy : (by' : Int) - ay = (by' - ay : Nat) := by omega
  simp only [lineEnginePoints, gt_iff_lt, hn, if_neg h.not_gt, List.mem_map, List.mem_range, Nat.lt_succ_iff]
  refine exists_congr fun k => and_congr_right fun hk => ?_
  rw [yMajorPoint, hdy]
  exact toNat_pair_eq_iff (minorCoordinate_nonneg (by omega) hk) (by omega) p

/-- The engine plots the endpoint it starts from (R135 (b)). -/
theorem first_mem_lineEnginePoints (hy : ay < by') : (ax, ay) ∈ lineEnginePoints ax ay bx by' := by
  by_cases hmajor : ((by' : Int) - ay).natAbs < ((bx : Int) - ax).natAbs
  · exact (mem_lineEnginePoints_xMajor hmajor _).2
      ⟨0, Nat.zero_le _, by simp, (minorCoordinate_first (by omega)).symm⟩
  · exact (mem_lineEnginePoints_yMajor hy (by omega) _).2
      ⟨0, Nat.zero_le _, (minorCoordinate_first (by omega)).symm, by simp⟩

/-- The engine plots the endpoint it runs to (R135 (b)). -/
theorem last_mem_lineEnginePoints (hy : ay < by') : (bx, by') ∈ lineEnginePoints ax ay bx by' := by
  by_cases hmajor : ((by' : Int) - ay).natAbs < ((bx : Int) - ax).natAbs
  · have hend : ((bx : Int) - ax).natAbs * ((bx : Int) - ax).sign = (bx : Int) - ax := by
      rw [mul_comm, Int.sign_mul_natAbs]
    exact (mem_lineEnginePoints_xMajor hmajor _).2
      ⟨_, le_rfl, by rw [hend]; omega, (minorCoordinate_last (by omega)).symm⟩
  · exact (mem_lineEnginePoints_yMajor hy (by omega) _).2
      ⟨_, le_rfl, (minorCoordinate_last (by omega)).symm, by simp only; omega⟩

/-- The engine sets one pixel more than the major axis is long (R135 (d)). -/
theorem length_lineEnginePoints (ax ay bx by' : Nat) : (lineEnginePoints ax ay bx by').length =
    max ((bx : Int) - ax).natAbs ((by' : Int) - ay).natAbs + 1 := by
  simp only [lineEnginePoints]
  split <;> simp only [List.length_map, List.length_range] <;> omega

/-- Step `k` of the line engine is the point `(X, Y)`: the major coordinate exact, the minor one the integer that
two inequalities pin down (R134). -/
def PlottedAt (ax ay bx by' k X Y : Nat) : Prop :=
  let dx : Int := (bx : Int) - ax
  let dy : Int := (by' : Int) - ay
  if |dx| > dy then
    (k : Int) ≤ |dx| ∧ (X : Int) = ax + k * dx.sign ∧
    2 * |dx| * Y ≤ 2 * |dx| * ay + 2 * k * dy + |dx| ∧
    2 * |dx| * ay + 2 * k * dy + |dx| < 2 * |dx| * (Y + 1)
  else
    (k : Int) ≤ dy ∧ (Y : Int) = ay + k ∧
    2 * dy * X ≤ 2 * dy * ax + 2 * k * dx + dy ∧
    2 * dy * ax + 2 * k * dx + dy < 2 * dy * (X + 1)

/-- The engine's points are those of R134, on either axis. -/
theorem mem_lineEnginePoints_iff (hy : ay < by') (p : Nat × Nat) :
    p ∈ lineEnginePoints ax ay bx by' ↔ ∃ k, PlottedAt ax ay bx by' k p.1 p.2 := by
  simp only [PlottedAt, Int.abs_eq_natAbs]
  by_cases hmajor : ((by' : Int) - ay).natAbs < ((bx : Int) - ax).natAbs
  · rw [mem_lineEnginePoints_xMajor hmajor]
    refine exists_congr fun k => ?_
    rw [if_pos (by omega), eq_minorCoordinate_iff (by omega), Nat.cast_le]
  · have hdy : (by' : Int) - ay = (by' - ay : Nat) := by omega
    rw [mem_lineEnginePoints_yMajor hy (by omega)]
    refine exists_congr fun k => ?_
    rw [if_neg (by omega), eq_minorCoordinate_iff (by omega), hdy, Nat.cast_le, and_comm (a := (p.2 : Int) = _)]

/-- The pixels of a sloped line, step by step (R134). -/
theorem onLine_sloped_iff {px py : Nat} (hx : ax ≠ bx) (hy : ay < by') : OnLine ax ay bx by' px py ↔
    ∃ k X Y, px = min X 83 ∧ py = min Y 47 ∧ PlottedAt ax ay bx by' k X Y := by
  simp only [onLine_sloped hx hy, Prod.exists, mem_lineEnginePoints_iff hy]
  constructor
  · rintro ⟨X, Y, ⟨k, hk⟩, hpx, hpy⟩
    exact ⟨k, X, Y, hpx, hpy, hk⟩
  · rintro ⟨k, X, Y, hpx, hpy, hk⟩
    exact ⟨X, Y, ⟨k, hk⟩, hpx, hpy⟩

/-- The first endpoint, clamped, is on the line, but for a horizontal line whose left end is out of bounds
(R135 (b)). -/
theorem onLine_left {x1 y1 x2 y2 : Nat} (h : ¬ (y1 = y2 ∧ (min x1 x2 > 83 ∨ y1 > 47))) :
    OnLine x1 y1 x2 y2 (min x1 83) (min y1 47) := by
  by_cases hy : y1 = y2
  · subst hy
    rw [onLine_horizontal]
    omega
  by_cases hx : x1 = x2
  · subst hx
    rw [onLine_vertical hy]
    omega
  obtain hlt | hgt := lt_or_gt_of_ne hy
  · exact (onLine_sloped hx hlt).2 ⟨_, first_mem_lineEnginePoints hlt, rfl, rfl⟩
  · exact (onLine_sloped_up hx hgt).2 ⟨_, last_mem_lineEnginePoints hgt, rfl, rfl⟩

end points

/-- The first endpoint of a line, clamped, is on when the line is drawn (R135 (b)). -/
theorem pixel_drawLine_left {x1 y1 x2 y2 : Nat} (b : PixelBuffer)
    (h : ¬ (y1 = y2 ∧ (min x1 x2 > 83 ∨ y1 > 47))) :
    (drawLine x1 y1 x2 y2 b).pixel (min x1 83) (min y1 47) = true :=
  ((draws_drawLine x1 y1 x2 y2 b).pixel (by omega) (by omega)).2 (.inr (onLine_left h))

/-! ### The outline of RECT -/

/-- The four sides are the outline (R136); with equal rows the vertical sides are ends of the horizontal one. -/
theorem onLine_sides_iff (x1 y1 x2 y2 : Byte) (px py : Nat) :
    (((OnLine x1.toNat y1.toNat x2.toNat y1.toNat px py ∨ OnLine x1.toNat y2.toNat x2.toNat y2.toNat px py) ∨
      OnLine x1.toNat y1.toNat x1.toNat y2.toNat px py) ∨ OnLine x2.toNat y1.toNat x2.toNat y2.toNat px py) ↔
      onOutline x1 y1 x2 y2 px py := by
  simp only [onLine_horizontal, onOutline]
  by_cases hy : y1 = y2
  · subst hy
    simp only [onLine_horizontal, ne_eq, not_true_eq_false, false_and, or_false]
    omega
  · simp only [onLine_vertical (BitVec.toNat_ne.1 hy), ne_eq, hy, not_false_eq_true, true_and]
    omega

/-- RECT draws its outline (R136). -/
theorem draws_drawRect (x1 y1 x2 y2 : Byte) (b : PixelBuffer) :
    Draws (onOutline x1 y1 x2 y2) b (drawRect x1.toNat y1.toNat x2.toNat y2.toNat b) :=
  ((((draws_drawLine _ _ _ _ _).trans (draws_drawLine _ _ _ _ _)).trans (draws_drawLine _ _ _ _ _)).trans
    (draws_drawLine _ _ _ _ _)).congr fun px py _ _ => onLine_sides_iff x1 y1 x2 y2 px py

/-! ### The commands -/

section commands
variable (s : State) {x y length x1 y1 x2 y2 : Byte}

theorem exec_hline : exec (.hline x y length) s =
    .next ((s.setFb (hLine x.toNat y.toNat length.toNat s.fb)).advance 4) := rfl

theorem exec_vline : exec (.vline x y length) s =
    .next ((s.setFb (vLine x.toNat y.toNat length.toNat s.fb)).advance 4) := rfl

theorem exec_line : exec (.line x1 y1 x2 y2) s =
    .next ((s.setFb (drawLine x1.toNat y1.toNat x2.toNat y2.toNat s.fb)).advance 5) := rfl

theorem exec_rect : exec (.rect x1 y1 x2 y2) s =
    .next ((s.setFb (drawRect x1.toNat y1.toNat x2.toNat y2.toNat s.fb)).advance 5) := rfl

end commands

/-! ### The obligations -/

/-- Settles O29, by the pixels of the run and its frame. -/
theorem hlineDrawsTheClampedRun : Obligations.HlineDrawsTheClampedRun :=
  fun s x y length => ⟨fun _ => rfl, _, exec_hline s, rfl,
    fun _ _ hpx _ => pixel_hLine s.fb x.toNat y.toNat length.toNat (Nat.le_of_lt_succ hpx),
    fun _ ha => read_hLine_other s.fb x.toNat y.toNat length.toNat ha⟩

/-- Settles O30, by the pixels of the clamped column and its frame. -/
theorem vlineDrawsTheClampedPoints : Obligations.VlineDrawsTheClampedPoints :=
  fun s x y length => ⟨fun _ => rfl, _, exec_vline s, rfl,
    fun _ _ hpx _ => pixel_vLine s.fb x.toNat y.toNat length.toNat (Nat.le_of_lt_succ hpx),
    fun _ ha => read_vLine_other s.fb x.toNat y.toNat length.toNat ha⟩

/-- Settles O31, by the three forms of `Line`. -/
theorem lineDispatchesOnItsDirection : Obligations.LineDispatchesOnItsDirection := by
  intro s x1 y1 x2 y2
  refine ⟨fun _ => rfl, ?_⟩
  rw [exec_line]
  by_cases hy : y1 = y2
  · subst hy
    rw [drawLine_horizontal, if_pos rfl]
    rfl
  rw [if_neg hy]
  by_cases hx : x1 = x2
  · subst hx
    rw [drawLine_vertical _ _ _ _ (BitVec.toNat_ne.1 hy), if_pos rfl]
    rfl
  · rw [drawLine_sloped _ _ _ _ _ (BitVec.toNat_ne.1 hx) (BitVec.toNat_ne.1 hy), if_neg hx]
    rfl

/-- Settles O32: both forms are `Line`'s pixels; in a vertical line's frame a clamped row stands for the rows it
clamps. -/
theorem anAxisAlignedLineDrawsItsRun : Obligations.AnAxisAlignedLineDrawsItsRun := by
  intro s x1 y1 x2 y2
  have hdraws := draws_drawLine x1.toNat y1.toNat x2.toNat y2.toNat s.fb
  constructor
  · rintro rfl
    refine ⟨_, exec_line s, rfl, fun px py hpx hpy => ?_, fun a ha => hdraws.read fun px py hpx hpy hon => ?_⟩
    · exact (hdraws.pixel hpx hpy).trans (or_congr_right (onLine_horizontal _ _ _ _ _))
    · obtain ⟨rfl, hlo, hhi⟩ := (onLine_horizontal _ _ _ _ _).1 hon
      exact ha px (by omega) (by omega) hlo hhi
  · rintro hy rfl
    have hy' := BitVec.toNat_ne.1 hy
    refine ⟨_, exec_line s, rfl, fun px py hpx hpy => ?_, fun a ha => hdraws.read fun px py hpx hpy hon => ?_⟩
    · exact (hdraws.pixel hpx hpy).trans (or_congr_right (onLine_vertical hy'))
    · obtain ⟨rfl, hlo, hhi⟩ := (onLine_vertical hy').1 hon
      have hrow : min (max py (min y1.toNat y2.toNat)) 47 = py := by omega
      rw [← hrow]
      exact ha _ (by omega) (by omega)

/-- Settles O33, by the points of the line engine. -/
theorem lineEngineRoundsTheMinorCoordinate : Obligations.LineEngineRoundsTheMinorCoordinate := by
  intro s x1 y1 x2 y2 hy hx
  have hx' := BitVec.toNat_ne.1 hx
  have hdraws := draws_drawLine x1.toNat y1.toNat x2.toNat y2.toNat s.fb
  refine ⟨_, exec_line s, rfl, fun px py hpx hpy => ?_, fun a ha => hdraws.read fun px py hpx hpy hon => ?_⟩
  · exact (hdraws.pixel hpx hpy).trans (or_congr_right (onLine_sloped_iff hx' hy))
  · obtain ⟨p, hp, rfl, rfl⟩ := (onLine_sloped hx' hy).1 hon
    exact ha p hp

/-- Settles O34, law by law; the second endpoint is the first one of the line drawn from the other end. -/
theorem lineLaws : Obligations.LineLaws := by
  intro s x1 y1 x2 y2
  rw [BitVec.toNat_eq]
  refine ⟨by rw [exec_line, exec_line, drawLine_comm], _, exec_line s,
    fun h => ⟨pixel_drawLine_left s.fb h, ?_⟩,
    (draws_drawLine _ _ _ _ _).exists_or, length_lineEnginePoints _ _ _ _⟩
  rw [State.advance_fb, State.setFb_fb, drawLine_comm]
  exact pixel_drawLine_left s.fb (by omega)

/-- Settles O35, by the four sides drawn one after the other. -/
theorem rectDrawsTheOutline : Obligations.RectDrawsTheOutline := by
  intro s x1 y1 x2 y2
  have hdraws := draws_drawRect x1 y1 x2 y2 s.fb
  exact ⟨fun _ => rfl, _, exec_rect s, rfl, fun _ _ => hdraws.pixel, fun _ => hdraws.read⟩

end Sys2Proof.Machine
end

section
/-! SUPPORT. The font parser, the events and the stores of a glyph, and the text commands over the runs of the cursor
machine; and the statements about the FontBlitter. -/

namespace Sys2Proof.Machine

/-! ### The font parser -/

/-- The parser raises where the header, or the entries that it declares, do not fit FONT (R151). -/
theorem parseFont_eq_none_iff (font : List Byte) (B : Nat) : parseFont font B = none ↔ fontTooLong font B := by
  by_cases hhead : B + 4 > font.length
  · exact iff_of_true (if_pos hhead) (.inl hhead)
  · rw [parseFont, if_neg hhead]
    by_cases hentries : B + 4 + (fontHeader font B).cnt * (fontHeader font B).gsize > font.length
    · exact iff_of_true (if_pos hentries) (.inr hentries)
    · exact iff_of_false (by simp [hentries]) (not_or.2 ⟨hhead, hentries⟩)

/-- A byte inside FONT is the byte of the number that is read there (R53, R150). -/
theorem getElem?_font {font : List Byte} {a : Nat} (h : a < font.length) :
    font[a]? = some (BitVec.ofNat 8 (fontByte font a).toNat) := by
  rw [BitVec.ofNat_toNat, BitVec.setWidth_eq, fontByte_eq h]

/-! ### The events of a glyph -/

/-- The OR of a band-address byte is a sum, also over the number of the band (R156). -/
theorem bandByte_eq {row : Nat} (h : row ≤ 5) : (0x40 : Byte) ||| BitVec.ofNat 8 row = BitVec.ofNat 8 (0x40 + row) := by
  have hrow : (BitVec.ofNat 8 row).toNat = row := toNat_byte_of_lt (by omega)
  exact (bandAddress_eq _ (by omega)).trans (by rw [hrow])

/-- The OR of an X-address byte is a sum up to the one past the last column, which a font of width 0 can give
(R156, R162). -/
theorem xByte_eq {x : Nat} (h : x ≤ 84) : (0x80 : Byte) ||| BitVec.ofNat 8 x = BitVec.ofNat 8 (0x80 + x) := by
  have hbyte : ∀ v : Byte, v.toNat ≤ 84 → 0x80 ||| v = BitVec.ofNat 8 (0x80 + v.toNat) := by decide
  have hx : (BitVec.ofNat 8 x).toNat = x := toNat_byte_of_lt (by omega)
  exact (hbyte _ (by omega)).trans (by rw [hx])

/-- Two addresses and the column bytes for each band, and home (R156). -/
theorem length_glyphEvents (font : List Byte) (ti : Bool) (f : FontTable) (p : Cursor) (c : Byte) :
    (glyphEvents font ti f p c).length = f.rows * (2 + f.gw) + 2 := by
  simp [glyphEvents, List.length_flatMap, length_goToEvents, Nat.add_comm 2 f.gw]

theorem length_flatMap_glyphEvents (font : List Byte) (ti : Bool) (f : FontTable) (gs : List (Cursor × Byte)) :
    (gs.flatMap fun g => glyphEvents font ti f g.1 g.2).length = gs.length * (f.rows * (2 + f.gw) + 2) := by
  simp [List.length_flatMap, length_glyphEvents]

/-! ### The stores of a glyph -/

/-- An address that no store is to keeps its byte (R61 (c)). -/
theorem PixelBuffer.read_store_other (b : PixelBuffer) {stores : List (Nat × Byte)} {a : Nat}
    (h : ∀ w ∈ stores, w.1 ≠ a) : (b.store stores).read a = b.read a := by
  have hnone : (stores.reverse.find? fun w => w.1 == a) = none := List.find?_eq_none.2 (by simpa using h)
  rw [PixelBuffer.read_store, hnone]
  rfl

/-- An address that every store to it gives one byte reads that byte, if there is such a store (R61 (c)). -/
theorem PixelBuffer.read_store_of_mem (b : PixelBuffer) {stores : List (Nat × Byte)} {a : Nat} {v : Byte}
    (hmem : (a, v) ∈ stores) (hall : ∀ w ∈ stores, w.1 = a → w.2 = v) : (b.store stores).read a = v := by
  rw [PixelBuffer.read_store]
  cases hfind : stores.reverse.find? (fun w => w.1 == a) with
  | none => exact absurd (List.find?_eq_none.1 hfind _ (List.mem_reverse.2 hmem)) (by simp)
  | some w =>
    have hw : w ∈ stores := List.mem_reverse.1 (List.mem_of_find?_eq_some hfind)
    exact hall w hw (by simpa using List.find?_some hfind)

section stores
variable (font : List Byte) (ti : Bool) {f : FontTable} {p : Cursor} {c : Byte}

/-- A glyph's bytes and where they are stored: byte (i, r) in column `x + i` of band `row + r` (R159). -/
theorem mem_glyphStores {w : Nat × Byte} : w ∈ glyphStores font ti f p c ↔
    ∃ r < f.rows, ∃ i < f.gw, w = ((p.row + r) * 84 + p.x + i, textInv ti (glyphByte font f c i r)) := by
  simp only [glyphStores, List.mem_flatMap, List.mem_map, List.mem_range, bAddr, Nat.add_assoc, eq_comm]

/-- No two bytes of a glyph inside the display share an address, so each is read back (R159). -/
theorem read_store_glyphStores (b : PixelBuffer) (hcol : p.x + f.gw ≤ 84) {i r : Nat} (hi : i < f.gw)
    (hr : r < f.rows) : (b.store (glyphStores font ti f p c)).read ((p.row + r) * 84 + p.x + i) =
      textInv ti (glyphByte font f c i r) := by
  refine b.read_store_of_mem ((mem_glyphStores font ti).2 ⟨r, hr, i, hi, rfl⟩) fun w hw ha => ?_
  obtain ⟨r', hr', i', hi', rfl⟩ := (mem_glyphStores font ti).1 hw
  obtain ⟨rfl, rfl⟩ : r' = r ∧ i' = i := by dsimp only at ha; omega
  rfl

theorem read_store_glyphStores_other (b : PixelBuffer) {a : Nat}
    (ha : ∀ i r, i < f.gw → r < f.rows → a ≠ (p.row + r) * 84 + p.x + i) :
    (b.store (glyphStores font ti f p c)).read a = b.read a := by
  refine b.read_store_other fun w hw => ?_
  obtain ⟨r, hr, i, hi, rfl⟩ := (mem_glyphStores font ti).1 hw
  exact (ha i r hi hr).symm

end stores

/-! ### Runs of the cursor machine -/

section runs
variable {f : FontTable} {str cs : List Byte} {c : Byte} {p q : Cursor} {gs : List (Cursor × Byte)}

/-- The advance leaves FAILED alone (R157). -/
theorem FontTable.failed_advance (f : FontTable) (p : Cursor) : (f.advance p).failed = p.failed := by
  unfold FontTable.advance
  split <;> rfl

/-- A glyph that passes the guard is emitted, on whichever row the advance then leaves the cursor (R155 to R157). -/
theorem TextRuns.emit (hc : f.inFont c = true) (hcol : p.x + f.gw ≤ 84) (hband : p.row + f.rows < 6)
    (h : TextRuns f cs (f.advance p) gs q) : TextRuns f (c :: cs) p ((p, c) :: gs) q := by
  obtain ⟨hoff, hcnt⟩ := (f.inFont_iff c).1 hc
  by_cases hx : (p.x + f.gw : Int) ≤ 84 - f.gw
  · rw [FontTable.advance_along hx] at h
    exact .along hoff hcnt hcol hband hx h
  · have hx : (84 - f.gw : Int) < p.x + f.gw := Int.not_le.1 hx
    rw [FontTable.advance_wrap hx] at h
    exact .wrap hoff hcnt hcol hband hx h

/-- A string of in-font characters with room for one more glyph after it stays on its row and emits every one of them
(R161 (a)). -/
theorem exists_textRuns_of_fits (hstr : ∀ c ∈ str, f.inFont c = true) (hcol : p.x + f.gw * str.length + f.gw ≤ 84)
    (hband : p.row + f.rows < 6) :
    ∃ gs, gs.length = str.length ∧ TextRuns f str p gs { p with x := p.x + f.gw * str.length } := by
  induction str generalizing p with
  | nil => exact ⟨[], rfl, .done p⟩
  | cons c cs ih =>
    obtain ⟨hc, hcs⟩ := List.forall_mem_cons.1 hstr
    have hlen : p.x + f.gw * (c :: cs).length = p.x + f.gw + f.gw * cs.length := by
      rw [List.length_cons, Nat.mul_succ]
      omega
    rw [hlen] at hcol ⊢
    obtain ⟨gs, hgs, hrun⟩ := ih (p := { p with x := p.x + f.gw }) hcs hcol hband
    refine ⟨(p, c) :: gs, congrArg Nat.succ hgs, .emit hc (by omega) hband ?_⟩
    rwa [FontTable.advance_along (by omega)]

/-- Characters outside the font make no difference to a run (R158). -/
theorem TextRuns.filter_inFont (h : TextRuns f str p gs q) : TextRuns f (str.filter f.inFont) p gs q := by
  induction h with
  | done p => exact .done p
  | skip hc _ ih => rwa [List.filter_cons_of_neg (by rwa [FontTable.inFont_iff])]
  | stop hoff hcnt hg =>
    rw [List.filter_cons_of_pos ((f.inFont_iff _).2 ⟨hoff, hcnt⟩)]
    exact .stop hoff hcnt hg
  | along hoff hcnt hcol hband hx _ ih =>
    rw [List.filter_cons_of_pos ((f.inFont_iff _).2 ⟨hoff, hcnt⟩)]
    exact .along hoff hcnt hcol hband hx ih
  | wrap hoff hcnt hcol hband hx _ ih =>
    rw [List.filter_cons_of_pos ((f.inFont_iff _).2 ⟨hoff, hcnt⟩)]
    exact .wrap hoff hcnt hcol hband hx ih

end runs

/-! ### The string commands -/

/-- The bytes of a string command: the font base is split into its low and its high byte (R81, R84). -/
theorem cons_encodeFS (op x row : Byte) (fbase : Word) (str : List Byte) : op :: encodeFS x row fbase str =
    [op, x, row, BitVec.ofNat 8 (fbase.toNat % 256), BitVec.ofNat 8 (fbase.toNat / 256),
      BitVec.ofNat 8 str.length] ++ str := by
  have hlo : fbase.extractLsb' 0 8 = BitVec.ofNat 8 (fbase.toNat % 256) := by
    apply BitVec.eq_of_toNat_eq
    simp
  have hhi : fbase.extractLsb' 8 8 = BitVec.ofNat 8 (fbase.toNat / 256) := by
    apply BitVec.eq_of_toNat_eq
    simp [Nat.shiftRight_eq_div_pow]
  rw [encodeFS, hlo, hhi]
  rfl

section commands
variable {s : State} {x row : Byte} {fbase : Word} {str : List Byte} {f : FontTable} {gs : List (Cursor × Byte)}
  {q : Cursor}

/-- PRINTSTR sends all the events of its run and ends at its last cursor, or is stuck in one of its glyphs
(R59, R158). -/
theorem exec_printstr_cases (hf : parseFont s.cfg.font fbase.toNat = some f)
    (h : TextRuns f str (startCursor x row) gs q) :
    (transportAccepts s.transport (gs.flatMap fun g => glyphEvents s.cfg.font s.ti f g.1 g.2).length = true ∧
      exec (.printstr x row fbase str) s = finishString q (6 + str.length)
        (s.sent (gs.flatMap fun g => glyphEvents s.cfg.font s.ti f g.1 g.2))) ∨
    (transportAccepts s.transport (gs.flatMap fun g => glyphEvents s.cfg.font s.ti f g.1 g.2).length = false ∧
      ∃ p, exec (.printstr x row fbase str) s =
        .next ((s.stall (gs.flatMap fun g => glyphEvents s.cfg.font s.ti f g.1 g.2)).loadCursor p)) := by
  rw [exec_printstr_of_textRuns hf h, ← sentGlyphs_events]
  obtain hdone | ⟨hb, -, g, -, -, -, -, hg⟩ :=
    State.sendGlyphs_cases (sentGlyphs s.cfg.font s.ti f gs) q (6 + str.length) s
  · exact .inl hdone
  · exact .inr ⟨hb, g.1, hg⟩

/-- PRINTSTR with a transport that accepts its events (R58, R158). -/
theorem exec_printstr_of_accepts (hf : parseFont s.cfg.font fbase.toNat = some f)
    (h : TextRuns f str (startCursor x row) gs q)
    (ha : transportAccepts s.transport (gs.flatMap fun g => glyphEvents s.cfg.font s.ti f g.1 g.2).length = true) :
    exec (.printstr x row fbase str) s = finishString q (6 + str.length)
      (s.sent (gs.flatMap fun g => glyphEvents s.cfg.font s.ti f g.1 g.2)) := by
  obtain ⟨-, hdone⟩ | ⟨hb, -⟩ := exec_printstr_cases hf h
  · exact hdone
  · cases ha.symm.trans hb

theorem exec_printstr_of_ready (hready : s.transport = .ready) (hf : parseFont s.cfg.font fbase.toNat = some f)
    (h : TextRuns f str (startCursor x row) gs q) :
    exec (.printstr x row fbase str) s = finishString q (6 + str.length)
      (s.sent (gs.flatMap fun g => glyphEvents s.cfg.font s.ti f g.1 g.2)) :=
  exec_printstr_of_accepts hf h (by rw [hready]; rfl)

end commands

/-! ### The obligations -/

/-- Settles O36: the two tests of the parser, and the header bytes that the first of them puts inside FONT. -/
theorem parseFontChecksTheWholeTable : Obligations.ParseFontChecksTheWholeTable := by
  refine fun font B => ⟨parseFont_eq_none_iff font B, fun f hf => ?_⟩
  obtain ⟨rfl, hhead, -⟩ := parseFont_eq_some hf
  exact ⟨rfl, getElem?_font (by omega), getElem?_font (by omega), getElem?_font (by omega), getElem?_font (by omega),
    BitVec.isLt _, BitVec.isLt _, BitVec.isLt _, BitVec.isLt _⟩

/-- Settles O38, by the three cases of PRINTCH that R6 allows. -/
theorem printchSendsTheDefaultGlyph : Obligations.PrintchSendsTheDefaultGlyph := by
  refine fun s c => ⟨fun _ => rfl, fun f hf hrows => ⟨fun hc ha => ?_, exec_printch_of_skip hf hrows⟩,
    fun hlong => exec_printch_of_none ((parseFont_eq_none_iff _ _).2 hlong)⟩
  rw [exec_printch_of_inFont hf hrows hc, State.transmit_of_accepts (by simpa using ha)]
  simp only [State.sent, State.advance, textInv_eq, List.length_map, List.length_range]
  rfl

/-- Settles O40: every string has a run, PRINTSTR follows it, and the cursor is loaded at its end. -/
theorem printstrFollowsTheCursorMachine : Obligations.PrintstrFollowsTheCursorMachine := by
  refine fun s x row fbase str => ⟨fun hlen rest => ?_, fun f hf => ⟨exists_textRuns f str _, fun gs q hrun ha => ?_⟩,
    fun hlong => exec_printstr_of_none ((parseFont_eq_none_iff _ _).2 hlong)⟩
  · rw [← cons_encodeFS]
    exact decodeOfEncodeIsTheCommand (.printstr x row fbase str) rest (decide_eq_true hlen)
  · exact exec_printstr_of_accepts hf hrun ha

/-- Settles O41: past the guard the address bytes do not overflow their OR (R155, R162). -/
theorem aGlyphIsSentBandByBand : Obligations.AGlyphIsSentBandByBand := by
  refine fun font ti f p c hcol hband => ⟨congrArg (· ++ _) (List.flatMap_congr fun r hr => ?_),
    length_glyphEvents font ti f p c⟩
  have hr : r < f.rows := List.mem_range.1 hr
  rw [bandByte_eq (by omega), xByte_eq (by omega), ← Nat.add_assoc]
  simp only [textInv_eq]
  rfl

/-- Settles O42: every string has a run, PRINTSTRB stores its glyphs, and the last store to an address stays. -/
theorem printstrbFollowsTheCursorMachine : Obligations.PrintstrbFollowsTheCursorMachine := by
  refine fun s x row fbase str => ⟨fun hlen rest => ?_, fun f hf => ⟨exists_textRuns f str _, fun gs q hrun => ?_⟩,
    fun hlong => exec_printstrb_of_none ((parseFont_eq_none_iff _ _).2 hlong)⟩
  · rw [← cons_encodeFS]
    exact decodeOfEncodeIsTheCommand (.printstrb x row fbase str) rest (decide_eq_true hlen)
  · exact ⟨_, exec_printstrb_of_textRuns hf hrun, rfl, fun a => PixelBuffer.read_store _ _ a⟩

/-- Settles O43: the run emits the one glyph at the operands' position, and each of its bytes has its own address. -/
theorem printstrbStoresOneGlyph : Obligations.PrintstrbStoresOneGlyph := by
  intro s x row fbase c f hf hc hcol hband
  have hrun : TextRuns f [c] (startCursor x row) [(startCursor x row, c)] (f.advance (startCursor x row)) :=
    .emit hc hcol hband (.done _)
  have hfailed : (f.advance (startCursor x row)).failed = false := f.failed_advance _
  have hexec := exec_printstrb_of_textRuns (s := s) hf hrun
  rw [List.flatMap_singleton] at hexec
  refine ⟨_, hexec, (State.failed_loadCursor _ _).trans hfailed, fun i r hi hr => ?_, fun a ha => ?_⟩
  · rw [← textInv_eq]
    exact read_store_glyphStores s.cfg.font s.ti s.fb hcol hi hr
  · exact read_store_glyphStores_other s.cfg.font s.ti s.fb ha

/-- Settles O45: the string's run emits a glyph for every character, and each glyph has the same number of events. -/
theorem aStringThatFitsEndsAfterItsGlyphs : Obligations.AStringThatFitsEndsAfterItsGlyphs := by
  intro s x row fbase str f hf hstr hcol hband hready
  obtain ⟨gs, hgs, hrun⟩ := exists_textRuns_of_fits (p := startCursor x row) hstr hcol hband
  refine ⟨_, exec_printstr_of_ready hready hf hrun, toNat_byte_of_lt (by dsimp only [startCursor]; omega), ?_,
    State.failed_loadCursor _ _, ?_⟩
  · exact BitVec.ofNat_toNat 8 row
  · rw [← hgs, ← length_flatMap_glyphEvents s.cfg.font s.ti f gs]
    exact List.length_append

/-- Settles O46: both commands end at the last cursor of the same run, and with a font that does not fit both load no
cursor. -/
theorem bothStringCommandsEndAtTheSameCursor : Obligations.BothStringCommandsEndAtTheSameCursor := by
  intro s t u x row fbase str ht hw hu
  cases hf : parseFont s.cfg.font fbase.toNat with
  | none =>
    cases (exec_printstr_of_none hf).symm.trans ht
    cases (exec_printstrb_of_none hf).symm.trans hu
    exact ⟨rfl, rfl, rfl⟩
  | some f =>
    obtain ⟨gs, q, hrun⟩ := exists_textRuns f str (startCursor x row)
    cases (exec_printstrb_of_textRuns hf hrun).symm.trans hu
    obtain ⟨-, hdone⟩ | ⟨hb, p, hstuck⟩ := exec_printstr_cases hf hrun
    · cases hdone.symm.trans ht
      exact ⟨rfl, rfl, rfl⟩
    · cases hstuck.symm.trans ht
      exact absurd hw (State.stall_waiting_ne_none hb)

/-- Settles O47: a run of the string is a run of its in-font characters. -/
theorem charactersOutsideTheFontAreSkipped : Obligations.CharactersOutsideTheFontAreSkipped := by
  intro s x row fbase str f hf hready
  obtain ⟨gs, q, hrun⟩ := exists_textRuns f str (startCursor x row)
  exact ⟨_, _, exec_printstr_of_ready hready hf hrun, exec_printstr_of_ready hready hf hrun.filter_inFont, rfl⟩

/-- Settles O48: every emitted glyph has passed the guard, so no store is to the bottom band (R155). -/
theorem theBottomBandIsOutOfReachOfStrings : Obligations.TheBottomBandIsOutOfReachOfStrings := by
  intro s t x row fbase str ht a ha
  cases hf : parseFont s.cfg.font fbase.toNat with
  | none => cases (exec_printstrb_of_none hf).symm.trans ht; rfl
  | some f =>
    obtain ⟨gs, q, hrun⟩ := exists_textRuns f str (startCursor x row)
    cases (exec_printstrb_of_textRuns hf hrun).symm.trans ht
    refine s.fb.read_store_other (List.forall_mem_flatMap.2 fun g hg w hw => ?_)
    obtain ⟨hcol, hband, -, -⟩ := hrun.emitted rfl g hg
    have hlt : w.1 < 420 := glyphStores_lt _ _ _ _ _ (FontTable.guardFails_eq_false hcol (by omega)) w hw
    omega

end Sys2Proof.Machine
end

section
/-! SUPPORT. What each ScreenController command comes to, one equation for each case of its rule; the events it sends;
and the statements about the ScreenController commands. -/

namespace Sys2Proof.Machine

/-! ### The operands -/

/-- DI is bit 0 of MODE (R25). -/
theorem withBit_zero (v : Byte) (on : Bool) : withBit v 0 on = if on then v ||| 0x01 else v &&& 0xFE := rfl

/-- TI is bit 1 of MODE (R25). -/
theorem withBit_one (v : Byte) (on : Bool) : withBit v 1 on = if on then v ||| 0x02 else v &&& 0xFD := rfl

/-- The range test of REFRESHR tests each axis for its order and its end (R188). -/
theorem regionOutOfRange_iff (xmin ymin xmax ymax : Byte) : regionOutOfRange xmin ymin xmax ymax = true ↔
    xmin.toNat > xmax.toNat ∨ xmax.toNat > 83 ∨ ymin.toNat > ymax.toNat ∨ ymax.toNat > 47 := by
  simp [regionOutOfRange, or_assoc]

/-! ### The events -/

/-- The data events of REFRESH, one for each address (R187). -/
theorem dataEvents_bytes_eq_map_range (b : PixelBuffer) :
    dataEvents b.bytes = (List.range 504).map fun a => .data (b.read a) := by
  rw [dataEvents_bytes b rfl, List.range_eq_range']

/-- Two addresses and the 504 bytes (R189). -/
theorem length_refreshEvents (b : PixelBuffer) : (goToEvents 0 0 ++ dataEvents b.bytes).length = 506 := by
  rw [List.length_append, length_goToEvents, length_dataEvents, b.length_bytes]

/-- The data events of one band of REFRESHR, counted from its first column (R188). -/
theorem dataEvents_bandBytes (b : PixelBuffer) {xmin xmax : Nat} (hx : xmin ≤ xmax) (row : Nat) :
    dataEvents (bandBytes b xmin xmax row) =
      (List.range (xmax - xmin + 1)).map fun k => .data (b.read (row * 84 + (xmin + k))) := by
  rw [dataEvents, bandBytes, List.range'_eq_map_range, List.map_map, List.map_map, Nat.sub_add_comm hx]
  rfl

section region
variable {xmin ymin xmax ymax : Byte}

/-- The events of REFRESHR for a rectangle on the display, with the address bytes as sums (R181, R188). -/
theorem regionEvents_eq (b : PixelBuffer) (hx : xmin.toNat ≤ xmax.toNat) (hxmax : xmax.toNat ≤ 83)
    (hy : ymin.toNat ≤ ymax.toNat) (hymax : ymax.toNat ≤ 47) :
    regionEvents b xmin ymin xmax ymax = (List.range (ymax.toNat / 8 - ymin.toNat / 8 + 1)).flatMap fun j =>
      .command (BitVec.ofNat 8 (0x80 + xmin.toNat)) ::
      .command (BitVec.ofNat 8 (0x40 + (ymin.toNat / 8 + j))) ::
      (List.range (xmax.toNat - xmin.toNat + 1)).map fun k =>
        .data (b.read ((ymin.toNat / 8 + j) * 84 + (xmin.toNat + k))) := by
  rw [regionEvents, touchedBands_eq hy hymax, List.flatMap_map]
  refine List.flatMap_congr fun j hj => ?_
  have hband : ymin.toNat / 8 + j ≤ 5 := by
    have := List.mem_range.1 hj
    omega
  rw [goToEvents, xAddress_eq xmin (by omega), bandByte_eq hband, dataEvents_bandBytes b hx]
  rfl

/-- For each touched band two addresses and the bytes between the columns (R189). -/
theorem length_regionEvents (b : PixelBuffer) (hx : xmin.toNat ≤ xmax.toNat) (hxmax : xmax.toNat ≤ 83)
    (hy : ymin.toNat ≤ ymax.toNat) (hymax : ymax.toNat ≤ 47) : (regionEvents b xmin ymin xmax ymax).length =
      (2 + xmax.toNat - xmin.toNat + 1) * (ymax.toNat / 8 - ymin.toNat / 8 + 1) := by
  have hcols : xmax.toNat - xmin.toNat + 1 + 1 + 1 = 2 + xmax.toNat - xmin.toNat + 1 := by omega
  rw [regionEvents_eq b hx hxmax hy hymax]
  simp [List.length_flatMap, hcols, Nat.mul_comm]

end region

/-! ### Sending a known number of events -/

section transmit
variable {s t : State} {events : List WireEvent} {done : State → Result}

/-- A transport that accepts as many events as there are lets the rest of the rule run (R58). -/
theorem State.transmit_of_accepts_length {n : Nat} (hlen : events.length = n)
    (h : transportAccepts s.transport n = true) : s.transmit events done =
      done { s with wire := s.wire ++ events, transport := transportAfter s.transport n } := by
  subst hlen
  exact State.transmit_of_accepts h

/-- A completed command that only sends has made the trace longer by its events. -/
theorem State.length_wire_of_transmit {n : Nat} (h : s.transmit events (fun u => .next (u.advance n)) = .next t)
    (hw : t.waiting = none) : t.wire.length = s.wire.length + events.length := by
  rw [State.wire_of_transmit h hw, List.length_append]

end transmit

/-! ### The commands, case by case -/

section commands
variable (s : State) {flag x row xmin ymin xmax ymax : Byte}

theorem exec_init : exec .init s =
    s.transmit initEvents fun u => .next ((((u.setFb u.fb.clear).setTi false).setDi false).advance 1) := rfl

theorem exec_setdinv_of_lt (h : flag.toNat < 2) : exec (.setdinv flag) s =
    (s.setDi (boolOperand flag)).transmit [.command (if boolOperand flag then 0x0D else 0x0C)]
      fun u => .next (u.advance 2) :=
  if_neg (by simp [reservedBitSet_eq_false h])

theorem exec_setdinv_of_le (h : 2 ≤ flag.toNat) : exec (.setdinv flag) s = .next (s.recordFault .operandRange) :=
  if_pos ((reservedBitSet_iff flag).2 h)

theorem exec_settinv_of_lt (h : flag.toNat < 2) :
    exec (.settinv flag) s = .next ((s.setTi (boolOperand flag)).advance 2) :=
  if_neg (by simp [reservedBitSet_eq_false h])

theorem exec_settinv_of_le (h : 2 ≤ flag.toNat) : exec (.settinv flag) s = .next (s.recordFault .operandRange) :=
  if_pos ((reservedBitSet_iff flag).2 h)

theorem exec_goto_of_le (hx : x.toNat ≤ 83) (hrow : row.toNat ≤ 5) :
    exec (.goto x row) s = s.transmit (goToEvents x row) fun u => .next (u.advance 3) :=
  if_neg (by simp [stripOutOfRange_eq_false hrow hx])

theorem exec_goto_of_gt (h : x.toNat > 83 ∨ row.toNat > 5) :
    exec (.goto x row) s = .next (s.recordFault .operandRange) :=
  if_pos ((stripOutOfRange_iff row x).2 h.symm)

theorem exec_refresh : exec .refresh s =
    s.transmit (goToEvents 0 0 ++ dataEvents s.fb.bytes) fun u => .next (u.advance 1) := rfl

theorem exec_refreshr_of_le (hx : xmin.toNat ≤ xmax.toNat) (hxmax : xmax.toNat ≤ 83) (hy : ymin.toNat ≤ ymax.toNat)
    (hymax : ymax.toNat ≤ 47) : exec (.refreshr xmin ymin xmax ymax) s =
      s.transmit (regionEvents s.fb xmin ymin xmax ymax) fun u => .next (u.advance 5) :=
  if_neg (by rw [regionOutOfRange_iff]; omega)

theorem exec_refreshr_of_gt
    (h : xmin.toNat > xmax.toNat ∨ xmax.toNat > 83 ∨ ymin.toNat > ymax.toNat ∨ ymax.toNat > 47) :
    exec (.refreshr xmin ymin xmax ymax) s = .next (s.recordFault .operandRange) :=
  if_pos ((regionOutOfRange_iff xmin ymin xmax ymax).2 h)

end commands

/-! ### What the family leaves unchanged -/

/-- The commands of the family have the opcodes 0x40 to 0x45, INIT the first (R83). -/
theorem opcode_of_mem_screenCommands {i : Instr} {flag x row xmin ymin xmax ymax : Byte}
    (hi : i ∈ [Instr.init, .setdinv flag, .settinv flag, .goto x row, .refresh, .refreshr xmin ymin xmax ymax]) :
    i.opcode ∈ [0x40#8, 0x41#8, 0x42#8, 0x43#8, 0x44#8, 0x45#8] ∧ (i ≠ .init → i.opcode ≠ 0x40#8) := by
  revert i
  simp [Instr.opcode]

/-- None of these opcodes is one that writes the cursor, FAILED or RES, and of the writers of the PixelBuffer INIT alone
is one of them (R189). -/
theorem Effect.screen_frame {op : Byte} {s t : State} (h : Effect op s t)
    (hop : op ∈ [0x40#8, 0x41#8, 0x42#8, 0x43#8, 0x44#8, 0x45#8]) : (op ≠ 0x40#8 → t.fb = s.fb) ∧
      t.curX = s.curX ∧ t.curRow = s.curRow ∧ t.failed = s.failed ∧ t.res = s.res := by
  have hapart : ∀ op ∈ [0x40#8, 0x41#8, 0x42#8, 0x43#8, 0x44#8, 0x45#8],
      (op ≠ 0x40#8 → op ∉ [0x10#8, 0x11#8, 0x14#8, 0x20#8, 0x21#8, 0x22#8, 0x23#8, 0x32#8, 0x40#8]) ∧
        op ∉ [0x31#8, 0x32#8] ∧ op ∉ [0x12#8, 0x13#8] := by decide
  obtain ⟨hfb, hcursor, hres⟩ := hapart op hop
  exact ⟨fun hne => by_contra fun hw => hfb hne (h.fb_writer hw),
    by_contra fun hw => hcursor (h.cursor_writer (.inl hw)),
    by_contra fun hw => hcursor (h.cursor_writer (.inr (.inl hw))),
    by_contra fun hw => hcursor (h.cursor_writer (.inr (.inr hw))),
    by_contra fun hw => hres (h.res_writer hw)⟩

/-! ### The obligations -/

/-- Settles O49: the seven events, then the fill of R111; TI and DI are the two bits of MODE that are cleared. -/
theorem initConfiguresAndClears : Obligations.InitConfiguresAndClears := by
  refine fun s => ⟨fun _ => rfl, fun ha => ⟨_, (exec_init s).trans (State.transmit_of_accepts_length rfl ha), ?_,
    fun a hlt => s.fb.read_clear hlt⟩⟩
  have hmode : withBit (withBit s.mode 1 false) 0 false = s.mode &&& 0xFC := BitVec.and_assoc _ _ _
  rw [← hmode]
  rfl

/-- Settles O54: the region's events and their number, or the range test. -/
theorem refreshrSendsTheTouchedBands : Obligations.RefreshrSendsTheTouchedBands := by
  refine fun s xmin ymin xmax ymax => ⟨fun _ => rfl, fun hx hxmax hy hymax ha => ?_, exec_refreshr_of_gt s⟩
  rw [exec_refreshr_of_le s hx hxmax hy hymax,
    State.transmit_of_accepts_length (length_regionEvents s.fb hx hxmax hy hymax) ha,
    regionEvents_eq s.fb hx hxmax hy hymax]
  rfl

/-- Settles O55: each command that completes has sent its events; the frame is that of the family. -/
theorem screenControllerEventCounts : Obligations.ScreenControllerEventCounts := by
  refine fun s t flag x row xmin ymin xmax ymax => ⟨fun h hw => ?_, fun hflag h hw => ?_, fun h => ?_,
    fun hx hrow h hw => ?_, fun h hw => ?_, fun hx hxmax hy hymax h hw => ?_, fun i hi h => ?_⟩
  · cases State.transmit_completed ((exec_init s).symm.trans h) hw
    exact List.length_append
  · exact State.length_wire_of_transmit ((exec_setdinv_of_lt s hflag).symm.trans h) hw
  · exact by_contra fun hne => absurd ((exec_effect h).wire_writer (.inr hne)) (by simp [Instr.opcode])
  · exact State.length_wire_of_transmit ((exec_goto_of_le s hx hrow).symm.trans h) hw
  · rw [← length_refreshEvents s.fb]
    exact State.length_wire_of_transmit ((exec_refresh s).symm.trans h) hw
  · rw [← length_regionEvents s.fb hx hxmax hy hymax]
    exact State.length_wire_of_transmit ((exec_refreshr_of_le s hx hxmax hy hymax).symm.trans h) hw
  · obtain ⟨hop, hinit⟩ := opcode_of_mem_screenCommands hi
    obtain ⟨hfb, hframe⟩ := (exec_effect h).screen_frame hop
    exact ⟨fun hne => hfb (hinit hne), hframe⟩

/-- Settles O50: DI is written, then the polarity command is sent, by the same flag. -/
theorem setdinvSelectsThePolarity : Obligations.SetdinvSelectsThePolarity := by
  refine fun s flag => ⟨fun _ => rfl, fun hflag ha => ?_, exec_setdinv_of_le s⟩
  rw [exec_setdinv_of_lt s hflag, State.transmit_of_accepts_length rfl ha, boolOperand_of_lt hflag]
  simp only [State.setDi, withBit_zero, decide_eq_true_eq]
  rfl

/-- Settles O51: TI is bit 1 of MODE. -/
theorem settinvSelectsTheTextInversion : Obligations.SettinvSelectsTheTextInversion := by
  refine fun s flag => ⟨fun _ => rfl, fun hflag => ?_, exec_settinv_of_le s⟩
  rw [exec_settinv_of_lt s hflag, boolOperand_of_lt hflag]
  simp only [State.setTi, withBit_one, decide_eq_true_eq]
  rfl

/-- Settles O52: in range the two addresses are sums. -/
theorem gotoSendsTheTwoAddresses : Obligations.GotoSendsTheTwoAddresses := by
  refine fun s x row => ⟨fun _ => rfl, fun hx hrow ha => ?_, exec_goto_of_gt s⟩
  rw [exec_goto_of_le s hx hrow, State.transmit_of_accepts_length (length_goToEvents x row) ha, goToEvents,
    xAddress_eq x hx, bandAddress_eq row hrow]
  rfl

/-- Settles O53: home and the bytes in address order, 506 events in all. -/
theorem refreshSendsTheWholeBuffer : Obligations.RefreshSendsTheWholeBuffer := by
  refine fun s => ⟨fun _ => rfl, fun ha => ?_⟩
  rw [exec_refresh, State.transmit_of_accepts_length (length_refreshEvents s.fb) ha, dataEvents_bytes_eq_map_range]
  rfl

end Sys2Proof.Machine
end

section
/-! SUPPORT. Where a command raises a fault and where it keeps FAULT as it was, which step of a run is the last, and
what a step answers in each of the four outcomes; and the statements about faults, outcomes and the end of a run. -/

namespace Sys2Proof.Machine

/-! ### Raising a fault -/

/-- FAULT is bit 1 of STATUS, and FPC holds the two bytes of `pc` (R24, R26, R202). -/
theorem State.recordFault_eq (k : FaultCause) (s : State) : s.recordFault k = { s with
    status := s.status ||| 0x02
    fcause := k.code
    fpcLo := BitVec.ofNat 8 (s.pc.toNat % 256)
    fpcHi := BitVec.ofNat 8 (s.pc.toNat / 256) } := by
  have hlo : s.pc.extractLsb' 0 8 = BitVec.ofNat 8 (s.pc.toNat % 256) := BitVec.eq_of_toNat_eq (by simp)
  have hhi : s.pc.extractLsb' 8 8 = BitVec.ofNat 8 (s.pc.toNat / 256) :=
    BitVec.eq_of_toNat_eq (by simp [Nat.shiftRight_eq_div_pow])
  rw [← hlo, ← hhi]
  rfl

/-- Faults are precise: a command that leaves FAULT set where it was clear has recorded a fault and done no more
(R202). -/
theorem eq_recordFault_of_exec {i : Instr} {s t : State} (hs : s.faulted = false) (h : exec i s = .next t)
    (ht : t.faulted = true) : ∃ k, t = s.recordFault k := by
  obtain hfault | hd | hb := exec_next_cases h
  · exact hfault
  · simp [hd.faulted, hs] at ht
  · simp [hb.faulted, hs] at ht

/-! ### Where a command raises -/

/-- A reserved bit or an operand out of its range raises OperandRange, before the command does anything (R88, R201). -/
theorem exec_of_operandRangeOf {i : Instr} (s : State) (h : operandRangeOf i) :
    exec i s = .next (s.recordFault .operandRange) := by
  cases i
  case setpix => exact exec_setpix_of_le s h
  case setdinv => exact exec_setdinv_of_le s h
  case settinv => exact exec_settinv_of_le s h
  case getbyte => exact exec_getbyte_of_gt s h
  case setbyte => exact exec_setbyte_of_gt s h
  case goto => exact exec_goto_of_gt s h
  case refreshr => exact exec_refreshr_of_gt s h
  all_goals exact h.elim

/-- A font table that does not fit FONT raises FontBounds, before the command does anything (R151, R201). -/
theorem exec_of_fontBoundsOf {i : Instr} {s : State} (h : fontBoundsOf s i) :
    exec i s = .next (s.recordFault .fontBounds) := by
  cases i
  case printch => exact exec_printch_of_none ((parseFont_eq_none_iff _ _).2 h)
  case printstr => exact exec_printstr_of_none ((parseFont_eq_none_iff _ _).2 h)
  case printstrb => exact exec_printstrb_of_none ((parseFont_eq_none_iff _ _).2 h)
  all_goals exact h.elim

/-! ### Where a command does not raise -/

/-- The answer is a next state in which FAULT is as it was in `s`. -/
def KeepsFault (s : State) (r : Result) : Prop := ∃ t, r = .next t ∧ t.faulted = s.faulted

theorem KeepsFault.of_transmit {s : State} {events : List WireEvent} {done : State → Result}
    (h : KeepsFault s (done (s.sent events))) : KeepsFault s (s.transmit events done) := by
  cases ha : transportAccepts s.transport events.length with
  | true => rwa [State.transmit_of_accepts ha]
  | false => exact ⟨_, State.transmit_of_blocks ha, rfl⟩

/-- A font table that fits is parsed (R151, R152). -/
theorem exists_parseFont {font : List Byte} {B : Nat} (h : ¬ fontTooLong font B) : ∃ f, parseFont font B = some f :=
  Option.ne_none_iff_exists'.1 (mt (parseFont_eq_none_iff font B).1 h)

theorem keepsFault_printch {s : State} {f : FontTable} {c : Byte}
    (hf : parseFont s.cfg.font s.cfg.defaultFontBase.toNat = some f) (hrows : f.rows = 1) :
    KeepsFault s (exec (.printch c) s) := by
  cases hc : f.inFont c with
  | true =>
    rw [exec_printch_of_inFont hf hrows hc]
    exact .of_transmit ⟨_, rfl, rfl⟩
  | false => exact ⟨_, exec_printch_of_skip hf hrows hc, rfl⟩

theorem keepsFault_printstr {s : State} {x row : Byte} {fbase : Word} {str : List Byte} {f : FontTable}
    (hf : parseFont s.cfg.font fbase.toNat = some f) : KeepsFault s (exec (.printstr x row fbase str) s) := by
  obtain ⟨gs, q, hruns⟩ := exists_textRuns f str (startCursor x row)
  obtain ⟨-, hdone⟩ | ⟨-, p, hstuck⟩ := exec_printstr_cases hf hruns
  · exact ⟨_, hdone, State.faulted_loadCursor _ _⟩
  · exact ⟨_, hstuck, State.faulted_loadCursor _ _⟩

theorem keepsFault_printstrb {s : State} {x row : Byte} {fbase : Word} {str : List Byte} {f : FontTable}
    (hf : parseFont s.cfg.font fbase.toNat = some f) : KeepsFault s (exec (.printstrb x row fbase str) s) := by
  obtain ⟨gs, q, hruns⟩ := exists_textRuns f str (startCursor x row)
  exact ⟨_, exec_printstrb_of_textRuns hf hruns, State.faulted_loadCursor _ _⟩

/-- A command with its operands in range and its font table inside FONT raises nothing: it answers a next state with
FAULT as it was, but for the PRINTCH that R6 rules out (R201, log entry 7). -/
theorem exec_keepsFault_or_refuses {i : Instr} {s : State} (hr : ¬ operandRangeOf i) (hb : ¬ fontBoundsOf s i) :
    KeepsFault s (exec i s) ∨ exec i s = .refused .defaultFontNotSingleBand := by
  cases i
  case clear | getpix | hline | vline | line | rect => exact .inl ⟨_, rfl, rfl⟩
  case setpix => exact .inl ⟨_, exec_setpix_of_lt s (Nat.not_le.1 hr), rfl⟩
  case settinv => exact .inl ⟨_, exec_settinv_of_lt s (Nat.not_le.1 hr), rfl⟩
  case getbyte =>
    obtain ⟨hrow, hx⟩ := not_or.1 hr
    exact .inl ⟨_, exec_getbyte_of_le s (Nat.not_lt.1 hrow) (Nat.not_lt.1 hx), rfl⟩
  case setbyte =>
    obtain ⟨hrow, hx⟩ := not_or.1 hr
    exact .inl ⟨_, exec_setbyte_of_le s (Nat.not_lt.1 hrow) (Nat.not_lt.1 hx), rfl⟩
  case printch c =>
    obtain ⟨f, hf⟩ := exists_parseFont hb
    by_cases hrows : f.rows = 1
    · exact .inl (keepsFault_printch hf hrows)
    · exact .inr (printchRefusesAMultiBandDefaultFont s c f hf hrows)
  case printstr =>
    obtain ⟨f, hf⟩ := exists_parseFont hb
    exact .inl (keepsFault_printstr hf)
  case printstrb =>
    obtain ⟨f, hf⟩ := exists_parseFont hb
    exact .inl (keepsFault_printstrb hf)
  case init =>
    rw [exec_init]
    exact .inl (.of_transmit ⟨_, rfl, rfl⟩)
  case refresh =>
    rw [exec_refresh]
    exact .inl (.of_transmit ⟨_, rfl, rfl⟩)
  case setdinv =>
    rw [exec_setdinv_of_lt s (Nat.not_le.1 hr)]
    exact .inl (KeepsFault.of_transmit (s := s.setDi _) ⟨_, rfl, rfl⟩)
  case goto =>
    obtain ⟨hx, hrow⟩ := not_or.1 hr
    rw [exec_goto_of_le s (Nat.not_lt.1 hx) (Nat.not_lt.1 hrow)]
    exact .inl (.of_transmit ⟨_, rfl, rfl⟩)
  case refreshr =>
    simp only [operandRangeOf, not_or, Nat.not_lt, gt_iff_lt] at hr
    obtain ⟨hx, hxmax, hy, hymax⟩ := hr
    rw [exec_refreshr_of_le s hx hxmax hy hymax]
    exact .inl (.of_transmit ⟨_, rfl, rfl⟩)

/-- The faults a command can raise where none is latched, and where it raises them (R201). -/
theorem exec_eq_recordFault_iff {i : Instr} {s : State} (hs : s.faulted = false) (k : FaultCause) :
    exec i s = .next (s.recordFault k) ↔
      (k = .operandRange ∧ operandRangeOf i) ∨ (k = .fontBounds ∧ fontBoundsOf s i) := by
  constructor
  · intro h
    by_cases hr : operandRangeOf i
    · exact .inl ⟨State.recordFault_injective (Host.Outcome.next.inj (h.symm.trans (exec_of_operandRangeOf s hr))), hr⟩
    by_cases hb : fontBoundsOf s i
    · exact .inr ⟨State.recordFault_injective (Host.Outcome.next.inj (h.symm.trans (exec_of_fontBoundsOf hb))), hb⟩
    obtain ⟨t, ht, hft⟩ | hrefused := exec_keepsFault_or_refuses hr hb
    · cases h.symm.trans ht
      simp [hs] at hft
    · cases h.symm.trans hrefused
  · rintro (⟨rfl, hr⟩ | ⟨rfl, hb⟩)
    · exact exec_of_operandRangeOf s hr
    · exact exec_of_fontBoundsOf hb

/-- No command answers a fault outcome: faults are next states (R202, log entry 6). -/
theorem exec_next_or_refuses (i : Instr) (s : State) :
    (∃ t, exec i s = .next t) ∨ exec i s = .refused .defaultFontNotSingleBand := by
  by_cases hr : operandRangeOf i
  · exact .inl ⟨_, exec_of_operandRangeOf s hr⟩
  by_cases hb : fontBoundsOf s i
  · exact .inl ⟨_, exec_of_fontBoundsOf hb⟩
  exact (exec_keepsFault_or_refuses hr hb).imp_left fun ⟨t, ht, _⟩ => ⟨t, ht⟩

/-! ### Where a step raises -/

/-- A step is enabled where FAULT is 0, no command waits, and the stream has bytes left (R80). -/
theorem State.enabled_iff (s : State) :
    s.enabled = true ↔ s.faulted = false ∧ s.waiting = none ∧ s.pc.toNat < s.cfg.cmd.length := by
  simp [State.enabled, State.isStuck, and_assoc]

/-- Bytes that are no command have one fault listed: that of their error (R86, R87). -/
theorem raisedAt_iff_of_error {s : State} {e : DecodeError} (h : s.fetch = .error e) (k : FaultCause) :
    raisedAt s k ↔ k = decodeFault e := by
  cases k <;> cases e <;> simp [raisedAt, decodeFault, h]

/-- A decoded command has the faults of its own tests listed (R201). -/
theorem raisedAt_iff_of_ok {s : State} {i : Instr} (h : s.fetch = .ok i) (k : FaultCause) :
    raisedAt s k ↔ (k = .operandRange ∧ operandRangeOf i) ∨ (k = .fontBounds ∧ fontBoundsOf s i) := by
  cases k <;> simp [raisedAt, h]

theorem step_eq_recordFault_iff {s : State} (hc : s.cfg.wf = true) (he : s.enabled = true) (k : FaultCause) :
    step s = .next (s.recordFault k) ↔ raisedAt s k := by
  obtain ⟨hf, hw, hp⟩ := s.enabled_iff.1 he
  cases hfetch : s.fetch with
  | error e =>
    rw [step_of_fetch_error hc hf hw hp hfetch, raisedAt_iff_of_error hfetch, Host.Outcome.next.injEq, eq_comm]
    exact ⟨State.recordFault_injective, congrArg fun k => s.recordFault k⟩
  | ok i => rw [step_of_fetch_ok hc hf hw hp hfetch, raisedAt_iff_of_ok hfetch, exec_eq_recordFault_iff hf]

/-! ### The end of a run -/

/-- No step is made from a faulted core, nor from one with a command waiting (R203, R204). -/
theorem step_ne_next {s : State} (h : s.faulted = true ∨ s.waiting.isSome = true) (t : State) : step s ≠ .next t := by
  intro ht
  obtain ⟨-, hf, hw, -, -⟩ := step_next_cases ht
  simp [hf, hw] at h

/-- A step that faults or is stuck is the last one; any other moves `pc` strictly on (R90, R204). -/
theorem step_last_or_advances {s t : State} (h : step s = .next t) :
    (∀ u, step t ≠ .next u) ∨ s.pc.toNat < t.pc.toNat := by
  obtain ⟨k, rfl⟩ | ⟨i, hi, hd | hb⟩ := step_outcomes h
  · exact .inl (step_ne_next (.inl (State.faulted_recordFault k s)))
  · obtain ⟨hpc, -⟩ := toNat_pc_add_size (step_next_cases h).1 hi
    obtain ⟨-, hpos, -⟩ := size_of_decode hi
    rw [hd.pc, hpc]
    exact .inr (by omega)
  · exact .inl (step_ne_next (.inr hb.waiting))

/-- A run makes no more steps than the stream has bytes left where it begins (R204). -/
theorem RunsTo.steps_le {k : Nat} {s t : State} (h : RunsTo k s t) : k ≤ s.cfg.cmd.length - s.pc.toNat := by
  induction k generalizing s with
  | zero => exact Nat.zero_le _
  | succ k ih =>
    obtain ⟨u, hu, hrest⟩ := (runsTo_succ k s t).1 h
    obtain ⟨-, -, -, hp, -⟩ := step_next_cases hu
    obtain hlast | hadv := step_last_or_advances hu
    · cases k with
      | zero => omega
      | succ k =>
        obtain ⟨v, hv, -⟩ := (runsTo_succ k u t).1 hrest
        exact absurd hv (hlast v)
    · have hle := ih hrest
      rw [step_cfg hu] at hle
      omega

/-! ### The four outcomes -/

/-- An enabled step is made, but for a PRINTCH with a default font that R6 rules out (R80, log entry 7). -/
theorem step_of_enabled {s : State} (hc : s.cfg.wf = true) (he : s.enabled = true) :
    (∃ t, step s = .next t) ∨ (step s = .refused .defaultFontNotSingleBand ∧ s.cfg.defaultFontOk = false ∧
      ∃ c, s.fetch = .ok (.printch c)) := by
  obtain ⟨hf, hw, hp⟩ := s.enabled_iff.1 he
  cases hfetch : s.fetch with
  | error e => exact .inl ⟨_, step_of_fetch_error hc hf hw hp hfetch⟩
  | ok i =>
    have hstep : step s = exec i s := step_of_fetch_ok hc hf hw hp hfetch
    obtain ⟨t, ht⟩ | hrefused := exec_next_or_refuses i s
    · exact .inl ⟨t, hstep.trans ht⟩
    · obtain ⟨hwf, -⟩ | ⟨-, -, hfont, c, hprintch⟩ := step_refused_cases (hstep.trans hrefused)
      · cases hc.symm.trans hwf
      · exact .inr ⟨hstep.trans hrefused, hfont, c, hfetch.symm.trans hprintch⟩

/-! ### Hardware reset -/

/-- Hardware reset leaves the faulted state (R208). -/
theorem State.faulted_hardwareReset (s : State) : s.hardwareReset.faulted = false := by
  obtain ⟨-, -, -, -, hreset, -⟩ := resetClearsRegistersAndWire
  exact hreset

/-- After hardware reset every byte is the arbitrary one of a new draw, since nothing has been written (R230). -/
theorem State.read_hardwareReset (s : State) (a : Nat) :
    s.hardwareReset.fb.read a = Config.powerOnByte (s.fb.draw + 1) a := rfl

/-! ### The obligations -/

/-- Settles O8: the record written out, and the inversion of a command's next state. -/
theorem raisingRecordsTheFaultAndNothingElse : Obligations.RaisingRecordsTheFaultAndNothingElse := by
  refine fun s => ⟨fun k => ?_, fun i t => eq_recordFault_of_exec⟩
  rw [State.raise, State.recordFault_eq]
  cases k <;> rfl

/-- Settles O9: the fetch fails with the error's own fault, or the command's own tests decide. -/
theorem eachFaultIsRaisedExactlyWhereListed : Obligations.EachFaultIsRaisedExactlyWhereListed :=
  fun _ k hc he => step_eq_recordFault_iff hc he k

/-- Settles O14, by the bound on the steps of a run, which needs no invariant. -/
theorem everyRunEnds : Obligations.EveryRunEnds := by
  rintro s - ⟨t, h⟩
  have hle := h.steps_le
  omega

/-- Settles O15: FAULT, the waiting command and the stream's end are told apart in this order; the invariant rules out
that two of them meet. -/
theorem everyStateHasOneOutcome : Obligations.EveryStateHasOneOutcome := by
  intro s hinv
  have hc := hinv.cfgWf
  have hpc := hinv.pcInStream
  cases hf : s.faulted with
  | true =>
    have hstuck : s.isStuck = false := by
      by_contra hs
      obtain ⟨hclear, -⟩ := hinv.stuck (Bool.eq_true_of_not_eq_false hs)
      cases hf.symm.trans hclear
    exact .inr (.inl ⟨by simp [State.isFinal, hf], rfl, hstuck, by simp [State.enabled, hf], step_of_faulted hc hf⟩)
  | false =>
    cases hs : s.isStuck with
    | true =>
      obtain ⟨-, hp, -⟩ := hinv.stuck hs
      exact .inr (.inr (.inl ⟨by simp [State.isFinal, hp.ne], rfl, rfl, by simp [State.enabled, hs],
        step_of_isStuck hc hf hs⟩))
    | false =>
      have hw : s.waiting = none := by simpa [State.isStuck] using hs
      obtain hp | hp := hpc.lt_or_eq
      · have he : s.enabled = true := s.enabled_iff.2 ⟨hf, hw, hp⟩
        exact .inr (.inr (.inr ⟨by simp [State.isFinal, hp.ne], rfl, rfl, he, step_of_enabled hc he⟩))
      · exact .inl ⟨by simp [State.isFinal, hp, hf], rfl, rfl, by simp [State.enabled, hp],
          step_of_exhausted hc hf hw hp.ge⟩

/-- Settles O20: hardware reset is the reset state but for what it keeps and the new draw. -/
theorem hardwareResetRestartsTheRun : Obligations.HardwareResetRestartsTheRun :=
  fun s => ⟨rfl, s.faulted_hardwareReset, s.read_hardwareReset⟩

end Sys2Proof.Machine
end
